-- ==== Sys2Proof/Word.lean ====
section
/-! DEFINITION. The widths of the OWC bus controller: the spec's `u8`, `u16`, `u32` (rule R11) and the
8-byte device address (rule R38). Everything computed on them that a test could show wrong stands in
files under Sys2Proof/Machine. -/

namespace Sys2Proof

/-- `u8` (rule R11): a bus byte, a DATA byte, a command byte of a profile. -/
abbrev Byte := BitVec 8

/-- `u16` (rule R11): a target address TA, a CRC16 value, a packet seed. -/
abbrev Half := BitVec 16

/-- `u32` (rule R11): a host-visible register, the command word. -/
abbrev Word := BitVec 32

/-- The 8-byte device address (rule R38): address byte i is bits `[8i+7:8i]`. -/
abbrev Addr := BitVec 64

end Sys2Proof
end

