-- ==== Sys2Proof/Config.lean ====
section
/-! DEFINITION. The configuration of one OWC (rules R3, R9, R60, R61, R62) as plain data, and the free
values the spec leaves open (opaque constants with no body).

The configuration is constant for a run (rule R391). A model state carries it in a field no step changes,
so that a statement over all states is a statement over all configurations. The function-valued parameters
of rule R9 and rule R61 are plain data too: a parameter lists some of its values and leaves every other
value to an opaque function that nothing can evaluate (log entry 2). -/

namespace Sys2Proof

/-- Power-delivery durations (rule R45), codes 0 to 7. -/
inductive Duration
  | halfSecond | oneSecond | twoSeconds | fourSeconds | smartDone | infinite | currentDetect | eprom
  deriving DecidableEq, Repr

/-- OTP transaction kinds (rule R47), codes 0 to 5. -/
inductive OtpKind
  | lockWrite | lockRead | redirectWrite | redirectRead | redirectLockWrite | redirectLockRead
  deriving DecidableEq, Repr

/-- `writeMode` of a profile (rule R61). -/
inductive WriteMode
  | staged | direct
  deriving DecidableEq, Repr

/-- `eraseOk : u8 -> bool` of a profile (rule R61): its default (top nibble A or 5), or the bytes it
accepts. -/
inductive EraseOk
  | topNibble
  | oneOf (accepted : List Byte)
  deriving DecidableEq, Repr

/-- A CRC function parameter (rule R9): the default of rule R220 or R221, or another function, named by a
number that an opaque constant below turns into an unconstrained function. -/
inductive CrcFn
  | standard
  | custom (id : Nat)
  deriving DecidableEq, Repr

/-- A function-valued profile parameter (rule R61) as plain data: `rows` lists values, first match first;
every argument not listed is answered by the opaque function number `rest`. -/
structure FnParam (α β : Type) where
  rows : List (α × β)
  rest : Nat
  deriving DecidableEq, Repr

/-- Bank descriptor (rule R60). -/
structure Desc where
  startPhysicalAddress : Nat
  size : Nat
  pageLength : Nat
  numberPages : Nat
  maxPacketDataLength : Nat
  generalPurposeMemory : Bool
  readOnly : Bool
  writeOnce : Bool
  nonVolatile : Bool
  hasPageAutoCRC : Bool
  hasExtraInfo : Bool
  extraInfoLength : Nat
  deriving DecidableEq, Repr

/-- Device profile (rule R61), with the defaults of its table as default values. -/
structure Prof where
  cmdReadMemory : Byte := 0xF0
  cmdReadPageCRC : Byte := 0xA5
  cmdWriteSP : Byte := 0x0F
  cmdReadSP : Byte := 0xAA
  cmdCopySP : Byte := 0x55
  cmdEraseSP : Byte := 0xC3
  eraseRequired : Bool := false
  pollAfterErase : Bool := false
  eraseOk : EraseOk := .topNibble
  writeMode : WriteMode := .staged
  directFrame : Option (FnParam (Half × List Byte) (List Byte)) := none
  directOk : Option (FnParam (List Byte × List Byte) Bool) := none
  macCopy : Bool := false
  strongPullupOnCopy : Bool := false
  copyPowerDuration : Duration := .halfSecond
  otpSupported : List OtpKind := []
  otpFrame : Option (FnParam (OtpKind × Half × Half) (List Byte)) := none
  otpDecode : Option (FnParam (OtpKind × List Byte) (Option Half)) := none
  deriving DecidableEq, Repr

/-- One bank's configuration, `bank[b]` of rule R9. -/
structure Bank where
  desc : Desc
  prof : Prof
  deriving DecidableEq, Repr

/-- The parameters of rule R9 (NBANKS is the length of `banks`; BUF_SIZE is fixed at 256 by rule R30).
`seeds` lists values of `packetSeed(b, p)` other than the default of rule R291. -/
structure Config where
  banks : List Bank
  nhosts : Nat
  matchRomCmd : Byte := 0x55
  resumeCmd : Byte := 0xA5
  crc8 : CrcFn := .standard
  crc16 : CrcFn := .standard
  seeds : List ((Nat × Nat) × Half) := []
  pollLimitReset : Byte := 20
  deriving DecidableEq, Repr

namespace Config

/-- BUF_SIZE (rules R9, R30): 256 DATA bytes. -/
abbrev bufSize : Nat := 256

/-- The presence answer of a `BusReset` for which the state lists no answer: the oracle of rule R93, free. -/
opaque freePresence : Nat → Bool

/-- The received byte of a `BusByte` for which the state lists no answer: the oracle of rule R93, free. -/
opaque freeByte : Nat → Byte

/-- The `rdata` that answers an accepted write: no rule gives it (rule R81; log entry 21). -/
opaque freeRdata : Nat → Word

/-- `CRC8_FN` number `id` where the configuration does not take the default (rule R9). -/
opaque otherCrc8 : Nat → Byte → List Byte → Byte

/-- `CRC16_FN` number `id` where the configuration does not take the default (rule R9). -/
opaque otherCrc16 : Nat → Half → List Byte → Half

/-- `directFrame` number `id` on the arguments its parameter does not list (rules R61, R128: OPEN). -/
opaque openDirectFrame : Nat → Half × List Byte → List Byte

/-- `directOk` number `id` on the arguments its parameter does not list (rules R61, R128: OPEN). -/
opaque openDirectOk : Nat → List Byte × List Byte → Bool

/-- `otpFrame` number `id` on the arguments its parameter does not list (rules R61, R128: OPEN). -/
opaque openOtpFrame : Nat → OtpKind × Half × Half → List Byte

/-- `otpDecode` number `id` on the arguments its parameter does not list (rules R61, R128: OPEN). -/
opaque openOtpDecode : Nat → OtpKind × List Byte → Option Half

/-- The configuration `State.reset` is built with: the one configuration the spec writes out, that of
95_test_vectors.md part 3. DESIGN CHOICE (log entry 1): NBANKS, NHOSTS, descriptors and profiles are OPEN. -/
def reference : Config where
  banks := [{
    desc := {
      startPhysicalAddress := 0, size := 128, pageLength := 32, numberPages := 4,
      maxPacketDataLength := 29, generalPurposeMemory := true, readOnly := false,
      writeOnce := false, nonVolatile := true, hasPageAutoCRC := true,
      hasExtraInfo := false, extraInfoLength := 0 }
    prof := {} }]
  nhosts := 2

end Config

end Sys2Proof
end

