-- ==== Sys2Proof/Syntax.lean ====
section
/-! DEFINITION. The commands of OWC (rule R112), one constructor per row of spec/opcode_table.json, with the
fields of the command word that the command READS (rules R110, R114). BANK, RC and XI are don't-care in a
command that does not read them, so they are no field of its constructor. ARG0-2 are no part of the command
word: they are latched beside it at acceptance (rule R141, `Machine.Run`). -/

namespace Sys2Proof

/-- A decoded command: rule R117's `Cmd(op, bank, rc, xi)` less the don't-care fields of rule R110.
`bank` is the index in CMD[11:8]; it is a number, checked by `Instr.wf` (4 bits) and, when the command
runs, against NBANKS (rule R148). -/
inductive Instr
  | nop
  | reset
  | select
  | putByte
  | getByte
  | dataBlock
  | setSpeed
  | getSpeed
  | pwrSetDuration
  | pwrStart
  | pwrNormal
  | crc8
  | crc16
  | spErase (bank : Nat)
  | spWrite (bank : Nat)
  | spRead (bank : Nat)
  | spCopy (bank : Nat)
  | spCopyMac (bank : Nat)
  | poll
  | mbRead (bank : Nat) (rc : Bool)
  | mbWrite (bank : Nat)
  | mbReadPageCrc (bank : Nat) (rc xi : Bool)
  | mbReadPacket (bank : Nat)
  | mbWritePacket (bank : Nat)
  | mbCheckSpeed (bank : Nat)
  | mbForceVerify (bank : Nat)
  | mbWriteProtect (bank : Nat)
  | otpLock (bank : Nat)
  | otpIsLocked (bank : Nat)
  | otpRedirect (bank : Nat)
  | otpGetRedirect (bank : Nat)
  | otpLockRedirect (bank : Nat)
  | otpIsRedirectLocked (bank : Nat)
  deriving DecidableEq, Repr

/-- The bank index a command reads (rule R112's column "reads BANK"), none where it reads none. -/
def Instr.bank? : Instr → Option Nat
  | .nop => none
  | .reset => none
  | .select => none
  | .putByte => none
  | .getByte => none
  | .dataBlock => none
  | .setSpeed => none
  | .getSpeed => none
  | .pwrSetDuration => none
  | .pwrStart => none
  | .pwrNormal => none
  | .crc8 => none
  | .crc16 => none
  | .spErase b => some b
  | .spWrite b => some b
  | .spRead b => some b
  | .spCopy b => some b
  | .spCopyMac b => some b
  | .poll => none
  | .mbRead b _ => some b
  | .mbWrite b => some b
  | .mbReadPageCrc b _ _ => some b
  | .mbReadPacket b => some b
  | .mbWritePacket b => some b
  | .mbCheckSpeed b => some b
  | .mbForceVerify b => some b
  | .mbWriteProtect b => some b
  | .otpLock b => some b
  | .otpIsLocked b => some b
  | .otpRedirect b => some b
  | .otpGetRedirect b => some b
  | .otpLockRedirect b => some b
  | .otpIsRedirectLocked b => some b

end Sys2Proof
end

