-- ==== Sys2Proof/WellFormed.lean ====
section
/-! DEFINITION. Well-formedness of a command (the BANK field of rule R110 has 4 bits) and of a configuration
(the constraints of rule R10 and the ranges of rules R9 and R60). A configuration that breaks one has no
meaning (rule R10): `Machine.step` refuses it. -/

namespace Sys2Proof

/-- The bank index fits CMD[11:8] (rule R110). -/
def Instr.wf (i : Instr) : Bool :=
  match i.bank? with
  | none => true
  | some b => b < 16

/-- Durations 0 to 4 are finite (rule R45). -/
def Duration.finite : Duration → Bool
  | .halfSecond => true
  | .oneSecond => true
  | .twoSeconds => true
  | .fourSeconds => true
  | .smartDone => true
  | .infinite => false
  | .currentDetect => false
  | .eprom => false

/-- The descriptor's constraints, rule R10 in its order, and the range of `startPhysicalAddress` and
`extraInfoLength` in rule R60. -/
def Desc.wf (d : Desc) : Bool :=
  d.startPhysicalAddress + d.size ≤ 0x10000
  && d.size == d.pageLength * d.numberPages
  && 1 ≤ d.pageLength && d.pageLength ≤ Config.bufSize
  && (d.hasExtraInfo || d.extraInfoLength == 0)
  && d.pageLength + d.extraInfoLength ≤ Config.bufSize
  && d.maxPacketDataLength + 3 ≤ d.pageLength
  && d.startPhysicalAddress ≤ 0xFFFF

/-- The profile's constraints, rule R10 in its order. -/
def Prof.wf (p : Prof) : Bool :=
  (!p.strongPullupOnCopy || p.copyPowerDuration.finite)
  && (p.writeMode == .staged || (p.directFrame.isSome && p.directOk.isSome))
  && (p.otpSupported.isEmpty || (p.otpFrame.isSome && p.otpDecode.isSome))

/-- Every constraint of rule R10, with NBANKS and NHOSTS in 1..16 (rule R9). -/
def Config.wf (c : Config) : Bool :=
  1 ≤ c.banks.length && c.banks.length ≤ 16
  && 1 ≤ c.nhosts && c.nhosts ≤ 16
  && c.banks.all fun b => b.desc.wf && b.prof.wf

end Sys2Proof
end

