-- ==== Sys2Proof/Decode.lean ====
section
/-! DEFINITION. The command word (rule R110), the decoder of rule R117, total on every word and on every byte
list, and the encoder written from the same table (rules R110, R112). -/

namespace Sys2Proof

/-- Why a word is no command (rule R115). -/
inductive DecodeError
  /-- One of the bits [31:14] is 1. -/
  | reservedBits
  /-- OP is not in the map of rule R112. -/
  | unknownOpcode (op : Byte)
  /-- Fewer than the four bytes every command has (rule R111). -/
  | truncated
  deriving DecidableEq, Repr

/-- OP, CMD[7:0] (rule R110). -/
def cmdOp (w : Word) : Byte := w.extractLsb' 0 8

/-- BANK, CMD[11:8] (rule R110). -/
def cmdBank (w : Word) : Nat := (w.extractLsb' 8 4).toNat

/-- RC, CMD[12] (rule R110). -/
def cmdRc (w : Word) : Bool := w.getLsbD 12

/-- XI, CMD[13] (rule R110). -/
def cmdXi (w : Word) : Bool := w.getLsbD 13

/-- CMD[31:14], which must be 0 (rule R110). -/
def cmdReserved (w : Word) : BitVec 18 := w.extractLsb' 14 18

/-- The opcode map of rule R112. -/
def opcodeMap (op : Byte) (bank : Nat) (rc xi : Bool) : Option Instr :=
  match op.toNat with
  | 0x00 => some .nop
  | 0x01 => some .reset
  | 0x02 => some .select
  | 0x03 => some .putByte
  | 0x04 => some .getByte
  | 0x05 => some .dataBlock
  | 0x06 => some .setSpeed
  | 0x07 => some .getSpeed
  | 0x08 => some .pwrSetDuration
  | 0x09 => some .pwrStart
  | 0x0A => some .pwrNormal
  | 0x10 => some .crc8
  | 0x11 => some .crc16
  | 0x20 => some (.spErase bank)
  | 0x21 => some (.spWrite bank)
  | 0x22 => some (.spRead bank)
  | 0x23 => some (.spCopy bank)
  | 0x24 => some (.spCopyMac bank)
  | 0x25 => some .poll
  | 0x30 => some (.mbRead bank rc)
  | 0x31 => some (.mbWrite bank)
  | 0x32 => some (.mbReadPageCrc bank rc xi)
  | 0x33 => some (.mbReadPacket bank)
  | 0x34 => some (.mbWritePacket bank)
  | 0x35 => some (.mbCheckSpeed bank)
  | 0x36 => some (.mbForceVerify bank)
  | 0x37 => some (.mbWriteProtect bank)
  | 0x40 => some (.otpLock bank)
  | 0x41 => some (.otpIsLocked bank)
  | 0x42 => some (.otpRedirect bank)
  | 0x43 => some (.otpGetRedirect bank)
  | 0x44 => some (.otpLockRedirect bank)
  | 0x45 => some (.otpIsRedirectLocked bank)
  | _ => none

/-- The decode function, rule R117: illegal (by name) or a command. -/
def decode (w : Word) : Except DecodeError Instr :=
  if cmdReserved w ≠ 0 then .error .reservedBits
  else match opcodeMap (cmdOp w) (cmdBank w) (cmdRc w) (cmdXi w) with
    | some i => .ok i
    | none => .error (.unknownOpcode (cmdOp w))

/-- The word of four bytes, lowest address first: the host port packs bytes little-endian (rules R84, R91(a)). -/
def wordOfBytes (b0 b1 b2 b3 : Byte) : Word := b3 ++ b2 ++ b1 ++ b0

/-- The decoder on bytes: a command is exactly one 32-bit word (rule R111); answers it with the bytes after it. -/
def decodeBytes : List Byte → Except DecodeError (Instr × List Byte)
  | b0 :: b1 :: b2 :: b3 :: rest => (decode (wordOfBytes b0 b1 b2 b3)).map fun i => (i, rest)
  | _ => .error .truncated

/-- The command of an opcode-table word of `nbits` bits, every bit above them 0. -/
def decodeTableWord (nbits w : Nat) : Option Instr :=
  match decode (BitVec.ofNat 32 (w % 2 ^ nbits)) with
  | .ok i => some i
  | .error _ => none

/-- OP of a command (rule R112). -/
def Instr.opcode : Instr → Byte
  | .nop => 0x00
  | .reset => 0x01
  | .select => 0x02
  | .putByte => 0x03
  | .getByte => 0x04
  | .dataBlock => 0x05
  | .setSpeed => 0x06
  | .getSpeed => 0x07
  | .pwrSetDuration => 0x08
  | .pwrStart => 0x09
  | .pwrNormal => 0x0A
  | .crc8 => 0x10
  | .crc16 => 0x11
  | .spErase _ => 0x20
  | .spWrite _ => 0x21
  | .spRead _ => 0x22
  | .spCopy _ => 0x23
  | .spCopyMac _ => 0x24
  | .poll => 0x25
  | .mbRead _ _ => 0x30
  | .mbWrite _ => 0x31
  | .mbReadPageCrc _ _ _ => 0x32
  | .mbReadPacket _ => 0x33
  | .mbWritePacket _ => 0x34
  | .mbCheckSpeed _ => 0x35
  | .mbForceVerify _ => 0x36
  | .mbWriteProtect _ => 0x37
  | .otpLock _ => 0x40
  | .otpIsLocked _ => 0x41
  | .otpRedirect _ => 0x42
  | .otpGetRedirect _ => 0x43
  | .otpLockRedirect _ => 0x44
  | .otpIsRedirectLocked _ => 0x45

/-- RC of the two commands that read it (rule R110), 0 elsewhere. -/
def Instr.rcBit : Instr → Bool
  | .mbRead _ rc => rc
  | .mbReadPageCrc _ rc _ => rc
  | _ => false

/-- XI of the one command that reads it (rule R110), 0 elsewhere. -/
def Instr.xiBit : Instr → Bool
  | .mbReadPageCrc _ _ xi => xi
  | _ => false

/-- The command word of rule R110: reserved bits 0, then XI, RC, BANK, OP; don't-care fields 0. -/
def encode (i : Instr) : Word :=
  (0 : BitVec 18) ++ BitVec.ofBool i.xiBit ++ BitVec.ofBool i.rcBit
    ++ BitVec.ofNat 4 (i.bank?.getD 0) ++ i.opcode

/-- The bytes of the command word in port order (rule R91(a)). -/
def encodeBytes (i : Instr) : List Byte :=
  [(encode i).extractLsb' 0 8, (encode i).extractLsb' 8 8,
   (encode i).extractLsb' 16 8, (encode i).extractLsb' 24 8]

end Sys2Proof
end

