-- ==== Sys2Proof/Machine/State.lean ====
section
/-! DEFINITION. The state of OWC as plain data: every register of rule R30, every piece of hidden state of
rule R48, the in-flight command of rule R50, the observation record of rule R95, and beside them the
configuration (rule R9, constant) and what the outside world has still to do (log entries 3 to 5). -/

namespace Sys2Proof.Machine

/-- Error codes of STATUS.ERR (rules R42, R350); codes 10..15 are never produced. -/
inductive ErrCode
  | ok | deviceNotFound | integrityError | protocolError | protectionError | rangeError
  | unsupportedOperation | verificationError | timeout | illegalCommand
  deriving DecidableEq, Repr

/-- Speed modes (rule R44), codes 0 to 3. -/
inductive Speed
  | regular | flex | overdrive | hyperdrive
  deriving DecidableEq, Repr

/-- Bus events (rule R95). -/
inductive BusEvent
  | reset (presence : Bool)
  | byte (tx rx : Byte)
  | pullupStart (dur : Duration)
  | pullupEnd
  deriving DecidableEq, Repr

/-- The runtime state of one bank, `bankState[b]` (rule R48). A page set lists the page numbers p whose flag
is true, strictly rising. -/
structure BankState where
  verified : Bool
  readOnly : Bool
  pageLocked : List Nat
  pageCommitted : List Nat
  redirectLocked : List Nat
  deriving DecidableEq, Repr

/-- Where `sendCopy` and the poll after it stand (rules R247, R240): before a byte of the frame without its
last byte (the last byte is kept), before that last byte with the pull-up armed, before a byte of a frame sent
whole, before `PowerWait`, before a poll byte. -/
inductive CopyAt
  | body (last : Byte)
  | last
  | whole
  | power
  | poll
  deriving DecidableEq, Repr

/-- A command that selects a device and then sends one frame: in the select sequence, or in the frame.
`base` is where the data begin in the received bytes (rules R119, R120). -/
inductive FrameAt
  | sel
  | frame (base : Nat)
  deriving DecidableEq, Repr

/-- Where SP_ERASE stands (rule R242). -/
inductive EraseAt
  | sel
  | frame
  | poll (status : Byte)
  deriving DecidableEq, Repr

/-- Where SP_WRITE stands (rule R244); `d` is the payload read from DATA at the first step. -/
inductive WriteAt
  | sel (d : List Byte)
  | frame (d : List Byte)
  deriving DecidableEq, Repr

/-- Where SP_READ stands (rule R246); `h` is the received header. -/
inductive ReadAt
  | sel
  | header
  | data (h : List Byte)
  deriving DecidableEq, Repr

/-- Where SP_COPY and SP_COPY_MAC stand (rules R248, R250); `mac` is empty for SP_COPY. -/
inductive CopyCmdAt
  | sel (mac : List Byte)
  | send (c : CopyAt)
  deriving DecidableEq, Repr

/-- Where one chunk of a memory-bank write stands (rules R282, R283). `es` is the status byte read back,
`h` the received read-back header, `tx` the direct frame sent. -/
inductive ChunkAt
  | eraseSel
  | eraseFrame
  | erasePoll
  | writeSel
  | writeFrame
  | readSel
  | readHeader
  | readData (h : List Byte)
  | copySel (es : Byte)
  | copy (c : CopyAt)
  | directSel
  | directFrame (tx : List Byte)
  deriving DecidableEq, Repr

/-- The locals of `writeRange` (rule R288): the bank-relative start `x`, the bytes `d`, the count `done` of
bytes in completed chunks, and `result`, the RESULT of the command when every chunk has completed. -/
structure WriteRun where
  x : Nat
  d : List Byte
  done : Nat
  result : Word
  deriving DecidableEq, Repr

/-- The three frames of the OTP flows (rules R323, R325, R327): the first read, the write, the read-back. -/
inductive OtpAt
  | first
  | write
  | verify
  deriving DecidableEq, Repr

/-- The point of a command's pseudocode that goes on when the procedure the controller is in (a select
sequence, a frame, a poll, a power wait) returns, with the command's local variables (rule R50). -/
inductive Label
  | select
  | block
  | poll
  | erase (a : EraseAt)
  | write (a : WriteAt)
  | read (a : ReadAt)
  | copy (a : CopyCmdAt)
  | copyMac (a : CopyCmdAt)
  | mbRead (a : FrameAt)
  | pageCrc (a : FrameAt)
  | packet (a : FrameAt)
  | range (w : WriteRun) (a : ChunkAt)
  | check
  | otpSel (a : OtpAt)
  | otpFrame (a : OtpAt)
  deriving DecidableEq, Repr

/-- `pos` of rule R50: the next primitive of the command's pseudocode (rule R14), with the locals of the
procedure it belongs to and the label of what follows that procedure. -/
inductive Pos
  /-- Before the first check of the command. -/
  | start
  /-- Before the `BusReset` of a select sequence (rule R150). -/
  | reset (k : Label)
  /-- In a select sequence, with these bytes left to send; the received bytes are ignored. -/
  | address (tx : List Byte) (k : Label)
  /-- In `Xfer`: bytes left to send, bytes received. -/
  | xfer (tx rx : List Byte) (k : Label)
  /-- In `poll`: poll bytes left (rule R240). -/
  | poll (left : Nat) (k : Label)
  /-- Before `PowerWait` (rule R199). -/
  | power (k : Label)
  deriving DecidableEq, Repr

/-- The command in flight, rule R50's `run(op, bank, rc, xi, a0, a1, a2, h, pos, locals)`: the command word
latched at acceptance (its fields are op, bank, rc and xi; `decode` reads it at every step), the argument
registers latched with it, the host, and the position with its locals. -/
structure Run where
  word : Word
  a0 : Word
  a1 : Word
  a2 : Word
  host : Nat
  pos : Pos
  deriving DecidableEq, Repr

/-- `seq` of rule R50. -/
inductive Seq
  | idle
  | run (r : Run)
  deriving DecidableEq, Repr

/-- The size of a host access (rule R81). -/
inductive AccessSize
  | one | two | four
  deriving DecidableEq, Repr

/-- A host access (rule R81): `h` the host id, `off` the byte offset, `we` write enable. -/
structure Access where
  h : Nat
  off : Nat
  size : AccessSize
  we : Bool
  wdata : Word
  deriving DecidableEq, Repr

/-- The answer to a host access (rule R81). -/
structure Response where
  rdata : Word
  err : Bool
  deriving DecidableEq, Repr

/-- What may happen next (rules R140, R380): a host access, a step of the controller, a step of the power
timer, or the reset input. -/
inductive Event
  | host (a : Access)
  | controller
  | timer
  | reset
  deriving DecidableEq, Repr

/-- The DATA buffer's bytes that hold a value (rules R84, R87): byte offset and value, offsets strictly
rising; an offset not listed is poison (`dataDef` false). -/
abbrev Memory := List Host.Cell

/-- The state of OWC. BUSY is `seq ≠ idle` and OWNED is `owner ≠ none` (rule R32); both are computed, not
stored. -/
structure State where
  /-- ARG0, ARG1, ARG2 (rules R30, R31). -/
  arg0 : Word
  arg1 : Word
  arg2 : Word
  /-- RESULT (rule R35). -/
  result : Word
  /-- CONFIG.RESUME_EN and CONFIG.POLL_LIMIT (rule R36). -/
  resumeEn : Bool
  pollLimit : Byte
  /-- ROMID0 and ROMID1 (rule R38). -/
  romid0 : Word
  romid1 : Word
  /-- STATUS.DONE, OVR, DENIED, PRESENCE, ERR (rule R32). -/
  done : Bool
  ovr : Bool
  denied : Bool
  presence : Bool
  err : ErrCode
  /-- BUSSTATE.SPEED and PDUR (rule R40). -/
  speed : Speed
  pdur : Duration
  /-- The strong pull-up (rules R48, R195). -/
  pwrArmed : Bool
  pwrActive : Bool
  pwrDur : Duration
  /-- `lastSel` and `resumeArmed` (rules R48, R150, R151). -/
  lastSel : Option Addr
  resumeArmed : Bool
  /-- `spValid`, `spTA`, `spES` (rules R37, R48). -/
  spValid : Bool
  spTA : Half
  spES : Byte
  /-- The host that holds LOCK (rules R39, R48). -/
  owner : Option Nat
  /-- `bankState[b]` for b < NBANKS (rule R48). -/
  banks : List BankState
  /-- The DATA buffer (rules R84, R87). -/
  data : Memory
  /-- The in-flight command (rule R50). -/
  seq : Seq
  /-- The bus events, oldest first (rule R95). -/
  hist : List BusEvent
  /-- The configuration (rule R9), which no step changes (rule R391). The MODEL's place for it. -/
  cfg : Config
  /-- The MODEL's own: what happens next, in order (rules R81, R140). -/
  sched : List Event
  /-- The MODEL's own: the oracle's next presence answers (rule R93). -/
  presences : List Bool
  /-- The MODEL's own: the oracle's next received bytes (rule R93). -/
  rxBytes : List Byte
  /-- The MODEL's own: how many answers were taken from the free oracle (log entry 4). -/
  drawn : Nat
  /-- The MODEL's own: the host accesses handled and their answers, oldest first (rule R81). -/
  portLog : List (Access × Response)
  deriving DecidableEq, Repr

/-- Why the machine stops: the one fault the spec names. -/
inductive Fault
  /-- A host read of a DATA word with a poison byte, or a command's `MemRead` that covers one (rules R87, R356,
  U1). Raised by `hostRead` and by DATABLOCK, CRC8, CRC16, SP_WRITE, SP_COPY_MAC, MB_WRITE and MB_WRITE_PACKET.
  Safe: an implementation may return anything there, and no value can be proved of it. -/
  | poisonRead
  deriving DecidableEq, Repr

/-- Why the model gives a step no meaning. -/
inductive Refusal
  /-- An instruction with no meaning in the model. Safe. No arm of `exec` answers it. -/
  | notModelled (mnemonic : String)
  /-- `exec` was asked to run a command while none is in flight; `step` never does. Safe. -/
  | noCommand
  /-- `exec` was asked to run a command at a position of another command; no state that `step` reaches from an
  accepted command holds one. Safe. -/
  | strayPosition
  /-- The configuration breaks a constraint of rule R10: it has no meaning (U7). Raised by `step`. Safe. -/
  | badConfiguration
  /-- A scheduled access names a host that does not exist (rule R43). Raised by `step`. Safe. -/
  | noSuchHost
  deriving DecidableEq, Repr

/-- What a step or a meaning answers. -/
abbrev Result := Host.Outcome State Fault Refusal

/-- The reset value of `bankState[b]` (rules R41, R70). -/
def BankState.reset (b : Bank) : BankState where
  verified := false
  readOnly := b.desc.readOnly
  pageLocked := []
  pageCommitted := []
  redirectLocked := []

/-- The reset values of rule R70 under configuration `c`, with nothing scheduled and no answer listed. -/
def State.resetWith (c : Config) : State where
  arg0 := 0
  arg1 := 0
  arg2 := 0
  result := 0
  resumeEn := false
  pollLimit := c.pollLimitReset
  romid0 := 0
  romid1 := 0
  done := false
  ovr := false
  denied := false
  presence := false
  err := .ok
  speed := .regular
  pdur := .halfSecond
  pwrArmed := false
  pwrActive := false
  pwrDur := .halfSecond
  lastSel := none
  resumeArmed := false
  spValid := false
  spTA := 0
  spES := 0
  owner := none
  banks := c.banks.map BankState.reset
  data := []
  seq := .idle
  hist := []
  cfg := c
  sched := []
  presences := []
  rxBytes := []
  drawn := 0
  portLog := []

/-- The machine right after reset (rule R70), under the spec's own written-out configuration (log entry 1). -/
def State.reset : State := State.resetWith Config.reference

end Sys2Proof.Machine
end

