-- ==== Sys2Proof/Machine/Crc.lean ====
section
/-! DEFINITION. The CRC functions (rules R220, R221) and their pass conditions (rules R155, R222, R224). -/

namespace Sys2Proof.Machine

/-- `n` rounds of rule R220's inner loop on the register `c` and the byte `v`. -/
def crc8Rounds : Nat → Byte → Byte → Byte
  | 0, c, _ => c
  | n + 1, c, v =>
    let mixed := (c ^^^ v).getLsbD 0
    let shifted := c >>> 1
    crc8Rounds n (if mixed then shifted ^^^ 0x8C else shifted) (v >>> 1)

/-- The default `CRC8_FN(seed, bytes)` (rule R220). -/
def crc8Standard (seed : Byte) : List Byte → Byte
  | [] => seed
  | v :: rest => crc8Standard (crc8Rounds 8 seed v) rest

/-- `n` rounds of rule R221's inner loop. -/
def crc16Rounds : Nat → Half → Half
  | 0, c => c
  | n + 1, c => crc16Rounds n (if c.getLsbD 0 then (c >>> 1) ^^^ 0xA001 else c >>> 1)

/-- The default `CRC16_FN(seed, bytes)` (rule R221). -/
def crc16Standard (seed : Half) : List Byte → Half
  | [] => seed
  | v :: rest => crc16Standard (crc16Rounds 8 (seed ^^^ v.setWidth 16)) rest

/-- `CRC8_FN` of the configuration (rule R9). -/
def crc8Fn (c : Config) (seed : Byte) (bytes : List Byte) : Byte :=
  match c.crc8 with
  | .standard => crc8Standard seed bytes
  | .custom id => Config.otherCrc8 id seed bytes

/-- `CRC16_FN` of the configuration (rule R9). -/
def crc16Fn (c : Config) (seed : Half) (bytes : List Byte) : Half :=
  match c.crc16 with
  | .standard => crc16Standard seed bytes
  | .custom id => Config.otherCrc16 id seed bytes

/-- CRC16_RESIDUE (rule R8). -/
def crc16Residue : Half := 0xB001

/-- `crc8` passes: residue 0 (rule R222). -/
def crc8Pass (c : Config) (block : List Byte) : Bool := crc8Fn c 0 block == 0

/-- `crc16Pass(s, bytes)` (rule R224). -/
def crc16Pass (c : Config) (seed : Half) (bytes : List Byte) : Bool := crc16Fn c seed bytes == crc16Residue

/-- `crcOk(rx)` of a received frame: seed 0, the whole frame (rule R155). -/
def crcOk (c : Config) (rx : List Byte) : Bool := crc16Pass c 0 rx

end Sys2Proof.Machine
end

