-- ==== Sys2Proof/Machine/Operands.lean ====
section
/-! DEFINITION. Every operand form of rule R113, read from the arguments latched at acceptance, the byte order of
rules R12, R38 and R90, the bank-relative and window arithmetic of rules R89, R90 and R243, and the lookups into
the configuration (rules R61, R291). -/

namespace Sys2Proof.Machine

/-! ## Bytes of wider values -/

/-- `lo(a)` (rule R12). -/
def lo (a : Half) : Byte := a.extractLsb' 0 8

/-- `hi(a)` (rule R12). -/
def hi (a : Half) : Byte := a.extractLsb' 8 8

/-- The 16-bit value of TA1 (or a low byte) and TA2 (or a high byte) (rules R16, R90). -/
def half (low high : Byte) : Half := high ++ low

/-- The eight bytes of a device address, byte 0 first (rules R38, R91(b)). -/
def addrBytes (a : Addr) : List Byte :=
  [a.extractLsb' 0 8, a.extractLsb' 8 8, a.extractLsb' 16 8, a.extractLsb' 24 8,
   a.extractLsb' 32 8, a.extractLsb' 40 8, a.extractLsb' 48 8, a.extractLsb' 56 8]

/-- `FF×n` (rule R12). -/
def ffs (n : Nat) : List Byte := List.replicate n 0xFF

/-- `l[i..j)` with j = i + n (rule R12). -/
def sub (l : List Byte) (i n : Nat) : List Byte := (l.drop i).take n

/-! ## Operand forms (rule R113) -/

/-- `A0`: ARG0[31:0] as a number. -/
def Run.argA0 (r : Run) : Nat := r.a0.toNat

/-- `A0.TA`: ARG0[15:0]. -/
def Run.argTA (r : Run) : Half := r.a0.extractLsb' 0 16

/-- ARG0[31:16] = 0, which `A0.TA` requires (rule R116). -/
def Run.argTAFits (r : Run) : Bool := r.a0.extractLsb' 16 16 == 0

/-- `A0.B`: ARG0[7:0]; ARG0[31:8] ignored. -/
def Run.argB (r : Run) : Byte := r.a0.extractLsb' 0 8

/-- `A1.LEN`: ARG1[15:0]. -/
def Run.argLen (r : Run) : Nat := (r.a1.extractLsb' 0 16).toNat

/-- `A1.OFF`: ARG1[31:16]. -/
def Run.argOff (r : Run) : Nat := (r.a1.extractLsb' 16 16).toNat

/-- `A2.SEED`: ARG2[15:0]; ARG2[31:16] ignored. -/
def Run.argSeed (r : Run) : Half := r.a2.extractLsb' 0 16

/-- `A2`: ARG2[31:0] as a number. -/
def Run.argA2 (r : Run) : Nat := r.a2.toNat

/-! ## Codes -/

/-- A speed code of SET_SPEED (rule R44), none above 3. -/
def speedOfCode : Nat → Option Speed
  | 0 => some .regular
  | 1 => some .flex
  | 2 => some .overdrive
  | 3 => some .hyperdrive
  | _ => none

/-- The code of a speed mode (rule R44). -/
def Speed.code : Speed → BitVec 2
  | .regular => 0
  | .flex => 1
  | .overdrive => 2
  | .hyperdrive => 3

/-- A duration code (rule R45), none above 7. -/
def durationOfCode : Nat → Option Duration
  | 0 => some .halfSecond
  | 1 => some .oneSecond
  | 2 => some .twoSeconds
  | 3 => some .fourSeconds
  | 4 => some .smartDone
  | 5 => some .infinite
  | 6 => some .currentDetect
  | 7 => some .eprom
  | _ => none

/-- The code of a duration (rule R45). -/
def durationCode : Duration → BitVec 3
  | .halfSecond => 0
  | .oneSecond => 1
  | .twoSeconds => 2
  | .fourSeconds => 3
  | .smartDone => 4
  | .infinite => 5
  | .currentDetect => 6
  | .eprom => 7

/-- A finite duration, after which the power timer ends the pull-up: codes 0 to 4 (rules R45, R199). -/
def endsByItself (d : Duration) : Bool := (durationCode d).toNat ≤ 4

/-! ## Window and page arithmetic -/

/-- `woff(TA) = TA mod 32` (rule R243). -/
def woff (ta : Half) : Nat := ta.toNat % 32

/-- `room(TA) = 32 - woff(TA)` (rule R243). -/
def room (ta : Half) : Nat := 32 - woff ta

/-- A payload of `n` bytes at TA completes its 32-byte window (rule R243). -/
def completesWindow (ta : Half) (n : Nat) : Bool := woff ta + n == 32

/-- The read length `m = 32 - (TA1 mod 32)` of a read-back (rule R245). -/
def readLen (ta1 : Byte) : Nat := 32 - ta1.toNat % 32

/-- `TA = D.startPhysicalAddress + x` (rule R89); it fits 16 bits by rule R10. -/
def physical (d : Desc) (x : Nat) : Half := BitVec.ofNat 16 (d.startPhysicalAddress + x)

/-- `pageOf(x) = x div D.pageLength` (file 44). -/
def pageOf (d : Desc) (x : Nat) : Nat := x / d.pageLength

/-- The pages touched by the bank-relative range [x, x + n), n at least 1. -/
def pagesTouched (d : Desc) (x n : Nat) : List Nat :=
  (List.range (pageOf d (x + n - 1) + 1 - pageOf d x)).map (pageOf d x + ·)

/-- The extra-info length X: `D.extraInfoLength`, 0 when `D.hasExtraInfo` is false (rules R120, R286). -/
def extraLen (d : Desc) : Nat := if d.hasExtraInfo then d.extraInfoLength else 0

/-! ## The configuration -/

/-- A descriptor for a bank index no bank has; no command reads it past its BANK check (rule R148). -/
def noBank : Bank where
  desc := {
    startPhysicalAddress := 0, size := 0, pageLength := 1, numberPages := 0, maxPacketDataLength := 0,
    generalPurposeMemory := false, readOnly := true, writeOnce := false, nonVolatile := false,
    hasPageAutoCRC := false, hasExtraInfo := false, extraInfoLength := 0 }
  prof := {}

/-- `D` of rule R148. -/
def State.desc (s : State) (b : Nat) : Desc := (s.cfg.banks.getD b noBank).desc

/-- `P` of rule R148. -/
def State.prof (s : State) (b : Nat) : Prof := (s.cfg.banks.getD b noBank).prof

/-- A function parameter at an argument: its first listed value, else the open function (rule R61). -/
def paramAt {α β : Type} [DecidableEq α] (p : FnParam α β) (other : Nat → α → β) (a : α) : β :=
  (p.rows.lookup a).getD (other p.rest a)

/-- `P.eraseOk(s)` (rule R61): by default top nibble A or 5. -/
def eraseOk (p : Prof) (status : Byte) : Bool :=
  match p.eraseOk with
  | .topNibble => status.extractLsb' 4 4 == 0xA || status.extractLsb' 4 4 == 0x5
  | .oneOf accepted => accepted.contains status

/-- `P.directFrame(TA, d)` (rules R61, R283). -/
def directFrame (p : Prof) (ta : Half) (d : List Byte) : List Byte :=
  match p.directFrame with
  | some f => paramAt f Config.openDirectFrame (ta, d)
  | none => []

/-- `P.directOk(tx, rx)` (rules R61, R283). -/
def directOk (p : Prof) (tx rx : List Byte) : Bool :=
  match p.directOk with
  | some f => paramAt f Config.openDirectOk (tx, rx)
  | none => false

/-- `P.otpSupported(k)` (rule R61). -/
def otpSupported (p : Prof) (k : OtpKind) : Bool := p.otpSupported.contains k

/-- `P.otpFrame(k, page, arg)` (rules R61, R128). -/
def otpFrame (p : Prof) (k : OtpKind) (page arg : Half) : List Byte :=
  match p.otpFrame with
  | some f => paramAt f Config.openOtpFrame (k, page, arg)
  | none => []

/-- `P.otpDecode(k, rx)` (rules R61, R128). -/
def otpDecode (p : Prof) (k : OtpKind) (rx : List Byte) : Option Half :=
  match p.otpDecode with
  | some f => paramAt f Config.openOtpDecode (k, rx)
  | none => none

/-- `packetSeed(b, p)` (rule R291): by default the page's number on the device. -/
def packetSeed (s : State) (b page : Nat) : Half :=
  (s.cfg.seeds.lookup (b, page)).getD
    (BitVec.ofNat 16 ((s.desc b).startPhysicalAddress / (s.desc b).pageLength + page))

end Sys2Proof.Machine
end

