-- ==== Sys2Proof/Machine/Flags.lean ====
section
/-! DEFINITION. The registers a host reads, field by field (rules R32 to R41), and the flag bits of RESULT (rules
R225, R226, R241, R248). -/

namespace Sys2Proof.Machine

/-- The numeric error code (rule R42). -/
def ErrCode.code : ErrCode → BitVec 4
  | .ok => 0
  | .deviceNotFound => 1
  | .integrityError => 2
  | .protocolError => 3
  | .protectionError => 4
  | .rangeError => 5
  | .unsupportedOperation => 6
  | .verificationError => 7
  | .timeout => 8
  | .illegalCommand => 9

/-- A field of a register: `v` with its bit 0 at bit `at`. -/
def field {n : Nat} (v : BitVec n) (pos : Nat) : Word := (v.setWidth 32) <<< pos

/-- A one-bit field. -/
def bit (b : Bool) (pos : Nat) : Word := field (BitVec.ofBool b) pos

/-- STATUS.BUSY: a command is in flight (rule R32). -/
def State.busy (s : State) : Bool := s.seq != .idle

/-- One bit per bank, bank 0 at bit `pos` (rules R32, R41). -/
def bankBits (f : BankState → Bool) : Nat → List BankState → Word
  | _, [] => 0
  | pos, b :: rest => bit (f b) pos ||| bankBits f (pos + 1) rest

/-- STATUS (rule R32). -/
def State.statusWord (s : State) : Word :=
  bit s.busy 0 ||| bit s.done 1 ||| bit s.ovr 2 ||| bit s.denied 3 ||| bit s.presence 4
    ||| bit s.owner.isSome 5 ||| field s.err.code 8 ||| bankBits (·.verified) 16 s.banks

/-- CONFIG (rule R36). -/
def State.configWord (s : State) : Word := bit s.resumeEn 0 ||| field s.pollLimit 8

/-- SPSTATE (rule R37). -/
def State.spstateWord (s : State) : Word := field s.spTA 0 ||| field s.spES 16 ||| bit s.spValid 24

/-- LOCK (rule R39). -/
def State.lockWord (s : State) : Word :=
  match s.owner with
  | none => 0
  | some h => bit true 0 ||| field (BitVec.ofNat 4 h) 8

/-- BUSSTATE (rule R40). -/
def State.busstateWord (s : State) : Word :=
  field s.speed.code 0 ||| field (durationCode s.pdur) 2 ||| bit s.pwrArmed 5 ||| bit s.pwrActive 6
    ||| field (durationCode s.pwrDur) 7 ||| bit s.resumeArmed 10 ||| bit s.lastSel.isSome 11

/-- BANKRO (rule R41). -/
def State.bankroWord (s : State) : Word := bankBits (·.readOnly) 0 s.banks

/-- `zext_32` (rule R11). -/
def zext {n : Nat} (v : BitVec n) : Word := v.setWidth 32

/-- A count as a RESULT. -/
def count (n : Nat) : Word := BitVec.ofNat 32 n

/-- RESULT of CRC8: the residue, and PASS in bit 31 (rule R225). -/
def crc8Result (residue : Byte) : Word := zext residue ||| bit (residue == 0) 31

/-- RESULT of CRC16: the residue, and PASS in bit 31 (rule R226). -/
def crc16Result (residue : Half) : Word := zext residue ||| bit (residue == crc16Residue) 31

/-- RESULT of a poll that saw the byte `v`: `1 | (v << 8)` (rules R241, R248, R249). -/
def pollResult (v : Byte) : Word := 1 ||| field v 8

end Sys2Proof.Machine
end

