-- ==== Sys2Proof/Machine/Memory.lean ====
section
/-! DEFINITION. The DATA buffer as memory (rules R84 to R88): the byte read and write, the multi-byte `MemRead`
and `MemWrite` of rule R14 and the host's word view, and the canonical form of the list. -/

namespace Sys2Proof.Machine

namespace Memory

/-- DATA byte `a`, none where it is poison (rule R87). -/
def get : Memory → Nat → Option Byte
  | [], _ => none
  | (k, v) :: rest, a => if k = a then some v else get rest a

/-- Gives DATA byte `a` the value `v`, keeping the offsets strictly rising. -/
def put : Memory → Nat → Byte → Memory
  | [], a, v => [(a, v)]
  | (k, w) :: rest, a, v =>
    if a < k then (a, v) :: (k, w) :: rest
    else if a = k then (a, v) :: rest
    else (k, w) :: put rest a v

/-- Every offset is at least `lo` and below BUF_SIZE, and they rise strictly. -/
def risingFrom : Nat → Memory → Bool
  | _, [] => true
  | lo, (k, _) :: rest => lo ≤ k && k < Config.bufSize && risingFrom (k + 1) rest

/-- The canonical form: offsets strictly rising, all below BUF_SIZE. Every listed byte holds a value and an
unlisted one holds none, so no entry equals what an unlisted offset reads as. -/
def wf (m : Memory) : Bool := risingFrom 0 m

/-- `MemRead(off, n)` (rule R14): the n bytes from `off`, none when one of them is poison (rule R87). -/
def read (m : Memory) : Nat → Nat → Option (List Byte)
  | _, 0 => some []
  | off, n + 1 =>
    match get m off, read m (off + 1) n with
    | some b, some bs => some (b :: bs)
    | _, _ => none

/-- `MemWrite(off, n, bytes)` (rule R14). There is no byte at or above BUF_SIZE to write (rule R85 keeps every
command below it). -/
def write (m : Memory) (off : Nat) : List Byte → Memory
  | [] => m
  | b :: bs => write (if off < Config.bufSize then put m off b else m) (off + 1) bs

end Memory

end Sys2Proof.Machine
end

