-- ==== Sys2Proof/Machine/Ops.lean ====
section
/-! DEFINITION. The shared operations: acceptance and end of a command (rules R141, R145, R146), the bus steps and
the strong pull-up (rules R149, R199), selecting a device (rules R150 to R154), and the controller step itself
(rule R144). OWC has no trap (rule R353): `raise` is the one way a command fails, and the next acceptance is the
only thing that follows it (rule R355). -/

namespace Sys2Proof.Machine

/-! ## Acceptance and end of a command -/

/-- The state after an accepted write of `w` to CMD by host `h` (rule R141). BUSY becomes 1 with `seq`. -/
def accept (h : Nat) (w : Word) (s : State) : State :=
  { s with
    seq := .run { word := w, a0 := s.arg0, a1 := s.arg1, a2 := s.arg2, host := h, pos := .start }
    done := false
    ovr := false
    denied := false
    err := .ok }

/-- `finish(code, result)` (rule R145), after the DATA writes of the command's rule. BUSY becomes 0 with `seq`. -/
def finish (code : ErrCode) (result : Word) (s : State) : State :=
  { s with result := result, err := code, done := true, seq := .idle }

/-- `raise E with result r` (rule R146); `r` is 0 where the rule names none. -/
def raise (e : ErrCode) (result : Word) (s : State) : State :=
  { s with result := result, err := e, done := true, seq := .idle }

/-- The command in flight goes on to position `p` (rule R50). -/
def stand (r : Run) (p : Pos) (s : State) : State :=
  { s with seq := .run { r with pos := p } }

/-! ## DATA (rules R14, R87, R88) -/

/-- `MemWrite(off, n, bytes)`. -/
def memWrite (off : Nat) (bytes : List Byte) (s : State) : State :=
  { s with data := s.data.write off bytes }

/-- `MemRead(off, n)` and then `k` on its bytes; poison is the model fault PoisonRead (rule R87). -/
def withRead (off n : Nat) (s : State) (k : List Byte → Result) : Result :=
  match s.data.read off n with
  | some d => k d
  | none => .fault .poisonRead

/-! ## The oracle (rule R93) -/

/-- The presence the next `BusReset` returns: the next listed answer, else a free one. -/
def State.nextPresence (s : State) : Bool :=
  match s.presences with
  | p :: _ => p
  | [] => Config.freePresence s.drawn

/-- The byte the next `BusByte` returns: the next listed answer, else a free one. -/
def State.nextByte (s : State) : Byte :=
  match s.rxBytes with
  | v :: _ => v
  | [] => Config.freeByte s.drawn

/-- The oracle has answered a `BusReset`. -/
def presenceTaken (s : State) : State :=
  { s with presences := s.presences.tail, drawn := if s.presences.isEmpty then s.drawn + 1 else s.drawn }

/-- The oracle has answered a `BusByte`. -/
def byteTaken (s : State) : State :=
  { s with rxBytes := s.rxBytes.tail, drawn := if s.rxBytes.isEmpty then s.drawn + 1 else s.drawn }

/-! ## Bus steps and the strong pull-up (rule R149) -/

/-- Appends one bus event (rule R95). -/
def note (e : BusEvent) (s : State) : State := { s with hist := s.hist ++ [e] }

/-- An active pull-up ends; nothing happens when none is active (rules R149, R198). -/
def endPullup (s : State) : State :=
  if s.pwrActive then note .pullupEnd { s with pwrActive := false } else s

/-- The strong pull-up goes on for `pwrDur` (rules R149, R197). -/
def startPullup (s : State) : State :=
  note (.pullupStart s.pwrDur) { s with pwrArmed := false, pwrActive := true }

/-- The state after `BusReset()` (rule R149); its answer is `s.nextPresence`. -/
def busReset (s : State) : State :=
  let t := endPullup s
  note (.reset s.nextPresence) (presenceTaken { t with pwrArmed := false, presence := s.nextPresence })

/-- The state after `BusByte(tx)` (rule R149); its answer is `s.nextByte`. -/
def busByte (tx : Byte) (s : State) : State :=
  let t := note (.byte tx s.nextByte) (byteTaken (endPullup s))
  if t.pwrArmed then startPullup t else t

/-- The power timer has a step: a finite pull-up is on (rule R199). -/
def timerEnabled (s : State) : Bool := s.pwrActive && endsByItself s.pwrDur

/-- The step of the power timer (rule R199); nothing when it has none. -/
def timerStep (s : State) : State := if timerEnabled s then endPullup s else s

/-! ## Selecting a device -/

/-- The 8 bytes of ROMID0-1 (rule R38). -/
def State.romid (s : State) : Addr := s.romid1 ++ s.romid0

/-- Resume addressing is used: the four conditions of rule R151. -/
def usesResume (s : State) : Bool :=
  s.resumeEn && s.owner.isSome && s.resumeArmed && s.lastSel == some s.romid

/-- The bytes of the select sequence after its reset (rule R118). -/
def selectBytes (s : State) : List Byte :=
  if usesResume s then [s.cfg.resumeCmd] else s.cfg.matchRomCmd :: addrBytes s.romid

/-- The selection tracking and the scratchpad state are invalidated: raw bus traffic, the end of a session
(rule R154(b), (c)) and a select that found no device (rule R150). -/
def dropSelection (s : State) : State :=
  { s with lastSel := none, resumeArmed := false, spValid := false }

/-- The end of a select sequence that found a device (rule R150, with rule R154(a)). -/
def noteSelected (s : State) : State :=
  { s with
    spValid := s.spValid && s.lastSel == some s.romid
    lastSel := some s.romid
    resumeArmed := true }

/-- Writes `bankState[b]`. -/
def setBank (b : Nat) (f : BankState → BankState) (s : State) : State :=
  { s with banks := s.banks.modify b f }

/-- `bankState[b].verified <- v` (rules R33, R152, R153). -/
def setVerified (b : Nat) (v : Bool) (s : State) : State :=
  setBank b (fun bs => { bs with verified := v }) s

/-- `forceVerify(b)` (rule R153). -/
def forceVerify (b : Nat) (s : State) : State := setVerified b false s

/-- `bankState[b]`, a bank that is write-protected where no bank is (rule R148 rules that out). -/
def State.bankState (s : State) (b : Nat) : BankState :=
  s.banks.getD b
    { verified := false, readOnly := true, pageLocked := [], pageCommitted := [], redirectLocked := [] }

/-- The rest of `selectFor(b)` (rule R152) once the select sequence has returned `found`; `result` is the RESULT
of a DeviceNotFound (0, or the bytes done of rule R288). -/
def afterSelect (b : Nat) (found : Bool) (result : Word) (s : State) (k : State → State) : State :=
  if found then k (setVerified b true s)
  else raise .deviceNotFound result (setVerified b false s)

/-- `spValid <- false` (rule R154(d)). -/
def dropScratchpad (s : State) : State := { s with spValid := false }

/-- Puts page `p` into a page set, keeping it strictly rising. -/
def insertPage (p : Nat) : List Nat → List Nat
  | [] => [p]
  | q :: rest => if p < q then p :: q :: rest else if p = q then q :: rest else q :: insertPage p rest

/-! ## The controller step (rule R144) -/

/-- What a procedure returns to the pseudocode that called it. -/
inductive Ret
  /-- `SelectSeq` (rule R150): found. -/
  | selected (found : Bool)
  /-- `Xfer` (rule R14): the received bytes. -/
  | received (rx : List Byte)
  /-- `poll` (rule R240). -/
  | polled (r : Option Byte)
  /-- `PowerWait` (rule R199). -/
  | powered
  deriving DecidableEq, Repr

/-- One primitive from position `p` on, and then, when its procedure returns, the command's pure computation `go`
up to its next primitive or its end (rule R144). At `PowerWait` the controller is held while the pull-up is on. -/
def advance (r : Run) (go : Label → Ret → State → State) (p : Pos) (s : State) : State :=
  match p with
  | .start => s
  | .reset k =>
    if s.nextPresence then stand r (.address (selectBytes s) k) (busReset s)
    else go k (.selected false) (dropSelection (busReset s))
  | .address tx k =>
    match tx with
    | [] => go k (.selected true) (noteSelected s)
    | [t] => go k (.selected true) (noteSelected (busByte t s))
    | t :: rest => stand r (.address rest k) (busByte t s)
  | .xfer tx rx k =>
    match tx with
    | [] => go k (.received rx) s
    | [t] => go k (.received (rx ++ [s.nextByte])) (busByte t s)
    | t :: rest => stand r (.xfer rest (rx ++ [s.nextByte]) k) (busByte t s)
  | .poll left k =>
    if s.nextByte ≠ 0xFF then go k (.polled (some s.nextByte)) (busByte 0xFF s)
    else if left ≤ 1 then go k (.polled none) (busByte 0xFF s)
    else stand r (.poll (left - 1) k) (busByte 0xFF s)
  | .power k => if s.pwrActive then s else go k .powered s

/-- `Xfer(tx)` inside the pseudocode: the next primitive is its first byte; with no byte to send it returns at
once, to `empty`. -/
def sendFrame (r : Run) (tx : List Byte) (k : Label) (empty : State → State) (s : State) : State :=
  if tx.isEmpty then empty s else stand r (.xfer tx [] k) s

/-- `poll()` inside the pseudocode (rule R240): POLL_LIMIT bytes at most, none at all when it is 0. -/
def startPoll (r : Run) (k : Label) (none : State → State) (s : State) : State :=
  if s.pollLimit = 0 then none s else stand r (.poll s.pollLimit.toNat k) s

/-- `sendCopy(tx)` up to its first primitive (rule R247). -/
def sendCopy (r : Run) (b : Nat) (mk : CopyAt → Label) (tx : List Byte) (s : State) : State :=
  if (s.prof b).strongPullupOnCopy then
    stand r (.xfer tx.dropLast [] (mk (.body (tx.getLastD 0)))) s
  else stand r (.xfer tx [] (mk .whole)) s

/-- `pwrArmed <- true; pwrDur <- P.copyPowerDuration` (rule R247). -/
def armForCopy (b : Nat) (s : State) : State :=
  { s with pwrArmed := true, pwrDur := (s.prof b).copyPowerDuration }

/-- The rest of `sendCopy` and the poll after it (rules R247, R240); `done` takes the poll's result. -/
def copyGo (r : Run) (b : Nat) (mk : CopyAt → Label) (done : Option Byte → State → State) :
    CopyAt → Ret → State → State
  | .body last, .received _, s => stand r (.xfer [last] [] (mk .last)) (armForCopy b s)
  | .last, .received _, s => stand r (.power (mk .power)) s
  | .whole, .received _, s => startPoll r (mk .poll) (done none) s
  | .power, .powered, s => startPoll r (mk .poll) (done none) s
  | .poll, .polled v, s => done v s
  | _, _, s => s

/-! ## Which positions belong to which command -/

/-- The kind of primitive a position stands before. -/
inductive Prim
  | select | xfer | poll | power
  deriving DecidableEq, Repr

/-- The primitive whose end a label waits for. -/
def CopyAt.prim : CopyAt → Prim
  | .body _ => .xfer
  | .last => .xfer
  | .whole => .xfer
  | .power => .power
  | .poll => .poll

/-- The primitive whose end a label waits for. -/
def Label.prim : Label → Prim
  | .select => .select
  | .block => .xfer
  | .poll => .poll
  | .erase .sel => .select
  | .erase .frame => .xfer
  | .erase (.poll _) => .poll
  | .write (.sel _) => .select
  | .write (.frame _) => .xfer
  | .read .sel => .select
  | .read .header => .xfer
  | .read (.data _) => .xfer
  | .copy (.sel _) => .select
  | .copy (.send c) => c.prim
  | .copyMac (.sel _) => .select
  | .copyMac (.send c) => c.prim
  | .mbRead .sel => .select
  | .mbRead (.frame _) => .xfer
  | .pageCrc .sel => .select
  | .pageCrc (.frame _) => .xfer
  | .packet .sel => .select
  | .packet (.frame _) => .xfer
  | .range _ .eraseSel => .select
  | .range _ .eraseFrame => .xfer
  | .range _ .erasePoll => .poll
  | .range _ .writeSel => .select
  | .range _ .writeFrame => .xfer
  | .range _ .readSel => .select
  | .range _ .readHeader => .xfer
  | .range _ (.readData _) => .xfer
  | .range _ (.copySel _) => .select
  | .range _ (.copy c) => c.prim
  | .range _ .directSel => .select
  | .range _ (.directFrame _) => .xfer
  | .check => .select
  | .otpSel _ => .select
  | .otpFrame _ => .xfer

/-- The labels of a command's pseudocode. -/
def owns : Instr → Label → Bool
  | .select, .select => true
  | .dataBlock, .block => true
  | .poll, .poll => true
  | .spErase _, .erase _ => true
  | .spWrite _, .write _ => true
  | .spRead _, .read _ => true
  | .spCopy _, .copy _ => true
  | .spCopyMac _, .copyMac _ => true
  | .mbRead _ _, .mbRead _ => true
  | .mbReadPageCrc _ _ _, .pageCrc _ => true
  | .mbReadPacket _, .packet _ => true
  | .mbWrite _, .range _ _ => true
  | .mbWritePacket _, .range _ _ => true
  | .mbCheckSpeed _, .check => true
  | .otpLock _, .otpSel _ => true
  | .otpLock _, .otpFrame _ => true
  | .otpLockRedirect _, .otpSel _ => true
  | .otpLockRedirect _, .otpFrame _ => true
  | .otpRedirect _, .otpSel a => a != .first
  | .otpRedirect _, .otpFrame a => a != .first
  | .otpIsLocked _, .otpSel a => a == .first
  | .otpIsLocked _, .otpFrame a => a == .first
  | .otpGetRedirect _, .otpSel a => a == .first
  | .otpGetRedirect _, .otpFrame a => a == .first
  | .otpIsRedirectLocked _, .otpSel a => a == .first
  | .otpIsRedirectLocked _, .otpFrame a => a == .first
  | _, _ => false

/-- A position of command `i`: the start, or a primitive that one of its labels waits for. -/
def standsAt (i : Instr) : Pos → Bool
  | .start => true
  | .reset k => owns i k && k.prim == .select
  | .address _ k => owns i k && k.prim == .select
  | .xfer _ _ k => owns i k && k.prim == .xfer
  | .poll _ k => owns i k && k.prim == .poll
  | .power k => owns i k && k.prim == .power

/-- One controller step of command `i` (rule R144): `start` from its first check, `go` from the return of a
procedure. -/
def runCommand (i : Instr) (start : Run → State → Result) (go : Run → Label → Ret → State → State)
    (s : State) : Result :=
  match s.seq with
  | .idle => .refused .noCommand
  | .run r =>
    match r.pos with
    | .start => start r s
    | p => if standsAt i p then .next (advance r (go r) p s) else .refused .strayPosition

/-- A command none of whose steps but the first exists: it ends in its first step (rule R144). -/
def noMore (_ : Run) (_ : Label) (_ : Ret) (s : State) : State := s

/-- The BANK check every command that reads BANK makes first (rule R148). -/
def bankChecked (b : Nat) (s : State) (k : Result) : Result :=
  if b < s.cfg.banks.length then k else .next (raise .rangeError 0 s)

end Sys2Proof.Machine
end

