-- ==== Sys2Proof/Machine/BusPrimitives.lean ====
section
/-! DEFINITION. The bus primitive commands (file 41): RESET, SELECT, PUTBYTE, GETBYTE, DATABLOCK, NOP, the speed
commands and power delivery. -/

namespace Sys2Proof.Machine

/-- NOP (rule R185). -/
def execNop (s : State) : Result :=
  runCommand .nop (fun _ s => .next (finish .ok 0 s)) noMore s

/-- RESET (rule R180). -/
def execReset (s : State) : Result :=
  runCommand .reset
    (fun _ s => .next (finish .ok (bit s.nextPresence 0) (busReset (dropSelection s)))) noMore s

/-- SELECT after its select sequence (rule R181). -/
def selectGo (_ : Run) : Label → Ret → State → State
  | .select, .selected found, s => finish .ok (bit found 0) s
  | _, _, s => s

/-- SELECT (rule R181). -/
def execSelect (s : State) : Result :=
  runCommand .select
    (fun r s => .next (advance r (selectGo r) (.reset .select) s)) selectGo s

/-- PUTBYTE (rule R182). -/
def execPutByte (s : State) : Result :=
  runCommand .putByte
    (fun r s => .next (finish .ok (zext s.nextByte) (busByte r.argB (dropSelection s)))) noMore s

/-- GETBYTE (rule R183). -/
def execGetByte (s : State) : Result :=
  runCommand .getByte
    (fun _ s => .next (finish .ok (zext s.nextByte) (busByte 0xFF (dropSelection s)))) noMore s

/-- DATABLOCK after its transfer (rule R184). -/
def dataBlockGo (r : Run) : Label → Ret → State → State
  | .block, .received rx, s => finish .ok (count r.argLen) (memWrite r.argOff rx s)
  | _, _, s => s

/-- DATABLOCK (rule R184). -/
def dataBlockStart (r : Run) (s : State) : Result :=
  if Config.bufSize < r.argOff + r.argLen then .next (raise .rangeError 0 s)
  else if r.argLen = 0 then .next (finish .ok 0 s)
  else withRead r.argOff r.argLen s fun tx =>
    .next (advance r (dataBlockGo r) (.xfer tx [] .block) (dropSelection s))

/-- DATABLOCK (rule R184). -/
def execDataBlock (s : State) : Result := runCommand .dataBlock dataBlockStart dataBlockGo s

/-- SET_SPEED (rule R193). -/
def setSpeedStart (r : Run) (s : State) : Result :=
  match speedOfCode r.argA0 with
  | none => .next (raise .rangeError 0 s)
  | some m =>
    .next (finish .ok 0
      { s with speed := m, banks := s.banks.map fun bs => { bs with verified := false } })

/-- SET_SPEED (rule R193). -/
def execSetSpeed (s : State) : Result := runCommand .setSpeed setSpeedStart noMore s

/-- GET_SPEED (rule R192). -/
def execGetSpeed (s : State) : Result :=
  runCommand .getSpeed (fun _ s => .next (finish .ok (zext s.speed.code) s)) noMore s

/-- PWR_SET_DURATION (rule R196). -/
def pwrSetDurationStart (r : Run) (s : State) : Result :=
  match durationOfCode r.argA0 with
  | none => .next (raise .rangeError 0 s)
  | some d =>
    if d = .currentDetect ∨ d = .eprom then .next (raise .unsupportedOperation 0 s)
    else .next (finish .ok 0 { s with pdur := d })

/-- PWR_SET_DURATION (rule R196). -/
def execPwrSetDuration (s : State) : Result := runCommand .pwrSetDuration pwrSetDurationStart noMore s

/-- PWR_START (rule R197); the condition codes are those of rule R46. -/
def pwrStartStart (r : Run) (s : State) : Result :=
  if 2 < r.argA0 then .next (raise .rangeError 0 s)
  else if r.argA0 = 1 then .next (raise .unsupportedOperation 0 s)
  else if r.argA0 = 0 then
    .next (finish .ok 0 (startPullup { endPullup s with pwrDur := s.pdur }))
  else .next (finish .ok 0 { s with pwrArmed := true, pwrDur := s.pdur })

/-- PWR_START (rule R197). -/
def execPwrStart (s : State) : Result := runCommand .pwrStart pwrStartStart noMore s

/-- PWR_NORMAL (rule R200). -/
def execPwrNormal (s : State) : Result :=
  runCommand .pwrNormal
    (fun _ s => .next (finish .ok 0 { endPullup s with pwrArmed := false })) noMore s

end Sys2Proof.Machine
end

