-- ==== Sys2Proof/Machine/CrcCommands.lean ====
section
/-! DEFINITION. The CRC commands (file 42). -/

namespace Sys2Proof.Machine

/-- CRC8 (rule R225). -/
def crc8Start (r : Run) (s : State) : Result :=
  if Config.bufSize < r.argOff + r.argLen then .next (raise .rangeError 0 s)
  else withRead r.argOff r.argLen s fun d => .next (finish .ok (crc8Result (crc8Fn s.cfg 0 d)) s)

/-- CRC8 (rule R225). -/
def execCrc8 (s : State) : Result := runCommand .crc8 crc8Start noMore s

/-- CRC16 (rule R226). -/
def crc16Start (r : Run) (s : State) : Result :=
  if Config.bufSize < r.argOff + r.argLen then .next (raise .rangeError 0 s)
  else withRead r.argOff r.argLen s fun d =>
    .next (finish .ok (crc16Result (crc16Fn s.cfg r.argSeed d)) s)

/-- CRC16 (rule R226). -/
def execCrc16 (s : State) : Result := runCommand .crc16 crc16Start noMore s

end Sys2Proof.Machine
end

