-- ==== Sys2Proof/Machine/Scratchpad.lean ====
section
/-! DEFINITION. The scratchpad sequencer commands (file 43): POLL, SP_ERASE, SP_WRITE, SP_READ, SP_COPY and
SP_COPY_MAC, with the frames of rules R121 to R126. -/

namespace Sys2Proof.Machine

/-! ## Frames -/

/-- Erase-scratchpad frame (rule R125). -/
def eraseFrame (p : Prof) (ta : Half) : List Byte := [p.cmdEraseSP, lo ta, hi ta, 0xFF]

/-- Write-scratchpad frame (rule R121): the payload, and FF×2 when it completes the window. -/
def writeFrame (p : Prof) (ta : Half) (d : List Byte) : List Byte :=
  [p.cmdWriteSP, lo ta, hi ta] ++ d ++ (if completesWindow ta d.length then ffs 2 else [])

/-- The header part of the read-scratchpad frame (rule R122). -/
def readHeaderFrame (p : Prof) : List Byte := [p.cmdReadSP, 0xFF, 0xFF, 0xFF]

/-- The data part of the read-scratchpad frame after the header `h` (rules R122, R245). -/
def readDataFrame (h : List Byte) : List Byte := ffs (readLen (h.getD 1 0) + 2)

/-- The target address a read-back header names (rules R122, R246). -/
def headerTA (h : List Byte) : Half := half (h.getD 1 0) (h.getD 2 0)

/-- Copy-scratchpad frame (rule R123), and the MAC-gated one when `mac` is not empty (rule R124). -/
def copyFrame (p : Prof) (ta : Half) (es : Byte) (mac : List Byte) : List Byte :=
  [p.cmdCopySP, lo ta, hi ta, es] ++ mac

/-! ## POLL -/

/-- The end of POLL and of SP_COPY: any non-FF byte is completion, none is Timeout (rules R241, R248). -/
def pollEnd (v : Option Byte) (s : State) : State :=
  match v with
  | none => finish .timeout 0 s
  | some v => finish .ok (pollResult v) s

/-- POLL after its poll (rule R241). -/
def pollGo (_ : Run) : Label → Ret → State → State
  | .poll, .polled v, s => pollEnd v s
  | _, _, s => s

/-- POLL (rule R241): with POLL_LIMIT 0 it ends with no bus step. -/
def pollStart (r : Run) (s : State) : Result :=
  if s.pollLimit = 0 then .next (pollEnd none s)
  else .next (advance r (pollGo r) (.poll s.pollLimit.toNat .poll) s)

/-- POLL (rule R241). -/
def execPoll (s : State) : Result := runCommand .poll pollStart pollGo s

/-! ## SP_ERASE -/

/-- SP_ERASE from its first primitive on (rule R242). -/
def spEraseGo (b : Nat) (r : Run) : Label → Ret → State → State
  | .erase .sel, .selected found, s =>
    afterSelect b found 0 s fun s => stand r (.xfer (eraseFrame (s.prof b) r.argTA) [] (.erase .frame)) s
  | .erase .frame, .received rx, s =>
    let status := rx.getD 3 0
    let t := dropScratchpad s
    if !eraseOk (s.prof b) status then raise .protocolError (zext status) t
    else if (s.prof b).pollAfterErase then
      startPoll r (.erase (.poll status)) (finish .timeout (zext status)) t
    else finish .ok (zext status) t
  | .erase (.poll status), .polled v, s =>
    match v with
    | none => finish .timeout (zext status) s
    | some _ => finish .ok (zext status) s
  | _, _, s => s

/-- The checks of SP_ERASE and its first primitive (rule R242). -/
def spEraseStart (b : Nat) (r : Run) (s : State) : Result :=
  bankChecked b s
    (if (s.prof b).writeMode ≠ .staged ∨ (s.prof b).eraseRequired = false then
      .next (raise .unsupportedOperation 0 s)
    else if r.argTAFits = false then .next (raise .rangeError 0 s)
    else .next (advance r (spEraseGo b r) (.reset (.erase .sel)) s))

/-- SP_ERASE (rule R242). -/
def execSpErase (bank : Nat) (s : State) : Result :=
  runCommand (.spErase bank) (spEraseStart bank) (spEraseGo bank) s

/-! ## SP_WRITE -/

/-- The truncated payload length n (rule R243). -/
def spWriteLen (r : Run) : Nat := min r.argLen (room r.argTA)

/-- SP_WRITE from its first primitive on (rule R244). -/
def spWriteGo (b : Nat) (r : Run) : Label → Ret → State → State
  | .write (.sel d), .selected found, s =>
    afterSelect b found 0 s fun s => stand r (.xfer (writeFrame (s.prof b) r.argTA d) [] (.write (.frame d))) s
  | .write (.frame d), .received rx, s =>
    let t := { s with spValid := false, spTA := r.argTA }
    if completesWindow r.argTA d.length && !crcOk s.cfg rx then
      raise .integrityError (count d.length) (forceVerify b t)
    else finish .ok (count d.length) t
  | _, _, s => s

/-- The checks of SP_WRITE and its first primitive (rule R244). -/
def spWriteStart (b : Nat) (r : Run) (s : State) : Result :=
  bankChecked b s
    (if (s.prof b).writeMode ≠ .staged then .next (raise .unsupportedOperation 0 s)
    else if r.argTAFits = false then .next (raise .rangeError 0 s)
    else if r.argLen = 0 then .next (raise .rangeError 0 s)
    else if Config.bufSize < r.argOff + spWriteLen r then .next (raise .rangeError 0 s)
    else withRead r.argOff (spWriteLen r) s fun d =>
      .next (advance r (spWriteGo b r) (.reset (.write (.sel d))) s))

/-- SP_WRITE (rule R244). -/
def execSpWrite (bank : Nat) (s : State) : Result :=
  runCommand (.spWrite bank) (spWriteStart bank) (spWriteGo bank) s

/-! ## SP_READ -/

/-- The end of SP_READ (rule R246): header `h`, data and CRC bytes `t`. -/
def spReadEnd (b : Nat) (r : Run) (h t : List Byte) (s : State) : State :=
  let m := readLen (h.getD 1 0)
  if !crcOk s.cfg (h ++ t) then finish .ok 0xFFFFFFFF (forceVerify b (dropScratchpad s))
  else
    finish .ok (count m)
      (memWrite r.argOff (sub t 0 m)
        { s with spTA := headerTA h, spES := h.getD 3 0, spValid := true })

/-- SP_READ from its first primitive on (rule R246). -/
def spReadGo (b : Nat) (r : Run) : Label → Ret → State → State
  | .read .sel, .selected found, s =>
    afterSelect b found 0 s fun s => stand r (.xfer (readHeaderFrame (s.prof b)) [] (.read .header)) s
  | .read .header, .received h, s => stand r (.xfer (readDataFrame h) [] (.read (.data h))) s
  | .read (.data h), .received t, s => spReadEnd b r h t s
  | _, _, s => s

/-- The checks of SP_READ and its first primitive (rule R246). -/
def spReadStart (b : Nat) (r : Run) (s : State) : Result :=
  bankChecked b s
    (if (s.prof b).writeMode ≠ .staged then .next (raise .unsupportedOperation 0 s)
    else if Config.bufSize < r.argOff + 32 then .next (raise .rangeError 0 s)
    else .next (advance r (spReadGo b r) (.reset (.read .sel)) s))

/-- SP_READ (rule R246). -/
def execSpRead (bank : Nat) (s : State) : Result :=
  runCommand (.spRead bank) (spReadStart bank) (spReadGo bank) s

/-! ## SP_COPY and SP_COPY_MAC -/

/-- After the select of a copy command: refused without a valid read-back, else the copy frame is sent and the
read-back is consumed (rules R248, R250). -/
def copySelected (r : Run) (b : Nat) (mk : CopyAt → Label) (mac : List Byte) (s : State) : State :=
  if s.spValid then
    sendCopy r b mk (copyFrame (s.prof b) s.spTA s.spES mac) (dropScratchpad s)
  else raise .protocolError 0 s

/-- SP_COPY from its first primitive on (rule R248). -/
def spCopyGo (b : Nat) (r : Run) : Label → Ret → State → State
  | .copy (.sel _), .selected found, s =>
    afterSelect b found 0 s (copySelected r b (fun c => .copy (.send c)) [])
  | .copy (.send c), ret, s => copyGo r b (fun c => .copy (.send c)) pollEnd c ret s
  | _, _, s => s

/-- The checks of SP_COPY and its first primitive (rule R248). -/
def spCopyStart (b : Nat) (r : Run) (s : State) : Result :=
  bankChecked b s
    (if (s.prof b).writeMode ≠ .staged ∨ (s.prof b).macCopy = true then
      .next (raise .unsupportedOperation 0 s)
    else if s.spValid = false then .next (raise .protocolError 0 s)
    else .next (advance r (spCopyGo b r) (.reset (.copy (.sel []))) s))

/-- SP_COPY (rule R248). -/
def execSpCopy (bank : Nat) (s : State) : Result :=
  runCommand (.spCopy bank) (spCopyStart bank) (spCopyGo bank) s

/-- The classification of a MAC copy's poll (rule R249). -/
def macEnd (b : Nat) (v : Option Byte) (s : State) : State :=
  match v with
  | none => raise .protectionError 0xFF (forceVerify b s)
  | some v =>
    if v = 0xAA ∨ v = 0x55 then finish .ok (pollResult v) s
    else raise .protocolError (zext v) (forceVerify b s)

/-- SP_COPY_MAC from its first primitive on (rule R250). -/
def spCopyMacGo (b : Nat) (r : Run) : Label → Ret → State → State
  | .copyMac (.sel mac), .selected found, s =>
    afterSelect b found 0 s (copySelected r b (fun c => .copyMac (.send c)) mac)
  | .copyMac (.send c), ret, s => copyGo r b (fun c => .copyMac (.send c)) (macEnd b) c ret s
  | _, _, s => s

/-- The checks of SP_COPY_MAC and its first primitive (rule R250). -/
def spCopyMacStart (b : Nat) (r : Run) (s : State) : Result :=
  bankChecked b s
    (if (s.prof b).writeMode ≠ .staged ∨ (s.prof b).macCopy = false then
      .next (raise .unsupportedOperation 0 s)
    else if Config.bufSize < r.argOff + 20 then .next (raise .rangeError 0 s)
    else if s.spValid = false then .next (raise .protocolError 0 s)
    else withRead r.argOff 20 s fun mac =>
      .next (advance r (spCopyMacGo b r) (.reset (.copyMac (.sel mac))) s))

/-- SP_COPY_MAC (rule R250). -/
def execSpCopyMac (bank : Nat) (s : State) : Result :=
  runCommand (.spCopyMac bank) (spCopyMacStart bank) (spCopyMacGo bank) s

end Sys2Proof.Machine
end

