-- ==== Sys2Proof/Machine/MemoryBank.lean ====
section
/-! DEFINITION. The memory-bank commands (file 44), with the frames of rules R119, R120 and R127. -/

namespace Sys2Proof.Machine

/-! ## Reading -/

/-- Effective readContinue, `rcEff` (rule R156). -/
def rcEff (b : Nat) (rc : Bool) (s : State) : Bool := rc && (s.bankState b).verified

/-- Read-memory frame for `n` bytes at TA (rule R119). -/
def readMemoryFrame (p : Prof) (ta : Half) (n : Nat) : List Byte := [p.cmdReadMemory, lo ta, hi ta] ++ ffs n

/-- Read-page-with-CRC frame (rule R120); the page and extra info of `d`, and 2 CRC bytes. -/
def readPageFrame (p : Prof) (d : Desc) (ta : Half) : List Byte :=
  [p.cmdReadPageCRC, lo ta, hi ta] ++ ffs (d.pageLength + extraLen d + 2)

/-- TA of page `page` (rule R89). -/
def pageTA (d : Desc) (page : Nat) : Half := physical d (page * d.pageLength)

/-- MB_READ from its first primitive on (rule R281). -/
def mbReadGo (b : Nat) (r : Run) : Label → Ret → State → State
  | .mbRead .sel, .selected found, s =>
    afterSelect b found 0 s fun s =>
      stand r (.xfer (readMemoryFrame (s.prof b) (physical (s.desc b) r.argA0) r.argLen) []
        (.mbRead (.frame 3))) s
  | .mbRead (.frame base), .received rx, s =>
    finish .ok (count r.argLen) (memWrite r.argOff (sub rx base r.argLen) s)
  | _, _, s => s

/-- The checks of MB_READ and its first primitive (rule R281). -/
def mbReadStart (b : Nat) (rc : Bool) (r : Run) (s : State) : Result :=
  bankChecked b s
    (if (s.desc b).size < r.argA0 + r.argLen then .next (raise .rangeError 0 s)
    else if Config.bufSize < r.argOff + r.argLen then .next (raise .rangeError 0 s)
    else if r.argLen = 0 then .next (finish .ok 0 s)
    else if rcEff b rc s then
      .next (advance r (mbReadGo b r) (.xfer (ffs r.argLen) [] (.mbRead (.frame 0))) s)
    else .next (advance r (mbReadGo b r) (.reset (.mbRead .sel)) s))

/-- MB_READ (rule R281). -/
def execMbRead (bank : Nat) (rc : Bool) (s : State) : Result :=
  runCommand (.mbRead bank rc) (mbReadStart bank rc) (mbReadGo bank) s

/-- The extra-info bytes MB_READ_PAGE_CRC stores, `XO` of rule R286. -/
def storedExtra (d : Desc) (xi : Bool) : Nat := if xi then extraLen d else 0

/-- The end of MB_READ_PAGE_CRC (rule R286): page and, when XI is 1, extra info are consecutive in the frame
and in DATA. -/
def pageCrcEnd (b : Nat) (xi : Bool) (r : Run) (base : Nat) (rx : List Byte) (s : State) : State :=
  if !crcOk s.cfg rx then raise .integrityError 0 (forceVerify b s)
  else
    let n := (s.desc b).pageLength + storedExtra (s.desc b) xi
    finish .ok (count n) (memWrite r.argOff (sub rx base n) s)

/-- MB_READ_PAGE_CRC from its first primitive on (rule R286). -/
def mbReadPageCrcGo (b : Nat) (xi : Bool) (r : Run) : Label → Ret → State → State
  | .pageCrc .sel, .selected found, s =>
    afterSelect b found 0 s fun s =>
      stand r (.xfer (readPageFrame (s.prof b) (s.desc b) (pageTA (s.desc b) r.argA0)) []
        (.pageCrc (.frame 3))) s
  | .pageCrc (.frame base), .received rx, s => pageCrcEnd b xi r base rx s
  | _, _, s => s

/-- The checks of MB_READ_PAGE_CRC and its first primitive (rule R286). -/
def mbReadPageCrcStart (b : Nat) (rc xi : Bool) (r : Run) (s : State) : Result :=
  bankChecked b s
    (if (s.desc b).hasPageAutoCRC = false then .next (raise .unsupportedOperation 0 s)
    else if xi = true ∧ (s.desc b).hasExtraInfo = false then .next (raise .unsupportedOperation 0 s)
    else if (s.desc b).numberPages ≤ r.argA0 then .next (raise .rangeError 0 s)
    else if Config.bufSize < r.argOff + (s.desc b).pageLength + storedExtra (s.desc b) xi then
      .next (raise .rangeError 0 s)
    else if rcEff b rc s then
      .next (advance r (mbReadPageCrcGo b xi r)
        (.xfer (ffs ((s.desc b).pageLength + extraLen (s.desc b) + 2)) [] (.pageCrc (.frame 0))) s)
    else .next (advance r (mbReadPageCrcGo b xi r) (.reset (.pageCrc .sel)) s))

/-- MB_READ_PAGE_CRC (rule R286). -/
def execMbReadPageCrc (bank : Nat) (rc xi : Bool) (s : State) : Result :=
  runCommand (.mbReadPageCrc bank rc xi) (mbReadPageCrcStart bank rc xi) (mbReadPageCrcGo bank xi) s

/-! ## Protection -/

/-- A write to [x, x + n) of bank `b` is protected, n at least 1 (rule R284). -/
def isProtected (b x n : Nat) (s : State) : Bool :=
  (pagesTouched (s.desc b) x n).any fun p =>
    (s.bankState b).readOnly || (s.bankState b).pageLocked.contains p
      || ((s.desc b).writeOnce && (s.bankState b).pageCommitted.contains p)

/-- `pageCommitted[p] <- true` for every page touched by [x, x + n), on a write-once bank (rule R288). -/
def commitPages (b x n : Nat) (s : State) : State :=
  if (s.desc b).writeOnce then
    setBank b (fun bs =>
      { bs with pageCommitted := (pagesTouched (s.desc b) x n).foldl (fun l p => insertPage p l) bs.pageCommitted }) s
  else s

/-! ## Writing -/

/-- The target address of the chunk at hand (rule R288). -/
def WriteRun.ta (w : WriteRun) (d : Desc) : Half := physical d (w.x + w.done)

/-- The length of the chunk at hand (rule R288): to the end of the 32-byte window of TA, or of the page for a
Direct bank. -/
def WriteRun.len (w : WriteRun) (d : Desc) (m : WriteMode) : Nat :=
  match m with
  | .staged => min (w.d.length - w.done) (room (w.ta d))
  | .direct => min (w.d.length - w.done) (d.pageLength - (w.x + w.done) % d.pageLength)

/-- The bytes of the chunk at hand (rule R288). -/
def WriteRun.chunk (w : WriteRun) (d : Desc) (m : WriteMode) : List Byte := sub w.d w.done (w.len d m)

/-- The next chunk of `writeRange`, or the end of the command when all bytes are done (rules R288, R282, R283). -/
def nextChunk (r : Run) (b : Nat) (w : WriteRun) (s : State) : State :=
  if w.d.length ≤ w.done then finish .ok w.result s
  else match (s.prof b).writeMode with
    | .direct => stand r (.reset (.range w .directSel)) s
    | .staged =>
      if (s.prof b).eraseRequired then stand r (.reset (.range w .eraseSel)) s
      else stand r (.reset (.range w .writeSel)) s

/-- The chunk at hand has completed (rule R288). -/
def chunkDone (r : Run) (b : Nat) (w : WriteRun) (s : State) : State :=
  let n := w.len (s.desc b) (s.prof b).writeMode
  nextChunk r b { w with done := w.done + n } (commitPages b (w.x + w.done) n s)

/-- The raises of a chunk end the command with the bytes done before it (rule R288). -/
def chunkRaise (e : ErrCode) (w : WriteRun) (s : State) : State := raise e (count w.done) s

/-- A chunk's Timeout ends the command with the bytes done before it (rules R285, R288, R292). -/
def chunkTimeout (w : WriteRun) (s : State) : State := finish .timeout (count w.done) s

/-- A poll of the copy step of a chunk (rule R282, step 5). -/
def chunkPolled (r : Run) (b : Nat) (w : WriteRun) (v : Option Byte) (s : State) : State :=
  match v with
  | none => chunkTimeout w s
  | some _ => chunkDone r b w s

/-- The read-back check of a chunk (rule R282, step 3): the CRC, then TA and the first n data bytes. -/
def readBackOk (c : Config) (ta : Half) (chunk h t : List Byte) : Bool :=
  crcOk c (h ++ t) && headerTA h == ta && sub t 0 chunk.length == chunk

/-- The end of a direct chunk's frame (rule R283). -/
def directEnd (r : Run) (b : Nat) (w : WriteRun) (tx rx : List Byte) (s : State) : State :=
  if directOk (s.prof b) tx rx then chunkDone r b w s
  else chunkRaise .integrityError w (forceVerify b s)

/-- A memory-bank write from its first primitive on (rules R282, R283, R288). -/
def rangeGo (b : Nat) (r : Run) : Label → Ret → State → State
  | .range w .eraseSel, .selected found, s =>
    afterSelect b found (count w.done) s fun s =>
      stand r (.xfer (eraseFrame (s.prof b) (w.ta (s.desc b))) [] (.range w .eraseFrame)) s
  | .range w .eraseFrame, .received e, s =>
    let t := dropScratchpad s
    if !eraseOk (s.prof b) (e.getD 3 0) then chunkRaise .protocolError w t
    else if (s.prof b).pollAfterErase then startPoll r (.range w .erasePoll) (chunkTimeout w) t
    else stand r (.reset (.range w .writeSel)) t
  | .range w .erasePoll, .polled v, s =>
    match v with
    | none => chunkTimeout w s
    | some _ => stand r (.reset (.range w .writeSel)) s
  | .range w .writeSel, .selected found, s =>
    afterSelect b found (count w.done) s fun s =>
      stand r (.xfer (writeFrame (s.prof b) (w.ta (s.desc b)) (w.chunk (s.desc b) .staged)) []
        (.range w .writeFrame)) s
  | .range w .writeFrame, .received rx, s =>
    let t := { s with spValid := false, spTA := w.ta (s.desc b) }
    if completesWindow (w.ta (s.desc b)) (w.chunk (s.desc b) .staged).length && !crcOk s.cfg rx then
      chunkRaise .integrityError w (forceVerify b t)
    else stand r (.reset (.range w .readSel)) t
  | .range w .readSel, .selected found, s =>
    afterSelect b found (count w.done) s fun s =>
      stand r (.xfer (readHeaderFrame (s.prof b)) [] (.range w .readHeader)) s
  | .range w .readHeader, .received h, s =>
    stand r (.xfer (readDataFrame h) [] (.range w (.readData h))) s
  | .range w (.readData h), .received t, s =>
    if readBackOk s.cfg (w.ta (s.desc b)) (w.chunk (s.desc b) .staged) h t then
      stand r (.reset (.range w (.copySel (h.getD 3 0))))
        { s with spTA := w.ta (s.desc b), spES := h.getD 3 0, spValid := true }
    else chunkRaise .integrityError w (forceVerify b s)
  | .range w (.copySel es), .selected found, s =>
    afterSelect b found (count w.done) s fun s =>
      sendCopy r b (fun c => .range w (.copy c)) (copyFrame (s.prof b) (w.ta (s.desc b)) es [])
        (dropScratchpad s)
  | .range w (.copy c), ret, s => copyGo r b (fun c => .range w (.copy c)) (chunkPolled r b w) c ret s
  | .range w .directSel, .selected found, s =>
    afterSelect b found (count w.done) s fun s =>
      let tx := directFrame (s.prof b) (w.ta (s.desc b)) (w.chunk (s.desc b) .direct)
      sendFrame r tx (.range w (.directFrame tx)) (directEnd r b w tx []) s
  | .range w (.directFrame tx), .received rx, s => directEnd r b w tx rx s
  | _, _, s => s

/-- A Staged bank whose copy needs a host-computed MAC: MB_WRITE and MB_WRITE_PACKET are not supported
(rules R285, R292). -/
def needsMac (p : Prof) : Bool := p.writeMode == .staged && p.macCopy

/-- `writeRange(b, x, d)` from its first chunk, up to and through its first primitive (rule R288). Its first
primitive is the `BusReset` of the first chunk's first select. -/
def beginRange (r : Run) (b : Nat) (w : WriteRun) (s : State) : Result :=
  match (s.prof b).writeMode with
  | .direct => .next (advance r (rangeGo b r) (.reset (.range w .directSel)) s)
  | .staged =>
    if (s.prof b).eraseRequired then .next (advance r (rangeGo b r) (.reset (.range w .eraseSel)) s)
    else .next (advance r (rangeGo b r) (.reset (.range w .writeSel)) s)

/-- The checks of MB_WRITE and its first primitive (rule R285). -/
def mbWriteStart (b : Nat) (r : Run) (s : State) : Result :=
  bankChecked b s
    (if needsMac (s.prof b) then .next (raise .unsupportedOperation 0 s)
    else if (s.desc b).size < r.argA0 + r.argLen then .next (raise .rangeError 0 s)
    else if Config.bufSize < r.argOff + r.argLen then .next (raise .rangeError 0 s)
    else if r.argLen = 0 then .next (finish .ok 0 s)
    else if isProtected b r.argA0 r.argLen s then .next (raise .protectionError 0 s)
    else withRead r.argOff r.argLen s fun d =>
      beginRange r b { x := r.argA0, d := d, done := 0, result := count r.argLen } s)

/-- MB_WRITE (rule R285). -/
def execMbWrite (bank : Nat) (s : State) : Result :=
  runCommand (.mbWrite bank) (mbWriteStart bank) (rangeGo bank) s

/-! ## Packets -/

/-- A packet (rule R127): length byte, payload, and the inverted CRC16, low byte first. -/
def packetBytes (c : Config) (seed : Half) (q : List Byte) : List Byte :=
  let body := BitVec.ofNat 8 q.length :: q
  let crc := ~~~ crc16Fn c seed body
  body ++ [lo crc, hi crc]

/-- The end of MB_READ_PACKET (rule R290): `rx` the received frame. -/
def packetEnd (b : Nat) (r : Run) (rx : List Byte) (s : State) : State :=
  let g := sub rx 3 (s.desc b).pageLength
  let k := (g.getD 0 0).toNat
  let bad := raise .integrityError 0 (forceVerify b s)
  if (s.desc b).hasPageAutoCRC && !crcOk s.cfg rx then bad
  else if (s.desc b).maxPacketDataLength < k then bad
  else if !crc16Pass s.cfg (packetSeed s b r.argA0) (sub g 0 (k + 3)) then bad
  else finish .ok (count k) (memWrite r.argOff (sub g 1 k) s)

/-- The frame of MB_READ_PACKET (rule R290). -/
def packetFrame (p : Prof) (d : Desc) (page : Nat) : List Byte :=
  if d.hasPageAutoCRC then readPageFrame p d (pageTA d page)
  else readMemoryFrame p (pageTA d page) d.pageLength

/-- MB_READ_PACKET from its first primitive on (rule R290). -/
def mbReadPacketGo (b : Nat) (r : Run) : Label → Ret → State → State
  | .packet .sel, .selected found, s =>
    afterSelect b found 0 s fun s =>
      stand r (.xfer (packetFrame (s.prof b) (s.desc b) r.argA0) [] (.packet (.frame 3))) s
  | .packet (.frame _), .received rx, s => packetEnd b r rx s
  | _, _, s => s

/-- The checks of MB_READ_PACKET and its first primitive (rule R290). -/
def mbReadPacketStart (b : Nat) (r : Run) (s : State) : Result :=
  bankChecked b s
    (if (s.desc b).numberPages ≤ r.argA0 then .next (raise .rangeError 0 s)
    else if Config.bufSize < r.argOff + (s.desc b).maxPacketDataLength then .next (raise .rangeError 0 s)
    else .next (advance r (mbReadPacketGo b r) (.reset (.packet .sel)) s))

/-- MB_READ_PACKET (rule R290). -/
def execMbReadPacket (bank : Nat) (s : State) : Result :=
  runCommand (.mbReadPacket bank) (mbReadPacketStart bank) (mbReadPacketGo bank) s

/-- The checks of MB_WRITE_PACKET and its first primitive (rule R292). -/
def mbWritePacketStart (b : Nat) (r : Run) (s : State) : Result :=
  let x := r.argA0 * (s.desc b).pageLength
  bankChecked b s
    (if needsMac (s.prof b) then .next (raise .unsupportedOperation 0 s)
    else if (s.desc b).numberPages ≤ r.argA0 then .next (raise .rangeError 0 s)
    else if (s.desc b).maxPacketDataLength < r.argLen then .next (raise .rangeError 0 s)
    else if Config.bufSize < r.argOff + r.argLen then .next (raise .rangeError 0 s)
    else if isProtected b x (r.argLen + 3) s then .next (raise .protectionError 0 s)
    else withRead r.argOff r.argLen s fun q =>
      beginRange r b
        { x := x, d := packetBytes s.cfg (packetSeed s b r.argA0) q, done := 0, result := count r.argLen } s)

/-- MB_WRITE_PACKET (rule R292). -/
def execMbWritePacket (bank : Nat) (s : State) : Result :=
  runCommand (.mbWritePacket bank) (mbWritePacketStart bank) (rangeGo bank) s

/-! ## Speed verification and protection -/

/-- MB_CHECK_SPEED after its select (rule R295). -/
def mbCheckSpeedGo (b : Nat) (_ : Run) : Label → Ret → State → State
  | .check, .selected found, s => afterSelect b found 0 s (finish .ok 1)
  | _, _, s => s

/-- MB_CHECK_SPEED (rule R295). -/
def execMbCheckSpeed (bank : Nat) (s : State) : Result :=
  runCommand (.mbCheckSpeed bank)
    (fun r s => bankChecked bank s (.next (advance r (mbCheckSpeedGo bank r) (.reset .check) s)))
    (mbCheckSpeedGo bank) s

/-- MB_FORCE_VERIFY (rule R296). -/
def execMbForceVerify (bank : Nat) (s : State) : Result :=
  runCommand (.mbForceVerify bank)
    (fun _ s => bankChecked bank s (.next (finish .ok 0 (forceVerify bank s)))) noMore s

/-- MB_WRITE_PROTECT (rule R297). -/
def execMbWriteProtect (bank : Nat) (s : State) : Result :=
  runCommand (.mbWriteProtect bank)
    (fun _ s => bankChecked bank s
      (.next (finish .ok 0 (setBank bank (fun bs => { bs with readOnly := true }) s)))) noMore s

end Sys2Proof.Machine
end

