-- ==== Sys2Proof/Machine/Otp.lean ====
section
/-! DEFINITION. The OTP lock and redirect commands (file 45). -/

namespace Sys2Proof.Machine

/-- One OTP frame (rules R321, R322, R128): its kind and the page and argument given to `otpFrame`. -/
structure OtpStep where
  kind : OtpKind
  page : Half
  arg : Half
  deriving DecidableEq, Repr

/-- A page index as the u16 of `otpFrame` (rule R61); pages of a bank fit 16 bits by rule R10. -/
def pageHalf (p : Nat) : Half := BitVec.ofNat 16 p

/-- `otpDecode` of a received OTP frame, and `k` on its value; none is IntegrityError (rules R321, R322). -/
def otpDecoded (b : Nat) (kind : OtpKind) (rx : List Byte) (s : State) (k : Half → State → State) : State :=
  match otpDecode (s.prof b) kind rx with
  | none => raise .integrityError 0 (forceVerify b s)
  | some v => k v s

/-- An OTP flow from a primitive on: each frame `step a` is sent after its own select (rules R321, R322), and
`after a` takes the value decoded from its answer. -/
def otpGo (b : Nat) (step : OtpAt → OtpStep) (after : OtpAt → Half → State → State) (r : Run) :
    Label → Ret → State → State
  | .otpSel a, .selected found, s =>
    afterSelect b found 0 s fun s =>
      sendFrame r (otpFrame (s.prof b) (step a).kind (step a).page (step a).arg) (.otpFrame a)
        (fun s => otpDecoded b (step a).kind [] s (after a)) s
  | .otpFrame a, .received rx, s => otpDecoded b (step a).kind rx s (after a)
  | _, _, s => s

/-- The checks every OTP command makes, in order (rule R320), and then `k`. -/
def otpChecked (b : Nat) (kinds : List OtpKind) (r : Run) (s : State) (k : Result) : Result :=
  bankChecked b s
    (if kinds.all (otpSupported (s.prof b)) = false then .next (raise .unsupportedOperation 0 s)
    else if (s.desc b).numberPages ≤ r.argA0 then .next (raise .rangeError 0 s)
    else k)

/-- RESULT of a flag query: 1 when the flag is set (rules R324, R328). -/
def flagResult (v : Half) : Word := bit (v != 0) 0

/-! ## Page lock -/

/-- The frames of OTP_LOCK (rule R323). -/
def lockStep (r : Run) : OtpAt → OtpStep
  | .first => { kind := .lockRead, page := pageHalf r.argA0, arg := 0 }
  | .write => { kind := .lockWrite, page := pageHalf r.argA0, arg := 1 }
  | .verify => { kind := .lockRead, page := pageHalf r.argA0, arg := 0 }

/-- `bankState[b].pageLocked[p] <- true`. -/
def setPageLocked (b p : Nat) (s : State) : State :=
  setBank b (fun bs => { bs with pageLocked := insertPage p bs.pageLocked }) s

/-- OTP_LOCK after each of its frames (rule R323). -/
def lockAfter (b : Nat) (r : Run) : OtpAt → Half → State → State
  | .first, v, s =>
    if v ≠ 0 then finish .ok 1 (setPageLocked b r.argA0 s) else stand r (.reset (.otpSel .write)) s
  | .write, _, s => stand r (.reset (.otpSel .verify)) s
  | .verify, v, s =>
    if v = 0 then raise .verificationError 0 (forceVerify b s)
    else finish .ok 1 (setPageLocked b r.argA0 s)

/-- OTP_LOCK from its first primitive on (rule R323). -/
def otpLockGo (b : Nat) (r : Run) : Label → Ret → State → State := otpGo b (lockStep r) (lockAfter b r) r

/-- The checks of OTP_LOCK and its first primitive (rule R323). -/
def otpLockStart (b : Nat) (r : Run) (s : State) : Result :=
  otpChecked b [.lockWrite, .lockRead] r s
    (if (s.bankState b).readOnly then .next (raise .protectionError 0 s)
    else .next (advance r (otpLockGo b r) (.reset (.otpSel .first)) s))

/-- OTP_LOCK (rule R323). -/
def execOtpLock (bank : Nat) (s : State) : Result :=
  runCommand (.otpLock bank) (otpLockStart bank) (otpLockGo bank) s

/-- OTP_IS_LOCKED from its first primitive on (rule R324). -/
def otpIsLockedGo (b : Nat) (r : Run) : Label → Ret → State → State :=
  otpGo b (lockStep r) (fun _ v s => finish .ok (flagResult v) s) r

/-- OTP_IS_LOCKED (rule R324). -/
def execOtpIsLocked (bank : Nat) (s : State) : Result :=
  runCommand (.otpIsLocked bank)
    (fun r s => otpChecked bank [.lockRead] r s
      (.next (advance r (otpIsLockedGo bank r) (.reset (.otpSel .first)) s)))
    (otpIsLockedGo bank) s

/-! ## Page redirection -/

/-- The frames of OTP_REDIRECT and OTP_GET_REDIRECT (rules R325, R326). -/
def redirectStep (r : Run) : OtpAt → OtpStep
  | .first => { kind := .redirectRead, page := pageHalf r.argA0, arg := 0 }
  | .write => { kind := .redirectWrite, page := pageHalf r.argA0, arg := pageHalf r.argA2 }
  | .verify => { kind := .redirectRead, page := pageHalf r.argA0, arg := 0 }

/-- OTP_REDIRECT after each of its frames (rule R325); it makes no first read. -/
def redirectAfter (b : Nat) (r : Run) : OtpAt → Half → State → State
  | .first, _, s => s
  | .write, _, s => stand r (.reset (.otpSel .verify)) s
  | .verify, v, s =>
    if v ≠ pageHalf r.argA2 then raise .verificationError 0 (forceVerify b s)
    else finish .ok (count r.argA2) s

/-- OTP_REDIRECT from its first primitive on (rule R325). -/
def otpRedirectGo (b : Nat) (r : Run) : Label → Ret → State → State :=
  otpGo b (redirectStep r) (redirectAfter b r) r

/-- The checks of OTP_REDIRECT and its first primitive (rule R325). -/
def otpRedirectStart (b : Nat) (r : Run) (s : State) : Result :=
  otpChecked b [.redirectWrite, .redirectRead] r s
    (if (s.desc b).numberPages ≤ r.argA2 then .next (raise .rangeError 0 s)
    else if (s.bankState b).readOnly || (s.bankState b).redirectLocked.contains r.argA0 then
      .next (raise .protectionError 0 s)
    else .next (advance r (otpRedirectGo b r) (.reset (.otpSel .write)) s))

/-- OTP_REDIRECT (rule R325). -/
def execOtpRedirect (bank : Nat) (s : State) : Result :=
  runCommand (.otpRedirect bank) (otpRedirectStart bank) (otpRedirectGo bank) s

/-- OTP_GET_REDIRECT from its first primitive on (rule R326). -/
def otpGetRedirectGo (b : Nat) (r : Run) : Label → Ret → State → State :=
  otpGo b (redirectStep r) (fun _ v s => finish .ok (zext v) s) r

/-- OTP_GET_REDIRECT (rule R326). -/
def execOtpGetRedirect (bank : Nat) (s : State) : Result :=
  runCommand (.otpGetRedirect bank)
    (fun r s => otpChecked bank [.redirectRead] r s
      (.next (advance r (otpGetRedirectGo bank r) (.reset (.otpSel .first)) s)))
    (otpGetRedirectGo bank) s

/-! ## Redirect lock -/

/-- The frames of OTP_LOCK_REDIRECT and OTP_IS_REDIRECT_LOCKED (rules R327, R328). -/
def lockRedirectStep (r : Run) : OtpAt → OtpStep
  | .first => { kind := .redirectLockRead, page := pageHalf r.argA0, arg := 0 }
  | .write => { kind := .redirectLockWrite, page := pageHalf r.argA0, arg := 1 }
  | .verify => { kind := .redirectLockRead, page := pageHalf r.argA0, arg := 0 }

/-- `bankState[b].redirectLocked[p] <- true`. -/
def setRedirectLocked (b p : Nat) (s : State) : State :=
  setBank b (fun bs => { bs with redirectLocked := insertPage p bs.redirectLocked }) s

/-- OTP_LOCK_REDIRECT after each of its frames (rule R327). -/
def lockRedirectAfter (b : Nat) (r : Run) : OtpAt → Half → State → State
  | .first, v, s =>
    if v ≠ 0 then finish .ok 1 (setRedirectLocked b r.argA0 s) else stand r (.reset (.otpSel .write)) s
  | .write, _, s => stand r (.reset (.otpSel .verify)) s
  | .verify, v, s =>
    if v = 0 then raise .verificationError 0 (forceVerify b s)
    else finish .ok 1 (setRedirectLocked b r.argA0 s)

/-- OTP_LOCK_REDIRECT from its first primitive on (rule R327). -/
def otpLockRedirectGo (b : Nat) (r : Run) : Label → Ret → State → State :=
  otpGo b (lockRedirectStep r) (lockRedirectAfter b r) r

/-- The checks of OTP_LOCK_REDIRECT and its first primitive (rule R327). -/
def otpLockRedirectStart (b : Nat) (r : Run) (s : State) : Result :=
  otpChecked b [.redirectLockWrite, .redirectLockRead] r s
    (if (s.bankState b).readOnly then .next (raise .protectionError 0 s)
    else .next (advance r (otpLockRedirectGo b r) (.reset (.otpSel .first)) s))

/-- OTP_LOCK_REDIRECT (rule R327). -/
def execOtpLockRedirect (bank : Nat) (s : State) : Result :=
  runCommand (.otpLockRedirect bank) (otpLockRedirectStart bank) (otpLockRedirectGo bank) s

/-- OTP_IS_REDIRECT_LOCKED from its first primitive on (rule R328). -/
def otpIsRedirectLockedGo (b : Nat) (r : Run) : Label → Ret → State → State :=
  otpGo b (lockRedirectStep r) (fun _ v s => finish .ok (flagResult v) s) r

/-- OTP_IS_REDIRECT_LOCKED (rule R328). -/
def execOtpIsRedirectLocked (bank : Nat) (s : State) : Result :=
  runCommand (.otpIsRedirectLocked bank)
    (fun r s => otpChecked bank [.redirectLockRead] r s
      (.next (advance r (otpIsRedirectLockedGo bank r) (.reset (.otpSel .first)) s)))
    (otpIsRedirectLockedGo bank) s

end Sys2Proof.Machine
end

