-- ==== Sys2Proof/Machine/Dispatch.lean ====
section
/-! DEFINITION. One arm per command: each calls the meaning of that command, one controller step of it (rule R144). -/

namespace Sys2Proof.Machine

def exec (i : Instr) (s : State) : Host.Outcome State Fault Refusal :=
  match i with
  | .nop => Sys2Proof.Machine.execNop s
  | .reset => Sys2Proof.Machine.execReset s
  | .select => Sys2Proof.Machine.execSelect s
  | .putByte => Sys2Proof.Machine.execPutByte s
  | .getByte => Sys2Proof.Machine.execGetByte s
  | .dataBlock => Sys2Proof.Machine.execDataBlock s
  | .setSpeed => Sys2Proof.Machine.execSetSpeed s
  | .getSpeed => Sys2Proof.Machine.execGetSpeed s
  | .pwrSetDuration => Sys2Proof.Machine.execPwrSetDuration s
  | .pwrStart => Sys2Proof.Machine.execPwrStart s
  | .pwrNormal => Sys2Proof.Machine.execPwrNormal s
  | .crc8 => Sys2Proof.Machine.execCrc8 s
  | .crc16 => Sys2Proof.Machine.execCrc16 s
  | .spErase bank => Sys2Proof.Machine.execSpErase bank s
  | .spWrite bank => Sys2Proof.Machine.execSpWrite bank s
  | .spRead bank => Sys2Proof.Machine.execSpRead bank s
  | .spCopy bank => Sys2Proof.Machine.execSpCopy bank s
  | .spCopyMac bank => Sys2Proof.Machine.execSpCopyMac bank s
  | .poll => Sys2Proof.Machine.execPoll s
  | .mbRead bank rc => Sys2Proof.Machine.execMbRead bank rc s
  | .mbWrite bank => Sys2Proof.Machine.execMbWrite bank s
  | .mbReadPageCrc bank rc xi => Sys2Proof.Machine.execMbReadPageCrc bank rc xi s
  | .mbReadPacket bank => Sys2Proof.Machine.execMbReadPacket bank s
  | .mbWritePacket bank => Sys2Proof.Machine.execMbWritePacket bank s
  | .mbCheckSpeed bank => Sys2Proof.Machine.execMbCheckSpeed bank s
  | .mbForceVerify bank => Sys2Proof.Machine.execMbForceVerify bank s
  | .mbWriteProtect bank => Sys2Proof.Machine.execMbWriteProtect bank s
  | .otpLock bank => Sys2Proof.Machine.execOtpLock bank s
  | .otpIsLocked bank => Sys2Proof.Machine.execOtpIsLocked bank s
  | .otpRedirect bank => Sys2Proof.Machine.execOtpRedirect bank s
  | .otpGetRedirect bank => Sys2Proof.Machine.execOtpGetRedirect bank s
  | .otpLockRedirect bank => Sys2Proof.Machine.execOtpLockRedirect bank s
  | .otpIsRedirectLocked bank => Sys2Proof.Machine.execOtpIsRedirectLocked bank s

end Sys2Proof.Machine
end

