-- ==== Sys2Proof/Machine/HostPort.lean ====
section
/-! DEFINITION. The host port (rules R30, R81 to R84, R98 to R102, R142, R143) and the reset input (rules R380,
R381). -/

namespace Sys2Proof.Machine

/-- The DATA word at byte offset `off` of the buffer, none when one of its bytes is poison (rules R84, R87). -/
def dataWord (s : State) (off : Nat) : Option Word :=
  match s.data.read off 4 with
  | some [b0, b1, b2, b3] => some (wordOfBytes b0 b1 b2 b3)
  | _ => none

/-- The value a read of the register at byte offset `off` returns (rules R30, R83): CMD and reserved offsets read
0; none for a DATA word with a poison byte. `off` is a multiple of 4 below 0x200. -/
def readReg (s : State) (off : Nat) : Option Word :=
  match off with
  | 0x000 => some 0
  | 0x004 => some s.statusWord
  | 0x008 => some s.arg0
  | 0x00C => some s.arg1
  | 0x010 => some s.arg2
  | 0x014 => some s.result
  | 0x018 => some s.configWord
  | 0x01C => some s.spstateWord
  | 0x020 => some s.romid0
  | 0x024 => some s.romid1
  | 0x028 => some s.lockWord
  | 0x02C => some s.busstateWord
  | 0x030 => some s.bankroWord
  | n => if n < 0x100 then some 0 else dataWord s (n - 0x100)

/-- A write ignored because a command is in flight (rule R142). -/
def overrun (s : State) : State := { s with ovr := true }

/-- A write to CMD (rules R141 to R143). -/
def writeCmd (h : Nat) (w : Word) (s : State) : State :=
  if s.busy then overrun s
  else if s.owner = none ∨ s.owner = some h then accept h w s
  else { s with denied := true }

/-- A write to LOCK: acquire (rule R100) or release with the end of the session (rules R101, R154(c)). -/
def writeLock (h : Nat) (w : Word) (s : State) : State :=
  if s.busy then overrun s
  else if w.getLsbD 0 then
    match s.owner with
    | none => { s with owner := some h }
    | some _ => s
  else if s.owner = some h then dropSelection { s with owner := none }
  else s

/-- A write to a plain writable register or to DATA, `set` its effect (rules R83, R142). -/
def writePlain (set : State → State) (s : State) : State := if s.busy then overrun s else set s

/-- The writable fields of CONFIG (rule R36). -/
def setConfig (w : Word) (s : State) : State :=
  { s with resumeEn := w.getLsbD 0, pollLimit := w.extractLsb' 8 8 }

/-- The four bytes of a host word, lowest offset first (rule R84). -/
def wordBytes (w : Word) : List Byte :=
  [w.extractLsb' 0 8, w.extractLsb' 8 8, w.extractLsb' 16 8, w.extractLsb' 24 8]

/-- The effect of an accepted write of `w` at byte offset `off` by host `h` (rules R30, R83): read-only registers
and reserved offsets ignore it. `off` is a multiple of 4 below 0x200. -/
def writeReg (h off : Nat) (w : Word) (s : State) : State :=
  match off with
  | 0x000 => writeCmd h w s
  | 0x004 => s
  | 0x008 => writePlain (fun s => { s with arg0 := w }) s
  | 0x00C => writePlain (fun s => { s with arg1 := w }) s
  | 0x010 => writePlain (fun s => { s with arg2 := w }) s
  | 0x014 => s
  | 0x018 => writePlain (setConfig w) s
  | 0x01C => s
  | 0x020 => writePlain (fun s => { s with romid0 := w }) s
  | 0x024 => writePlain (fun s => { s with romid1 := w }) s
  | 0x028 => writeLock h w s
  | 0x02C => s
  | 0x030 => s
  | n => if n < 0x100 then s else writePlain (memWrite (n - 0x100) (wordBytes w)) s

/-- The port accepts only aligned 4-byte accesses below 0x200 (rule R82). -/
def Access.ok (a : Access) : Bool := a.size == .four && a.off % 4 == 0 && a.off < 0x200

/-- The access `a` has been answered with `resp` (rule R81). -/
def respond (a : Access) (resp : Response) (s : State) : State :=
  { s with portLog := s.portLog ++ [(a, resp)] }

/-- The `rdata` that answers an accepted write. The spec gives `rdata` for an accepted read (rule R83) and a rejected
access (rule R82) only: it is free, a new value for each access. DESIGN CHOICE (log entry 21). -/
def writeRdata (s : State) : Word := Config.freeRdata s.portLog.length

/-- One host access (rules R81 to R83); the answer to an accepted write carries `writeRdata`, log entry 21's choice. -/
def hostAccess (a : Access) (s : State) : Result :=
  if s.cfg.nhosts ≤ a.h then .refused .noSuchHost
  else if !a.ok then .next (respond a { rdata := 0, err := true } s)
  else if a.we then .next (respond a { rdata := writeRdata s, err := false } (writeReg a.h a.off a.wdata s))
  else match readReg s a.off with
    | some v => .next (respond a { rdata := v, err := false } s)
    | none => .fault .poisonRead

/-- The reset input (rules R380, R381): every register and all hidden state at its reset value, the configuration
kept; what the outside world has still to do, and the record of its accesses, are no state of OWC and stay. -/
def resetInput (s : State) : State :=
  { State.resetWith s.cfg with
    sched := s.sched, presences := s.presences, rxBytes := s.rxBytes, drawn := s.drawn, portLog := s.portLog }

/-- The controller has a step: a command is in flight and is not held at `PowerWait` (rules R140, R199). -/
def controllerEnabled (s : State) : Bool :=
  match s.seq with
  | .idle => false
  | .run r =>
    match r.pos with
    | .power _ => !s.pwrActive
    | _ => true

end Sys2Proof.Machine
end

