-- ==== Sys2Proof/Machine/Step.lean ====
section
/-! DEFINITION. One step of the whole: the step of the agent that the schedule names (rule R140). -/

namespace Sys2Proof.Machine

/-- The controller's step (rules R144, R147): the latched word is decoded; an illegal word raises IllegalCommand.
Where the controller has no step, nothing happens. -/
def controllerStep (s : State) : Result :=
  if controllerEnabled s then
    match s.seq with
    | .idle => .next s
    | .run r =>
      match decode r.word with
      | .ok i => exec i s
      | .error _ => .next (raise .illegalCommand 0 s)
  else .next s

/-- The step of an agent (rule R140) or of the reset input (rule R380). -/
def eventStep (e : Event) (s : State) : Result :=
  match e with
  | .host a => hostAccess a s
  | .controller => controllerStep s
  | .timer => .next (timerStep s)
  | .reset => .next (resetInput s)

/-- With nothing scheduled the outside world does nothing more, and an agent that has a step takes it: the
controller first, else the power timer (the weak fairness of rule R140); with no step left, nothing changes. -/
def unscheduledStep (s : State) : Result :=
  if controllerEnabled s then controllerStep s else .next (timerStep s)

/-- One step of OWC. A configuration that breaks rule R10 has no meaning. -/
def step (s : State) : Host.Outcome State Fault Refusal :=
  if s.cfg.wf then
    match s.sched with
    | [] => unscheduledStep s
    | e :: rest => eventStep e { s with sched := rest }
  else .refused .badConfiguration

/-- `s` with the command of the table word `w` of `nbits` bits as the command in flight, at its first step, and the
controller next: what an accepted write of the word to CMD by the owner, or by host 0, leaves (rule R141). There
is no fetch (rule R99); log entry 6 says how a command comes to run from reset. -/
def State.withFetchWord (s : State) (nbits w : Nat) : State :=
  { accept (s.owner.getD 0) (BitVec.ofNat 32 (w % 2 ^ nbits)) s with sched := .controller :: s.sched }

end Sys2Proof.Machine
end

