-- ==== Sys2Proof/Safety.lean ====
section
/-! DEFINITION. What counts as a sound state and a sound run of OWC, in the terms the statements use: the invariant
every step keeps, the traces of bus events, and runs of controller steps of one command. -/

namespace Sys2Proof.Machine

/-! ## Bus traces (rules R95, R198) -/

/-- One event of a trace, given whether the strong pull-up is on before it: a bus step and a start need it off, an
end needs it on (rule R198). Answers whether it is on after the event, none where the trace is not sound. -/
def pullupAfter (on : Bool) : BusEvent → Option Bool
  | .reset _ => if on then none else some false
  | .byte _ _ => if on then none else some false
  | .pullupStart _ => if on then none else some true
  | .pullupEnd => if on then some false else none

/-- Whether the strong pull-up is on after a trace, none where the trace has traffic during a pull-up, or a start or
an end out of turn. -/
def pullupTrace (h : List BusEvent) : Option Bool :=
  h.foldl (fun on e => on.bind fun on => pullupAfter on e) (some false)

/-- A `BusReset` or `BusByte` event: a bus step (rule R17). -/
def BusEvent.isBusStep : BusEvent → Bool
  | .reset _ => true
  | .byte _ _ => true
  | .pullupStart _ => false
  | .pullupEnd => false

/-- The number of bus steps in a trace. -/
def busSteps (h : List BusEvent) : Nat := h.countP BusEvent.isBusStep

/-- The optional named law `WiredAnd` of rule R93: a device only pulls bits low. No rule assumes it. -/
def WiredAnd (h : List BusEvent) : Prop :=
  ∀ tx rx, BusEvent.byte tx rx ∈ h → rx &&& ~~~ tx = 0

/-- The events of one `BusReset` from `s` (rule R149). -/
def resetEvents (s : State) : List BusEvent :=
  (if s.pwrActive then [.pullupEnd] else []) ++ [.reset s.nextPresence]

/-- The events of one `BusByte(tx)` from `s` (rule R149). -/
def byteEvents (tx : Byte) (s : State) : List BusEvent :=
  (if s.pwrActive then [.pullupEnd] else []) ++ [.byte tx s.nextByte]
    ++ (if s.pwrArmed then [.pullupStart s.pwrDur] else [])

/-! ## Runs of one command -/

/-- The command `r` is in flight and its first step comes next (rules R141, R144). -/
def starts (s : State) (r : Run) : Prop := s.seq = .run r ∧ r.pos = .start

/-- `n` controller steps of command `i`, with no step of another agent between them. -/
def controllerRun (i : Instr) : Nat → State → Result
  | 0, s => .next s
  | n + 1, s =>
    match exec i s with
    | .next t => controllerRun i n t
    | .fault f => .fault f
    | .refused x => .refused x

/-- The state after `BusByte` of each byte in order: the bus side of `Xfer` (rule R14). -/
def busBytes : List Byte → State → State
  | [], s => s
  | t :: rest, s => busBytes rest (busByte t s)

/-- The next `n` received bytes: what `Xfer` of `n` bytes returns (rules R14, R93). -/
def answers : Nat → State → List Byte
  | 0, _ => []
  | n + 1, s => s.nextByte :: answers n (byteTaken s)

/-- The state after a select sequence that finds a device (rule R150). -/
def selectedState (s : State) : State := noteSelected (busBytes (selectBytes s) (busReset s))

/-- The state after `selectFor(b)` that finds a device (rule R152). -/
def selectedFor (b : Nat) (s : State) : State := setVerified b true (selectedState s)

/-- The state after `selectFor(b)` that finds none, before its raise (rules R150, R152). -/
def missedFor (b : Nat) (s : State) : State := setVerified b false (dropSelection (busReset s))

/-- The number of controller steps of a select sequence that finds a device: the reset and its bytes. -/
def selectSteps (s : State) : Nat := 1 + (selectBytes s).length

/-! ## Where a command selects -/

/-- Where a chunk of a memory-bank write begins (rules R282, R283). -/
def chunkStart (p : Prof) : ChunkAt :=
  match p.writeMode with
  | .direct => .directSel
  | .staged => if p.eraseRequired then .eraseSel else .writeSel

/-- The command begins with a select: before its first step its operands are latched in `r`, they pass every check of the
command's rule, in state `s`, and its first primitive is the `BusReset` of a select (rule R144). `k` is where the command goes
on after that select, with what it has read from DATA. -/
def selectsFirst (i : Instr) (r : Run) (s : State) (k : Label) : Prop :=
  let page := r.a0.toNat
  let len := (r.a1.extractLsb' 0 16).toNat
  let off := (r.a1.extractLsb' 16 16).toNat
  let supports : Nat → OtpKind → Prop := fun b kind => kind ∈ (s.prof b).otpSupported
  (∀ b, i.bank? = some b → b < s.cfg.banks.length) ∧
  match i with
  | .nop => False
  | .reset => False
  | .select => k = .select
  | .putByte => False
  | .getByte => False
  | .dataBlock => False
  | .setSpeed => False
  | .getSpeed => False
  | .pwrSetDuration => False
  | .pwrStart => False
  | .pwrNormal => False
  | .crc8 => False
  | .crc16 => False
  | .spErase b =>
    (s.prof b).writeMode = .staged ∧ (s.prof b).eraseRequired = true ∧ r.a0.toNat < 0x10000 ∧ k = .erase .sel
  | .spWrite b =>
    let n := min len (32 - r.a0.toNat % 32)
    (s.prof b).writeMode = .staged ∧ r.a0.toNat < 0x10000 ∧ 0 < len ∧ off + n ≤ 256 ∧
      ∃ d, s.data.read off n = some d ∧ k = .write (.sel d)
  | .spRead b => (s.prof b).writeMode = .staged ∧ off + 32 ≤ 256 ∧ k = .read .sel
  | .spCopy b =>
    (s.prof b).writeMode = .staged ∧ (s.prof b).macCopy = false ∧ s.spValid = true ∧ k = .copy (.sel [])
  | .spCopyMac b =>
    (s.prof b).writeMode = .staged ∧ (s.prof b).macCopy = true ∧ off + 20 ≤ 256 ∧ s.spValid = true ∧
      ∃ mac, s.data.read off 20 = some mac ∧ k = .copyMac (.sel mac)
  | .poll => False
  | .mbRead b rc =>
    r.a0.toNat + len ≤ (s.desc b).size ∧ off + len ≤ 256 ∧ 0 < len ∧
      (rc = false ∨ (s.bankState b).verified = false) ∧ k = .mbRead .sel
  | .mbWrite b =>
    ((s.prof b).writeMode = .direct ∨ (s.prof b).macCopy = false) ∧ r.a0.toNat + len ≤ (s.desc b).size ∧
      off + len ≤ 256 ∧ 0 < len ∧ isProtected b r.a0.toNat len s = false ∧
      ∃ d, s.data.read off len = some d ∧
        k = .range { x := r.a0.toNat, d := d, done := 0, result := BitVec.ofNat 32 len } (chunkStart (s.prof b))
  | .mbReadPageCrc b rc xi =>
    (s.desc b).hasPageAutoCRC = true ∧ (xi = false ∨ (s.desc b).hasExtraInfo = true) ∧ page < (s.desc b).numberPages ∧
      off + (s.desc b).pageLength + (if xi && (s.desc b).hasExtraInfo then (s.desc b).extraInfoLength else 0) ≤ 256 ∧
      (rc = false ∨ (s.bankState b).verified = false) ∧ k = .pageCrc .sel
  | .mbReadPacket b =>
    page < (s.desc b).numberPages ∧ off + (s.desc b).maxPacketDataLength ≤ 256 ∧ k = .packet .sel
  | .mbWritePacket b =>
    let x := page * (s.desc b).pageLength
    ((s.prof b).writeMode = .direct ∨ (s.prof b).macCopy = false) ∧ page < (s.desc b).numberPages ∧
      len ≤ (s.desc b).maxPacketDataLength ∧ off + len ≤ 256 ∧ isProtected b x (len + 3) s = false ∧
      ∃ q, s.data.read off len = some q ∧
        k = .range { x := x, d := packetBytes s.cfg (packetSeed s b page) q, done := 0, result := BitVec.ofNat 32 len }
          (chunkStart (s.prof b))
  | .mbCheckSpeed _ => k = .check
  | .mbForceVerify _ => False
  | .mbWriteProtect _ => False
  | .otpLock b =>
    supports b .lockWrite ∧ supports b .lockRead ∧ page < (s.desc b).numberPages ∧
      (s.bankState b).readOnly = false ∧ k = .otpSel .first
  | .otpIsLocked b => supports b .lockRead ∧ page < (s.desc b).numberPages ∧ k = .otpSel .first
  | .otpRedirect b =>
    supports b .redirectWrite ∧ supports b .redirectRead ∧ page < (s.desc b).numberPages ∧
      r.a2.toNat < (s.desc b).numberPages ∧ (s.bankState b).readOnly = false ∧
      page ∉ (s.bankState b).redirectLocked ∧ k = .otpSel .write
  | .otpGetRedirect b => supports b .redirectRead ∧ page < (s.desc b).numberPages ∧ k = .otpSel .first
  | .otpLockRedirect b =>
    supports b .redirectLockWrite ∧ supports b .redirectLockRead ∧ page < (s.desc b).numberPages ∧
      (s.bankState b).readOnly = false ∧ k = .otpSel .first
  | .otpIsRedirectLocked b => supports b .redirectLockRead ∧ page < (s.desc b).numberPages ∧ k = .otpSel .first

/-- The next step of the command is the `BusReset` of a select (rule R150), after which it goes on at `k`: its first step,
when its checks pass, or a later one. -/
def selecting (i : Instr) (r : Run) (s : State) (k : Label) : Prop :=
  s.seq = .run r ∧
    ((r.pos = .start ∧ selectsFirst i r s k) ∨ (r.pos = .reset k ∧ standsAt i (.reset k) = true))

/-! ## The invariant -/

/-- A page set is strictly rising. -/
def risingPages : List Nat → Bool
  | [] => true
  | [_] => true
  | p :: q :: rest => p < q && risingPages (q :: rest)

/-- The page sets of a bank are in canonical form. -/
def BankState.wf (b : BankState) : Bool :=
  risingPages b.pageLocked && risingPages b.pageCommitted && risingPages b.redirectLocked

/-- A command in flight stands at a position of its own pseudocode: an illegal word only at its start (rule R147). -/
def placed (r : Run) : Prop :=
  match decode r.word with
  | .ok i => standsAt i r.pos = true
  | .error _ => r.pos = .start

/-- What every step keeps: the configuration has a meaning (rule R10), DATA and the page sets are in canonical form,
there is one `bankState` per bank (rule R48), the strong pull-up is on exactly when the bus trace says so and the trace
has no traffic during one (rules R195, R198), resume is armed exactly when a selection is tracked (rules R150, R154),
the owner is a host (rule R43), and while a command is in flight DONE and ERR are 0 (rule R32) and the command stands
at a position of its pseudocode. -/
structure Inv (s : State) : Prop where
  cfg_wf : s.cfg.wf = true
  data_wf : s.data.wf = true
  banks_len : s.banks.length = s.cfg.banks.length
  banks_wf : ∀ b ∈ s.banks, b.wf = true
  pullup : pullupTrace s.hist = some s.pwrActive
  resume : s.resumeArmed = s.lastSel.isSome
  owner_host : ∀ h, s.owner = some h → h < s.cfg.nhosts
  in_flight : ∀ r, s.seq = .run r → s.done = false ∧ s.err = .ok ∧ r.host < s.cfg.nhosts ∧ placed r

end Sys2Proof.Machine
end

