-- ==== Sys2Proof/Certificates/Slice0/Obligations.lean ====
section
/-! DEFINITION. The statements for the provers. A statement about one command says what its steps answer from the state in
which it starts (`starts s r`: the command is in flight, with the operands latched in `r`, before its first step), for every
configuration. `finish` and `raise` end a command (EndOfACommand); `busReset` and `busByte` are the two bus steps
(BusStepsAndTheStrongPullup), `busBytes tx s` the state after sending the bytes `tx`, `answers n s` the next `n` bytes the
oracle gives, `selectedFor b s` the state after a select for bank `b` that finds a device (SelectAddressesTheDevice);
`controllerRun i n s` is `n` controller steps of command `i`, none of another agent between them; `selecting i r s k` says
that the next of them is the reset of a select, whether it is the command's first, its checks passed, or a later one.
The `rdata` that answers an accepted write is free (log entry 21): a statement about a write holds for some `v` in its place.
Each next state is written out whole, so it is the command's frame as well: what it does not name is unchanged. -/

open Sys2Proof Sys2Proof.Machine

/-! ## Encoding -/

/-- R110, R111, R112: the encoder and the decoder agree on every well-formed command, as a word and as bytes. -/
def Obligations.DecodeUndoesEncode : Prop :=
  ∀ i : Instr, i.wf = true →
    decode (encode i) = .ok i ∧
    (∀ rest, decodeBytes (encodeBytes i ++ rest) = .ok (i, rest)) ∧
    decodeTableWord 32 (encode i).toNat = some i

/-- R112: one word of every family, written out from the opcode map; and words that are not commands. -/
def Obligations.OpcodeMapWords : Prop :=
  decode 0x00000000 = .ok .nop ∧ decode 0x00000002 = .ok .select ∧ decode 0x00000011 = .ok .crc16 ∧
  decode 0x00000F21 = .ok (.spWrite 15) ∧ decode 0x00001130 = .ok (.mbRead 1 true) ∧
  decode 0x00003232 = .ok (.mbReadPageCrc 2 true true) ∧ decode 0x00000042 = .ok (.otpRedirect 0) ∧
  decode 0x0000000B = .error (.unknownOpcode 0x0B) ∧ decode 0x00004000 = .error .reservedBits

/-- R117: which words are commands, and which bits of the word each field of the command is. A field that the command does
not read (rule R110) is no part of the decoded command. -/
def Obligations.DecodeReadsTheFields : Prop :=
  ∀ w : Word,
    ((∃ i, decode w = .ok i) ↔
      w.extractLsb' 14 18 = 0 ∧
        let op := (w.extractLsb' 0 8).toNat
        op ≤ 0x0A ∨ op = 0x10 ∨ op = 0x11 ∨ (0x20 ≤ op ∧ op ≤ 0x25) ∨ (0x30 ≤ op ∧ op ≤ 0x37) ∨
          (0x40 ≤ op ∧ op ≤ 0x45)) ∧
    ∀ i, decode w = .ok i →
      i.opcode = w.extractLsb' 0 8 ∧ w &&& 0xFFFFC0FF = i.opcode.setWidth 32 ∧
      (∀ b, i.bank? = some b → b = (w.extractLsb' 8 4).toNat) ∧
      (∀ b rc, i = .mbRead b rc → rc = w.getLsbD 12) ∧
      (∀ b rc xi, i = .mbReadPageCrc b rc xi → rc = w.getLsbD 12 ∧ xi = w.getLsbD 13)

/-! ## The step -/

/-- R144, R50: a step of the controller is `exec` of the command that the latched word decodes to. The schedule is the model's
own (log entry 3): the controller steps when it is next, or when nothing is scheduled. `withFetchWord` puts a word in flight so
that the very next step runs it. -/
def Obligations.StepRunsTheDecodedCommand : Prop :=
  (∀ (s : State) (rest : List Event) (r : Run) (i : Instr),
    s.cfg.wf = true → s.seq = .run r → decode r.word = .ok i →
    ((∃ k, r.pos = .power k) → s.pwrActive = false) →
    (s.sched = .controller :: rest → step s = exec i { s with sched := rest }) ∧
    (s.sched = [] → step s = exec i s)) ∧
  (∀ (s : State) (n w : Nat) (i : Instr), s.cfg.wf = true → decodeTableWord n w = some i →
    step (s.withFetchWord n w) = exec i (accept (s.owner.getD 0) (BitVec.ofNat 32 (w % 2 ^ n)) s))

/-- R147: the first step of an illegal word raises IllegalCommand and does nothing else. -/
def Obligations.IllegalWordEndsInItsFirstStep : Prop :=
  ∀ (s : State) (r : Run) (e : DecodeError) (rest : List Event),
    s.cfg.wf = true → starts s r → decode r.word = .error e → s.sched = .controller :: rest →
    step s = .next
      { s with sched := rest, result := 0, err := .illegalCommand, done := true, seq := .idle }

/-! ## The host port -/

/-- R82: which accesses are accepted; the others get an error and have no effect. -/
def Obligations.OnlyAlignedWordAccessesAreAccepted : Prop :=
  ∀ (a : Access) (s : State), a.h < s.cfg.nhosts →
    ((a.size ≠ .four ∨ a.off % 4 ≠ 0 ∨ 0x200 ≤ a.off) →
      hostAccess a s = .next { s with portLog := s.portLog ++ [(a, { rdata := 0, err := true })] }) ∧
    (a.size = .four → a.off % 4 = 0 → a.off < 0x200 →
      (∃ v t, hostAccess a s = .next t ∧ t.portLog = s.portLog ++ [(a, { rdata := v, err := false })]) ∨
      (0x100 ≤ a.off ∧ a.we = false ∧ hostAccess a s = .fault .poisonRead))

/-- R30, R83: what a read of each register below DATA returns; CMD and the reserved offsets read 0; nothing else changes. -/
def Obligations.ReadsReturnTheRegister : Prop :=
  ∀ (a : Access) (s : State), a.h < s.cfg.nhosts → a.size = .four → a.we = false → a.off % 4 = 0 →
    (∀ e ∈ [(0x000, 0), (0x004, s.statusWord), (0x008, s.arg0), (0x00C, s.arg1), (0x010, s.arg2), (0x014, s.result),
        (0x018, s.configWord), (0x01C, s.spstateWord), (0x020, s.romid0), (0x024, s.romid1), (0x028, s.lockWord),
        (0x02C, s.busstateWord), (0x030, s.bankroWord)], a.off = e.1 →
      hostAccess a s = .next { s with portLog := s.portLog ++ [(a, { rdata := e.2, err := false })] }) ∧
    (0x034 ≤ a.off → a.off < 0x100 →
      hostAccess a s = .next { s with portLog := s.portLog ++ [(a, { rdata := 0, err := false })] })

/-- R98: no read has a side effect, a read is idempotent, and only writes to CMD, LOCK and the plain writes have one.
An access with no effect, made again, is answered alike, but for the free `rdata` of an accepted write (log entry 21). -/
def Obligations.OnlyNamedWritesHaveSideEffects : Prop :=
  ∀ (a : Access) (s t : State), hostAccess a s = .next t →
    (a.we = false ∨
      ¬ (a.off ∈ [0x000, 0x008, 0x00C, 0x010, 0x018, 0x020, 0x024, 0x028] ∨ 0x100 ≤ a.off)) →
    ∃ resp again, t = { s with portLog := s.portLog ++ [(a, resp)] } ∧
      hostAccess a t = .next { t with portLog := t.portLog ++ [(a, again)] } ∧
      again.err = resp.err ∧ (a.we = false ∨ resp.err = true → again = resp)

/-- R32, R36, R37, R39, R40, R41, R42, R44, R45: the fields of STATUS, CONFIG, SPSTATE, LOCK, BUSSTATE and BANKRO, their
reserved bits, and the numbers of the error codes, speed modes and durations. -/
def Obligations.RegisterFields : Prop :=
  (∀ s : State,
    (s.statusWord.getLsbD 0 = decide (s.seq ≠ .idle) ∧ s.statusWord.getLsbD 1 = s.done ∧
      s.statusWord.getLsbD 2 = s.ovr ∧ s.statusWord.getLsbD 3 = s.denied ∧ s.statusWord.getLsbD 4 = s.presence ∧
      s.statusWord.getLsbD 5 = s.owner.isSome ∧ s.statusWord.extractLsb' 6 2 = 0 ∧
      s.statusWord.extractLsb' 8 4 = s.err.code ∧ s.statusWord.extractLsb' 12 4 = 0) ∧
    (s.configWord.getLsbD 0 = s.resumeEn ∧ s.configWord.extractLsb' 1 7 = 0 ∧
      s.configWord.extractLsb' 8 8 = s.pollLimit ∧ s.configWord.extractLsb' 16 16 = 0) ∧
    (s.spstateWord.extractLsb' 0 16 = s.spTA ∧ s.spstateWord.extractLsb' 16 8 = s.spES ∧
      s.spstateWord.getLsbD 24 = s.spValid ∧ s.spstateWord.extractLsb' 25 7 = 0) ∧
    (s.owner = none → s.lockWord = 0) ∧
    (∀ h, s.owner = some h → h < 16 → s.lockWord.getLsbD 0 = true ∧ s.lockWord.extractLsb' 1 7 = 0 ∧
      s.lockWord.extractLsb' 8 4 = BitVec.ofNat 4 h ∧ s.lockWord.extractLsb' 12 20 = 0) ∧
    (s.busstateWord.extractLsb' 0 2 = s.speed.code ∧ s.busstateWord.extractLsb' 2 3 = durationCode s.pdur ∧
      s.busstateWord.getLsbD 5 = s.pwrArmed ∧ s.busstateWord.getLsbD 6 = s.pwrActive ∧
      s.busstateWord.extractLsb' 7 3 = durationCode s.pwrDur ∧ s.busstateWord.getLsbD 10 = s.resumeArmed ∧
      s.busstateWord.getLsbD 11 = s.lastSel.isSome ∧ s.busstateWord.extractLsb' 12 20 = 0) ∧
    (s.banks.length ≤ 16 → ∀ b,
      (b < 16 → s.statusWord.getLsbD (16 + b) = (s.banks[b]?.map (·.verified)).getD false) ∧
      (b < 32 → s.bankroWord.getLsbD b = (s.banks[b]?.map (·.readOnly)).getD false))) ∧
  [ErrCode.ok, .deviceNotFound, .integrityError, .protocolError, .protectionError, .rangeError,
    .unsupportedOperation, .verificationError, .timeout, .illegalCommand].map (·.code.toNat) = List.range 10 ∧
  [Speed.regular, .flex, .overdrive, .hyperdrive].map (·.code.toNat) = List.range 4 ∧
  [Duration.halfSecond, .oneSecond, .twoSeconds, .fourSeconds, .smartDone, .infinite, .currentDetect,
    .eprom].map (fun d => (durationCode d).toNat) = List.range 8

/-- R83, R36, R38: an accepted write to a plain register while no command is in flight replaces its writable fields. -/
def Obligations.PlainWritesReplaceTheRegister : Prop :=
  ∀ (a : Access) (s : State), a.h < s.cfg.nhosts → a.size = .four → a.we = true → s.seq = .idle →
    let becomes : State → Prop := fun t =>
      ∃ v, hostAccess a s = .next { t with portLog := s.portLog ++ [(a, { rdata := v, err := false })] }
    (a.off = 0x008 → becomes { s with arg0 := a.wdata }) ∧
    (a.off = 0x00C → becomes { s with arg1 := a.wdata }) ∧
    (a.off = 0x010 → becomes { s with arg2 := a.wdata }) ∧
    (a.off = 0x018 → becomes { s with resumeEn := a.wdata.getLsbD 0, pollLimit := a.wdata.extractLsb' 8 8 }) ∧
    (a.off = 0x020 → becomes { s with romid0 := a.wdata }) ∧
    (a.off = 0x024 → becomes { s with romid1 := a.wdata })

/-- R84: a host word shows and writes the four DATA bytes at its offset, the lowest byte in bits [7:0]; a write gives exactly
those four bytes a value. -/
def Obligations.DataIsPackedLittleEndian : Prop :=
  ∀ (a : Access) (s : State) (k : Nat), a.h < s.cfg.nhosts → a.size = .four → k < 64 → a.off = 0x100 + 4 * k →
    (a.we = true → s.seq = .idle →
      ∃ t v, hostAccess a s = .next t ∧
        t = { s with data := t.data, portLog := s.portLog ++ [(a, { rdata := v, err := false })] } ∧
        (∀ j, j < 4 → t.data.get (4 * k + j) = some (a.wdata.extractLsb' (8 * j) 8)) ∧
        (∀ i, i < 4 * k ∨ 4 * k + 4 ≤ i → t.data.get i = s.data.get i)) ∧
    (a.we = false → ∀ w : Word, (∀ j, j < 4 → s.data.get (4 * k + j) = some (w.extractLsb' (8 * j) 8)) →
      hostAccess a s = .next { s with portLog := s.portLog ++ [(a, { rdata := w, err := false })] })

/-- R87: a host read of a word with a poison byte, and a command's read of DATA that covers one, stop the model; after reset
every byte is poison. Each command reads DATA after the checks named in its hypotheses. -/
def Obligations.PoisonReadsStop : Prop :=
  (∀ a, State.reset.data.get a = none) ∧
  (∀ (a : Access) (s : State) (k j : Nat), a.h < s.cfg.nhosts → a.size = .four → k < 64 → a.off = 0x100 + 4 * k →
    a.we = false → j < 4 → s.data.get (4 * k + j) = none → hostAccess a s = .fault .poisonRead) ∧
  (∀ (s : State) (r : Run) (b j : Nat), starts s r →
    let len := (r.a1.extractLsb' 0 16).toNat
    let off := (r.a1.extractLsb' 16 16).toNat
    let p := s.prof b
    s.data.get (off + j) = none →
    (j < len → off + len ≤ 256 →
      exec .dataBlock s = .fault .poisonRead ∧ exec .crc8 s = .fault .poisonRead ∧
      exec .crc16 s = .fault .poisonRead) ∧
    (b < s.cfg.banks.length → p.writeMode = .staged → r.a0.toNat < 0x10000 →
      j < min len (32 - r.a0.toNat % 32) → off + min len (32 - r.a0.toNat % 32) ≤ 256 →
      exec (.spWrite b) s = .fault .poisonRead) ∧
    (b < s.cfg.banks.length → p.writeMode = .staged → p.macCopy = true → s.spValid = true →
      j < 20 → off + 20 ≤ 256 → exec (.spCopyMac b) s = .fault .poisonRead) ∧
    (b < s.cfg.banks.length → (p.writeMode = .direct ∨ p.macCopy = false) → j < len → off + len ≤ 256 →
      (r.a0.toNat + len ≤ (s.desc b).size → isProtected b r.a0.toNat len s = false →
        exec (.mbWrite b) s = .fault .poisonRead) ∧
      (r.a0.toNat < (s.desc b).numberPages → len ≤ (s.desc b).maxPacketDataLength →
        isProtected b (r.a0.toNat * (s.desc b).pageLength) (len + 3) s = false →
        exec (.mbWritePacket b) s = .fault .poisonRead)))

/-- R141: an accepted write to CMD puts the command in flight with the argument registers and the host latched, and clears
DONE, OVR, DENIED and ERR; BUSY is 1; everything else is unchanged. -/
def Obligations.AcceptanceLatchesTheCommand : Prop :=
  ∀ (a : Access) (s : State), a.h < s.cfg.nhosts → a.size = .four → a.off = 0x000 → a.we = true →
    s.seq = .idle → (s.owner = none ∨ s.owner = some a.h) →
    ∃ t v, hostAccess a s = .next t ∧ t.busy = true ∧
      t = { s with
        seq := .run { word := a.wdata, a0 := s.arg0, a1 := s.arg1, a2 := s.arg2, host := a.h, pos := .start }
        done := false
        ovr := false
        denied := false
        err := .ok
        portLog := s.portLog ++ [(a, { rdata := v, err := false })] }

/-- R142: a write while a command is in flight is ignored and sets OVR, which only the next accepted command (or reset)
clears. -/
def Obligations.WritesWhileBusyOnlySetOverrun : Prop :=
  (∀ (a : Access) (s : State) (r : Run), a.h < s.cfg.nhosts → a.size = .four → a.we = true → s.seq = .run r →
    (a.off ∈ [0x000, 0x008, 0x00C, 0x010, 0x018, 0x020, 0x024, 0x028] ∨
      (0x100 ≤ a.off ∧ a.off < 0x200 ∧ a.off % 4 = 0)) →
    ∃ v, hostAccess a s = .next
      { s with ovr := true, portLog := s.portLog ++ [(a, { rdata := v, err := false })] }) ∧
  (∀ (e : Event) (s t : State), eventStep e s = .next t → s.ovr = true → t.ovr = false →
    e = .reset ∨ ∃ a r, e = .host a ∧ a.off = 0x000 ∧ a.we = true ∧ s.seq = .idle ∧ t.seq = .run r)

/-- R143: a write to CMD by a host that does not hold the held LOCK is ignored and sets DENIED, which only the next accepted
command (or reset) clears. -/
def Obligations.OtherHostsCommandIsDenied : Prop :=
  (∀ (a : Access) (s : State) (h : Nat), a.h < s.cfg.nhosts → a.size = .four → a.off = 0x000 → a.we = true →
    s.seq = .idle → s.owner = some h → h ≠ a.h →
    ∃ v, hostAccess a s = .next
      { s with denied := true, portLog := s.portLog ++ [(a, { rdata := v, err := false })] }) ∧
  (∀ (e : Event) (s t : State), eventStep e s = .next t → s.denied = true → t.denied = false →
    e = .reset ∨ ∃ a r, e = .host a ∧ a.off = 0x000 ∧ a.we = true ∧ s.seq = .idle ∧ t.seq = .run r)

/-- R100, R101, R154(c): acquiring and releasing LOCK; a release by the owner ends the session. -/
def Obligations.LockAcquireAndRelease : Prop :=
  ∀ (a : Access) (s : State), a.h < s.cfg.nhosts → a.size = .four → a.off = 0x028 → a.we = true →
    let becomes : State → Prop := fun t =>
      ∃ v, hostAccess a s = .next { t with portLog := s.portLog ++ [(a, { rdata := v, err := false })] }
    (s.seq = .idle → a.wdata.getLsbD 0 = true → s.owner = none →
      becomes { s with owner := some a.h }) ∧
    (s.seq = .idle → a.wdata.getLsbD 0 = true → s.owner ≠ none → becomes s) ∧
    (s.seq = .idle → a.wdata.getLsbD 0 = false → s.owner = some a.h →
      becomes { s with owner := none, lastSel := none, resumeArmed := false, spValid := false }) ∧
    (s.seq = .idle → a.wdata.getLsbD 0 = false → s.owner ≠ some a.h → becomes s) ∧
    (s.seq ≠ .idle → becomes { s with ovr := true })

/-- R158: no host access and no step of the timer ends or changes the command in flight; reset does. -/
def Obligations.CommandCannotBeCancelled : Prop :=
  ∀ (e : Event) (s t : State) (r : Run), s.seq = .run r → eventStep e s = .next t →
    (e ≠ .controller → e ≠ .reset → t.seq = .run r) ∧ (e = .reset → t.seq = .idle)

/-- R70, R380, R381: the reset input is taken in every state, a command in flight or not, and gives every piece of state its
reset value; the configuration is unchanged. The model's own fields (log entries 3 to 5) are no state of OWC and stay. -/
def Obligations.ResetRestoresEveryValue : Prop :=
  (∀ s : State, ∃ t, eventStep .reset s = .next t ∧
    t.arg0 = 0 ∧ t.arg1 = 0 ∧ t.arg2 = 0 ∧ t.result = 0 ∧ t.resumeEn = false ∧
    t.pollLimit = s.cfg.pollLimitReset ∧ t.romid0 = 0 ∧ t.romid1 = 0 ∧ t.done = false ∧ t.ovr = false ∧
    t.denied = false ∧ t.presence = false ∧ t.err = .ok ∧ t.speed = .regular ∧ t.pdur = .halfSecond ∧
    t.pwrArmed = false ∧ t.pwrActive = false ∧ t.pwrDur = .halfSecond ∧ t.lastSel = none ∧
    t.resumeArmed = false ∧ t.spValid = false ∧ t.spTA = 0 ∧ t.spES = 0 ∧ t.owner = none ∧
    t.banks.length = s.cfg.banks.length ∧
    (∀ (b : Nat) (bank : Bank), s.cfg.banks[b]? = some bank → t.banks[b]? = some
      { verified := false, readOnly := bank.desc.readOnly, pageLocked := [], pageCommitted := [],
        redirectLocked := [] }) ∧
    (∀ a, t.data.get a = none) ∧ t.seq = .idle ∧ t.hist = [] ∧ t.cfg = s.cfg ∧
    (t.sched, t.presences, t.rxBytes, t.drawn, t.portLog) = (s.sched, s.presences, s.rxBytes, s.drawn, s.portLog)) ∧
  State.reset.statusWord = 0 ∧ State.reset.configWord = 0x00001400 ∧ State.reset.busstateWord = 0

/-! ## Bus steps, the pull-up, and the end of a command -/

/-- R149: what the one step of a `BusReset` and of a `BusByte` does. The answers come from the oracle (rule R93). -/
def Obligations.BusStepsAndTheStrongPullup : Prop :=
  ∀ (s : State) (tx : Byte),
    let ended : List BusEvent := if s.pwrActive then [.pullupEnd] else []
    busReset s = { s with
      pwrActive := false
      pwrArmed := false
      presence := s.nextPresence
      hist := s.hist ++ (ended ++ [.reset s.nextPresence])
      presences := s.presences.tail
      drawn := (busReset s).drawn } ∧
    busByte tx s = { s with
      pwrActive := s.pwrArmed
      pwrArmed := false
      hist := s.hist ++ (ended ++ [.byte tx s.nextByte] ++ (if s.pwrArmed then [.pullupStart s.pwrDur] else []))
      rxBytes := s.rxBytes.tail
      drawn := (busByte tx s).drawn }

/-- R199: the power timer ends a finite pull-up in one step and has none otherwise; a command at `PowerWait` is held while
the pull-up is on. -/
def Obligations.PowerTimerEndsAFinitePullup : Prop :=
  ∀ s : State,
    (s.pwrActive = true → (durationCode s.pwrDur).toNat ≤ 4 →
      eventStep .timer s = .next { s with pwrActive := false, hist := s.hist ++ [.pullupEnd] }) ∧
    (s.pwrActive = false ∨ s.pwrDur = .infinite → eventStep .timer s = .next s) ∧
    (∀ r k, s.seq = .run r → r.pos = .power k → s.pwrActive = true → eventStep .controller s = .next s) ∧
    (∀ r k i, s.seq = .run r → r.pos = .power k → s.pwrActive = false → decode r.word = .ok i →
      standsAt i (.power k) = true → ∃ t, eventStep .controller s = .next t ∧ t.hist = s.hist)

/-- R145, R146: what `finish` and `raise` write; BUSY becomes 0 and nothing else changes. -/
def Obligations.EndOfACommand : Prop :=
  ∀ (c : ErrCode) (v : Word) (s : State),
    finish c v s = { s with result := v, err := c, done := true, seq := .idle } ∧
    raise c v s = { s with result := v, err := c, done := true, seq := .idle } ∧
    (finish c v s).busy = false ∧ (raise c v s).busy = false

/-- R14: `MemRead` gives the bytes of its range, and `MemWrite` gives exactly the bytes of its range a value. -/
def Obligations.MemReadAndMemWriteAreExact : Prop :=
  ∀ (s : State) (off : Nat) (d : List Byte), off + d.length ≤ 256 →
    (∀ j (h : j < d.length), (memWrite off d s).data.get (off + j) = some d[j]) ∧
    (∀ a, a < off ∨ off + d.length ≤ a → (memWrite off d s).data.get a = s.data.get a) ∧
    (memWrite off d s).data.read off d.length = some d ∧
    (s.data.read off d.length = some d ↔ ∀ j (h : j < d.length), s.data.get (off + j) = some d[j]) ∧
    memWrite off d s = { s with data := (memWrite off d s).data }

/-! ## The bus primitive commands -/

/-- R180, R182, R183, R154(b): the raw bus commands invalidate the selection and the read-back, make one bus step, and leave
its answer in RESULT. -/
def Obligations.RawBusCommandsMakeOneBusStep : Prop :=
  Instr.reset.opcode = 0x01 ∧ Instr.putByte.opcode = 0x03 ∧ Instr.getByte.opcode = 0x04 ∧
  ∀ (s : State) (r : Run), starts s r →
    let raw := { s with lastSel := none, resumeArmed := false, spValid := false }
    exec .reset s = .next (finish .ok (if s.nextPresence then 1 else 0) (busReset raw)) ∧
    exec .putByte s = .next (finish .ok (s.nextByte.setWidth 32) (busByte (r.a0.extractLsb' 0 8) raw)) ∧
    exec .getByte s = .next (finish .ok (s.nextByte.setWidth 32) (busByte 0xFF raw))

/-- R185, R192, R193: NOP ends at once with OK and 0; GET_SPEED returns the mode; SET_SPEED sets it and marks every bank
unverified, or raises RangeError. -/
def Obligations.NopAndSpeedCommands : Prop :=
  Instr.nop.opcode = 0x00 ∧ Instr.setSpeed.opcode = 0x06 ∧ Instr.getSpeed.opcode = 0x07 ∧
  ∀ (s : State) (r : Run), starts s r →
    exec .nop s = .next { s with result := 0, err := .ok, done := true, seq := .idle } ∧
    exec .getSpeed s = .next (finish .ok (s.speed.code.setWidth 32) s) ∧
    (∀ m : Speed, m.code.toNat = r.a0.toNat →
      exec .setSpeed s = .next (finish .ok 0
        { s with speed := m, banks := s.banks.map fun bs => { bs with verified := false } })) ∧
    (3 < r.a0.toNat → exec .setSpeed s = .next (raise .rangeError 0 s))

/-- R196, R197, R200: PWR_SET_DURATION sets PDUR to a code up to 5, refuses 6 and 7, and raises RangeError above; PWR_START
now and after the next byte, and its refused codes; PWR_NORMAL. -/
def Obligations.PowerCommands : Prop :=
  Instr.pwrSetDuration.opcode = 0x08 ∧ Instr.pwrStart.opcode = 0x09 ∧ Instr.pwrNormal.opcode = 0x0A ∧
  ∀ (s : State) (r : Run), starts s r →
    let ended : List BusEvent := if s.pwrActive then [.pullupEnd] else []
    (∀ d : Duration, (durationCode d).toNat = r.a0.toNat → r.a0.toNat ≤ 5 →
      exec .pwrSetDuration s = .next (finish .ok 0 { s with pdur := d })) ∧
    (r.a0.toNat = 6 ∨ r.a0.toNat = 7 →
      exec .pwrSetDuration s = .next (raise .unsupportedOperation 0 s)) ∧
    (7 < r.a0.toNat → exec .pwrSetDuration s = .next (raise .rangeError 0 s)) ∧
    (r.a0.toNat = 0 → exec .pwrStart s = .next (finish .ok 0
      { s with
        pwrArmed := false
        pwrActive := true
        pwrDur := s.pdur
        hist := s.hist ++ (ended ++ [.pullupStart s.pdur]) })) ∧
    (r.a0.toNat = 2 → exec .pwrStart s = .next (finish .ok 0 { s with pwrArmed := true, pwrDur := s.pdur })) ∧
    (r.a0.toNat = 1 → exec .pwrStart s = .next (raise .unsupportedOperation 0 s)) ∧
    (2 < r.a0.toNat → exec .pwrStart s = .next (raise .rangeError 0 s)) ∧
    exec .pwrNormal s = .next (finish .ok 0
      { s with pwrArmed := false, pwrActive := false, hist := s.hist ++ ended })

/-- R150, R151, R118, R38, R181: the select sequence, run by SELECT: the reset, then the resume byte exactly when its four
conditions hold, else the full address; the selection it leaves; and a select that finds no device. -/
def Obligations.SelectAddressesTheDevice : Prop :=
  Instr.select.opcode = 0x02 ∧
  ∀ (s : State) (r : Run), starts s r →
    let resume := s.resumeEn = true ∧ s.owner ≠ none ∧ s.resumeArmed = true ∧ s.lastSel = some s.romid
    let address : List Byte := (List.range 8).map fun i =>
      if i < 4 then s.romid0.extractLsb' (8 * i) 8 else s.romid1.extractLsb' (8 * (i - 4)) 8
    let found : List Byte → State := fun tx =>
      { busBytes tx (busReset s) with
        spValid := s.spValid && decide (s.lastSel = some s.romid)
        lastSel := some s.romid
        resumeArmed := true }
    (s.nextPresence = true → resume →
      controllerRun .select 2 s = .next (finish .ok 1 (found [s.cfg.resumeCmd]))) ∧
    (s.nextPresence = true → ¬ resume →
      controllerRun .select 10 s = .next (finish .ok 1 (found (s.cfg.matchRomCmd :: address)))) ∧
    (s.nextPresence = false →
      exec .select s = .next (finish .ok 0
        { busReset s with lastSel := none, resumeArmed := false, spValid := false })) ∧
    (s.nextPresence = true → selectedState s = found (selectBytes s) ∧ selectSteps s = 1 + (selectBytes s).length)

/-- R184: DATABLOCK sends the DATA bytes of its range and stores the received bytes over them. `busBytes` steps the strong
pull-up byte by byte (BusStepsAndTheStrongPullup). -/
def Obligations.DataBlockIsFullDuplex : Prop :=
  Instr.dataBlock.opcode = 0x05 ∧
  ∀ (s : State) (r : Run), starts s r →
    let len := (r.a1.extractLsb' 0 16).toNat
    let off := (r.a1.extractLsb' 16 16).toNat
    (256 < off + len → exec .dataBlock s = .next (raise .rangeError 0 s)) ∧
    (len = 0 → off ≤ 256 → exec .dataBlock s = .next (finish .ok 0 s)) ∧
    (0 < len → off + len ≤ 256 → s.data.read off len = none → exec .dataBlock s = .fault .poisonRead) ∧
    (∀ tx, 0 < len → off + len ≤ 256 → s.data.read off len = some tx →
      controllerRun .dataBlock len s = .next (finish .ok (BitVec.ofNat 32 len)
        (memWrite off (answers len s)
          (busBytes tx { s with lastSel := none, resumeArmed := false, spValid := false }))))

/-! ## CRC -/

/-- R225, R226: the CRC commands leave the residue and PASS in RESULT and change nothing else. -/
def Obligations.CrcCommandsLeaveTheResidue : Prop :=
  Instr.crc8.opcode = 0x10 ∧ Instr.crc16.opcode = 0x11 ∧
  ∀ (s : State) (r : Run), starts s r →
    let len := (r.a1.extractLsb' 0 16).toNat
    let off := (r.a1.extractLsb' 16 16).toNat
    (256 < off + len →
      exec .crc8 s = .next (raise .rangeError 0 s) ∧ exec .crc16 s = .next (raise .rangeError 0 s)) ∧
    (off + len ≤ 256 → s.data.read off len = none →
      exec .crc8 s = .fault .poisonRead ∧ exec .crc16 s = .fault .poisonRead) ∧
    (∀ d, off + len ≤ 256 → s.data.read off len = some d →
      let c8 := crc8Fn s.cfg 0 d
      let c16 := crc16Fn s.cfg (r.a2.extractLsb' 0 16) d
      exec .crc8 s = .next
        (finish .ok (c8.setWidth 32 ||| if c8 = 0 then 0x80000000 else 0) s) ∧
      exec .crc16 s = .next
        (finish .ok (c16.setWidth 32 ||| if c16 = 0xB001 then 0x80000000 else 0) s))

/-- R222, and the spec's own derivation in rule R223: a block with its check bytes passes, whatever the data and the seed; so
a packet (rule R127) passes its check. For the default CRC functions. -/
def Obligations.CheckedBlocksPass : Prop :=
  ∀ (d : List Byte) (seed : Half) (c : Config), c.crc16 = .standard →
    crc8Standard 0 (d ++ [crc8Standard 0 d]) = 0 ∧
    (let check := ~~~ crc16Standard seed d
     crc16Standard seed (d ++ [check.extractLsb' 0 8, check.extractLsb' 8 8]) = 0xB001) ∧
    crc16Fn c seed (packetBytes c seed d) = 0xB001

/-! ## The scratchpad commands -/

/-- R240, R241: POLL ends at the first byte that is not FF, or with Timeout after POLL_LIMIT bytes of FF. -/
def Obligations.PollIsBounded : Prop :=
  Instr.poll.opcode = 0x25 ∧
  ∀ (s : State) (r : Run), starts s r →
    (∀ n, n < s.pollLimit.toNat → answers n s = ffs n → (busBytes (ffs n) s).nextByte ≠ 0xFF →
      controllerRun .poll (n + 1) s = .next (finish .ok
        (1 ||| (busBytes (ffs n) s).nextByte.setWidth 32 <<< 8) (busBytes (ffs (n + 1)) s))) ∧
    (0 < s.pollLimit.toNat → answers s.pollLimit.toNat s = ffs s.pollLimit.toNat →
      controllerRun .poll s.pollLimit.toNat s =
        .next (finish .timeout 0 (busBytes (ffs s.pollLimit.toNat) s))) ∧
    (s.pollLimit = 0 → exec .poll s = .next (finish .timeout 0 s))

/-- R242, R125: SP_ERASE sends its frame and confirms the status byte; where the profile polls after an erase, the poll ends
it. -/
def Obligations.EraseConfirmsTheStatus : Prop :=
  ∀ (s : State) (r : Run) (b : Nat), starts s r → b < s.cfg.banks.length → s.nextPresence = true →
    let p := s.prof b
    p.writeMode = .staged → p.eraseRequired = true → r.a0.toNat < 0x10000 →
    let sel := selectedFor b s
    let status := (answers 4 sel).getD 3 0
    let sent := { busBytes [p.cmdEraseSP, r.a0.extractLsb' 0 8, r.a0.extractLsb' 8 8, 0xFF] sel with spValid := false }
    let n := selectSteps s + 4
    let v := status.setWidth 32
    (p.eraseOk = .topNibble →
      eraseOk p status = decide (status.extractLsb' 4 4 = 0xA ∨ status.extractLsb' 4 4 = 0x5)) ∧
    (eraseOk p status = false → controllerRun (.spErase b) n s = .next (raise .protocolError v sent)) ∧
    (eraseOk p status = true → p.pollAfterErase = false →
      controllerRun (.spErase b) n s = .next (finish .ok v sent)) ∧
    (eraseOk p status = true → p.pollAfterErase = true → s.pollLimit = 0 →
      controllerRun (.spErase b) n s = .next (finish .timeout v sent)) ∧
    (∀ m, eraseOk p status = true → p.pollAfterErase = true → m < s.pollLimit.toNat → answers m sent = ffs m →
      (busBytes (ffs m) sent).nextByte ≠ 0xFF →
      controllerRun (.spErase b) (n + (m + 1)) s = .next (finish .ok v (busBytes (ffs (m + 1)) sent))) ∧
    (eraseOk p status = true → p.pollAfterErase = true → 0 < s.pollLimit.toNat →
      answers s.pollLimit.toNat sent = ffs s.pollLimit.toNat →
      controllerRun (.spErase b) (n + s.pollLimit.toNat) s =
        .next (finish .timeout v (busBytes (ffs s.pollLimit.toNat) sent)))

/-- R243, R244, R121: SP_WRITE sends the payload up to the end of the 32-byte window, and checks the CRC exactly when the
payload completes the window. -/
def Obligations.WriteStagesOneWindow : Prop :=
  ∀ (s : State) (r : Run) (b : Nat) (d : List Byte), starts s r → b < s.cfg.banks.length → s.nextPresence = true →
    let p := s.prof b
    let len := (r.a1.extractLsb' 0 16).toNat
    let off := (r.a1.extractLsb' 16 16).toNat
    let n := min len (32 - r.a0.toNat % 32)
    p.writeMode = .staged → r.a0.toNat < 0x10000 → 0 < len → off + n ≤ 256 → s.data.read off n = some d →
    let full := r.a0.toNat % 32 + n = 32
    let tx : List Byte := [p.cmdWriteSP, r.a0.extractLsb' 0 8, r.a0.extractLsb' 8 8] ++ d ++
      (if full then [0xFF, 0xFF] else [])
    let sel := selectedFor b s
    let sent := { busBytes tx sel with spValid := false, spTA := r.a0.extractLsb' 0 16 }
    let v := BitVec.ofNat 32 n
    (¬ full ∨ crc16Fn s.cfg 0 (answers tx.length sel) = 0xB001 →
      controllerRun (.spWrite b) (selectSteps s + tx.length) s = .next (finish .ok v sent)) ∧
    (full → crc16Fn s.cfg 0 (answers tx.length sel) ≠ 0xB001 →
      controllerRun (.spWrite b) (selectSteps s + tx.length) s =
        .next (raise .integrityError v (setVerified b false sent)))

/-- R245, R246, R122: SP_READ reads back TA, ES and `32 - (TA1 mod 32)` bytes; a CRC failure is the result -1 and stores
nothing. -/
def Obligations.ReadBackReturnsTheRestOfTheWindow : Prop :=
  ∀ (s : State) (r : Run) (b : Nat), starts s r → b < s.cfg.banks.length → s.nextPresence = true →
    let p := s.prof b
    let off := (r.a1.extractLsb' 16 16).toNat
    p.writeMode = .staged → off + 32 ≤ 256 →
    let sel := selectedFor b s
    let h := answers 4 sel
    let m := 32 - (h.getD 1 0).toNat % 32
    let mid := busBytes [p.cmdReadSP, 0xFF, 0xFF, 0xFF] sel
    let t := answers (m + 2) mid
    let sent := busBytes (ffs (m + 2)) mid
    (crc16Fn s.cfg 0 (h ++ t) = 0xB001 →
      controllerRun (.spRead b) (selectSteps s + 4 + (m + 2)) s = .next (finish .ok (BitVec.ofNat 32 m)
        (memWrite off (t.take m)
          { sent with spTA := h.getD 2 0 ++ h.getD 1 0, spES := h.getD 3 0, spValid := true }))) ∧
    (crc16Fn s.cfg 0 (h ++ t) ≠ 0xB001 →
      controllerRun (.spRead b) (selectSteps s + 4 + (m + 2)) s = .next (finish .ok 0xFFFFFFFF
        (setVerified b false { sent with spValid := false })))

/-- R248, R123, R240: SP_COPY echoes the read-back and consumes it, then polls; it refuses a read-back of another device.
For a profile without strong pull-up (CopyPowersTheDevice says the other). -/
def Obligations.CopyEchoesTheReadBack : Prop :=
  ∀ (s : State) (r : Run) (b : Nat), starts s r → b < s.cfg.banks.length → s.nextPresence = true →
    let p := s.prof b
    p.writeMode = .staged → p.macCopy = false → s.spValid = true →
    let sel := selectedFor b s
    (s.lastSel ≠ some s.romid →
      controllerRun (.spCopy b) (selectSteps s) s = .next (raise .protocolError 0 sel)) ∧
    (s.lastSel = some s.romid → p.strongPullupOnCopy = false →
      let sent := busBytes [p.cmdCopySP, s.spTA.extractLsb' 0 8, s.spTA.extractLsb' 8 8, s.spES]
        { sel with spValid := false }
      let n := selectSteps s + 4
      (∀ m, m < s.pollLimit.toNat → answers m sent = ffs m → (busBytes (ffs m) sent).nextByte ≠ 0xFF →
        controllerRun (.spCopy b) (n + (m + 1)) s = .next (finish .ok
          (1 ||| (busBytes (ffs m) sent).nextByte.setWidth 32 <<< 8) (busBytes (ffs (m + 1)) sent))) ∧
      (0 < s.pollLimit.toNat → answers s.pollLimit.toNat sent = ffs s.pollLimit.toNat →
        controllerRun (.spCopy b) (n + s.pollLimit.toNat) s =
          .next (finish .timeout 0 (busBytes (ffs s.pollLimit.toNat) sent))) ∧
      (s.pollLimit = 0 → controllerRun (.spCopy b) n s = .next (finish .timeout 0 sent)))

/-- R249, R250, R124: SP_COPY_MAC appends the 20 bytes of the MAC, and its poll byte decides how it ends. For a profile
without strong pull-up. -/
def Obligations.MacCopyClassifiesTheStatus : Prop :=
  ∀ (s : State) (r : Run) (b : Nat) (mac : List Byte), starts s r → b < s.cfg.banks.length → s.nextPresence = true →
    let p := s.prof b
    let off := (r.a1.extractLsb' 16 16).toNat
    p.writeMode = .staged → p.macCopy = true → off + 20 ≤ 256 → s.spValid = true → s.data.read off 20 = some mac →
    let sel := selectedFor b s
    (s.lastSel ≠ some s.romid →
      controllerRun (.spCopyMac b) (selectSteps s) s = .next (raise .protocolError 0 sel)) ∧
    (s.lastSel = some s.romid → p.strongPullupOnCopy = false →
      let sent := busBytes ([p.cmdCopySP, s.spTA.extractLsb' 0 8, s.spTA.extractLsb' 8 8, s.spES] ++ mac)
        { sel with spValid := false }
      let n := selectSteps s + 24
      (∀ m, m < s.pollLimit.toNat → answers m sent = ffs m →
        let v := (busBytes (ffs m) sent).nextByte
        let polled := busBytes (ffs (m + 1)) sent
        (v = 0xAA ∨ v = 0x55 →
          controllerRun (.spCopyMac b) (n + (m + 1)) s = .next (finish .ok (1 ||| v.setWidth 32 <<< 8) polled)) ∧
        (v ≠ 0xAA → v ≠ 0x55 → v ≠ 0xFF →
          controllerRun (.spCopyMac b) (n + (m + 1)) s =
            .next (raise .protocolError (v.setWidth 32) (setVerified b false polled)))) ∧
      (0 < s.pollLimit.toNat → answers s.pollLimit.toNat sent = ffs s.pollLimit.toNat →
        controllerRun (.spCopyMac b) (n + s.pollLimit.toNat) s = .next
          (raise .protectionError 0xFF (setVerified b false (busBytes (ffs s.pollLimit.toNat) sent)))) ∧
      (s.pollLimit = 0 →
        controllerRun (.spCopyMac b) n s = .next (raise .protectionError 0xFF (setVerified b false sent))))

/-- R247, R199, R240: with strong pull-up, a copy arms it before the last byte of its frame and the pull-up is on after that
byte; the command is held while it is on, then polls, and with POLL_LIMIT 0 ends as a poll that saw nothing; and how the poll
ends. Said of SP_COPY, SP_COPY_MAC and the copy of a chunk of MB_WRITE and MB_WRITE_PACKET (rules R248, R250, R282). The
frame is `body` and `last`, `mk` the places of the copy in the command, `ended` the end for what the poll returns. -/
def Obligations.CopyPowersTheDevice : Prop :=
  ∀ (i : Instr) (s : State) (r : Run) (b : Nat) (k : Label) (mac body : List Byte) (last es : Byte) (ta : Half)
    (mk : CopyAt → Label) (ended : Option Byte → State → State),
    selecting i r s k → s.nextPresence = true → (s.prof b).strongPullupOnCopy = true →
    let p := s.prof b
    let readBack := s.spValid = true ∧ s.lastSel = some s.romid ∧ ta = s.spTA ∧ es = s.spES
    let ok : Byte → State → State := fun v t => finish .ok (1 ||| v.setWidth 32 <<< 8) t
    ((i = .spCopy b ∧ k = .copy (.sel mac) ∧ mac = [] ∧ readBack ∧ mk = (fun c => .copy (.send c)) ∧
        ended = fun v t => match v with
          | none => finish .timeout 0 t
          | some v => ok v t) ∨
      (i = .spCopyMac b ∧ k = .copyMac (.sel mac) ∧ readBack ∧ mk = (fun c => .copyMac (.send c)) ∧
        ended = fun v t => match v with
          | none => raise .protectionError 0xFF (setVerified b false t)
          | some v =>
            if v = 0xAA ∨ v = 0x55 then ok v t else raise .protocolError (v.setWidth 32) (setVerified b false t)) ∨
      ∃ w : WriteRun, (i = .mbWrite b ∨ i = .mbWritePacket b) ∧ p.writeMode = .staged ∧ k = .range w (.copySel es) ∧
        mac = [] ∧ ta = BitVec.ofNat 16 ((s.desc b).startPhysicalAddress + (w.x + w.done)) ∧
        mk = (fun c => .range w (.copy c)) ∧
        ended = fun v t => match v with
          | none => finish .timeout (BitVec.ofNat 32 w.done) t
          | some _ =>
            let n := min (w.d.length - w.done) (32 - ta.toNat % 32)
            let committed := commitPages b (w.x + w.done) n t
            if w.d.length ≤ w.done + n then finish .ok w.result committed
            else stand r (.reset (.range { w with done := w.done + n } (chunkStart p))) committed) →
    body ++ [last] = [p.cmdCopySP, ta.extractLsb' 0 8, ta.extractLsb' 8 8, es] ++ mac →
    let armed := { busBytes body { selectedFor b s with spValid := false } with
      pwrArmed := true, pwrDur := p.copyPowerDuration }
    let powered := busByte last armed
    powered.pwrActive = true ∧
    controllerRun i (selectSteps s + (body.length + 1)) s = .next (stand r (.power (mk .power)) powered) ∧
    (∀ t, t.seq = .run { r with pos := .power (mk .power) } →
      (t.pwrActive = true → exec i t = .next t) ∧
      (t.pwrActive = false → t.pollLimit ≠ 0 →
        exec i t = .next (stand r (.poll t.pollLimit.toNat (mk .poll)) t)) ∧
      (t.pwrActive = false → t.pollLimit = 0 → exec i t = .next (ended none t))) ∧
    (∀ t left, t.seq = .run { r with pos := .poll left (mk .poll) } → t.cfg = s.cfg →
      (t.nextByte ≠ 0xFF → exec i t = .next (ended (some t.nextByte) (busByte 0xFF t))) ∧
      (t.nextByte = 0xFF → left ≤ 1 → exec i t = .next (ended none (busByte 0xFF t))) ∧
      (t.nextByte = 0xFF → 1 < left → exec i t = .next (stand r (.poll (left - 1) (mk .poll)) (busByte 0xFF t))))

/-! ## The memory-bank commands -/

/-- R281, R119, R156, R89: MB_READ, with a select and the read-memory frame, or on from the last read. -/
def Obligations.MemoryReadStoresTheReceivedBytes : Prop :=
  ∀ (s : State) (r : Run) (b : Nat) (rc : Bool), starts s r → b < s.cfg.banks.length →
    let p := s.prof b
    let len := (r.a1.extractLsb' 0 16).toNat
    let off := (r.a1.extractLsb' 16 16).toNat
    r.a0.toNat + len ≤ (s.desc b).size → off + len ≤ 256 →
    let ta := BitVec.ofNat 16 ((s.desc b).startPhysicalAddress + r.a0.toNat)
    let v := BitVec.ofNat 32 len
    (len = 0 → exec (.mbRead b rc) s = .next (finish .ok 0 s)) ∧
    (0 < len → rc = true → (s.bankState b).verified = true →
      controllerRun (.mbRead b rc) len s =
        .next (finish .ok v (memWrite off (answers len s) (busBytes (ffs len) s)))) ∧
    (0 < len → (rc = false ∨ (s.bankState b).verified = false) → s.nextPresence = true →
      let sel := selectedFor b s
      let tx := [p.cmdReadMemory, ta.extractLsb' 0 8, ta.extractLsb' 8 8] ++ ffs len
      controllerRun (.mbRead b rc) (selectSteps s + tx.length) s =
        .next (finish .ok v (memWrite off (((answers tx.length sel).drop 3).take len) (busBytes tx sel))))

/-- R286, R120, R155: MB_READ_PAGE_CRC stores the page, and the extra info when XI asks for it, only from a frame whose CRC
passes. `rx` is the received frame and `base` where the page starts in it. -/
def Obligations.PageReadChecksTheCrc : Prop :=
  ∀ (s : State) (r : Run) (b : Nat) (rc xi : Bool), starts s r → b < s.cfg.banks.length →
    let p := s.prof b
    let d := s.desc b
    let off := (r.a1.extractLsb' 16 16).toNat
    let x := if d.hasExtraInfo then d.extraInfoLength else 0
    let xo := if xi then x else 0
    d.hasPageAutoCRC = true → (xi = false ∨ d.hasExtraInfo = true) → r.a0.toNat < d.numberPages →
    off + d.pageLength + xo ≤ 256 →
    let ta := BitVec.ofNat 16 (d.startPhysicalAddress + r.a0.toNat * d.pageLength)
    let ended : List Byte → Nat → State → State := fun rx base sent =>
      if crc16Fn s.cfg 0 rx = 0xB001 then
        finish .ok (BitVec.ofNat 32 (d.pageLength + xo)) (memWrite off ((rx.drop base).take (d.pageLength + xo)) sent)
      else raise .integrityError 0 (setVerified b false sent)
    (rc = true → (s.bankState b).verified = true →
      let tx := ffs (d.pageLength + x + 2)
      controllerRun (.mbReadPageCrc b rc xi) tx.length s = .next (ended (answers tx.length s) 0 (busBytes tx s))) ∧
    ((rc = false ∨ (s.bankState b).verified = false) → s.nextPresence = true →
      let sel := selectedFor b s
      let tx := [p.cmdReadPageCRC, ta.extractLsb' 0 8, ta.extractLsb' 8 8] ++ ffs (d.pageLength + x + 2)
      controllerRun (.mbReadPageCrc b rc xi) (selectSteps s + tx.length) s =
        .next (ended (answers tx.length sel) 3 (busBytes tx sel)))

/-- R290, R127: MB_READ_PACKET reads the page with the frame its descriptor asks for, and stores the payload of a packet that
passes every check. -/
def Obligations.PacketReadChecksThePacket : Prop :=
  ∀ (s : State) (r : Run) (b : Nat), starts s r → b < s.cfg.banks.length → s.nextPresence = true →
    let p := s.prof b
    let d := s.desc b
    let off := (r.a1.extractLsb' 16 16).toNat
    r.a0.toNat < d.numberPages → off + d.maxPacketDataLength ≤ 256 →
    let ta := BitVec.ofNat 16 (d.startPhysicalAddress + r.a0.toNat * d.pageLength)
    let x := if d.hasExtraInfo then d.extraInfoLength else 0
    let tx := if d.hasPageAutoCRC then
        [p.cmdReadPageCRC, ta.extractLsb' 0 8, ta.extractLsb' 8 8] ++ ffs (d.pageLength + x + 2)
      else [p.cmdReadMemory, ta.extractLsb' 0 8, ta.extractLsb' 8 8] ++ ffs d.pageLength
    let sel := selectedFor b s
    let rx := answers tx.length sel
    let g := (rx.drop 3).take d.pageLength
    let k := (g.getD 0 0).toNat
    let good := (d.hasPageAutoCRC = true → crc16Fn s.cfg 0 rx = 0xB001) ∧ k ≤ d.maxPacketDataLength ∧
      crc16Fn s.cfg (packetSeed s b r.a0.toNat) (g.take (k + 3)) = 0xB001
    (good → controllerRun (.mbReadPacket b) (selectSteps s + tx.length) s = .next
      (finish .ok (BitVec.ofNat 32 k) (memWrite off ((g.drop 1).take k) (busBytes tx sel)))) ∧
    (¬ good → controllerRun (.mbReadPacket b) (selectSteps s + tx.length) s = .next
      (raise .integrityError 0 (setVerified b false (busBytes tx sel))))

/-- R282, R285, R288, R292: a staged write that fits one 32-byte window, on a profile without erase and without strong
pull-up: write, read back and compare, copy, poll, each after its own select. Said of MB_WRITE (`x` its address, `d` its DATA
bytes) and of MB_WRITE_PACKET (`x` the page's address, `d` the packet). Then each step of the protocol of rule R282 up to the
copy, from its select on, of any chunk, with every end it can have: the erase and its poll, the write, the read-back. A failing
end is final: the copy frame is sent only from `copySel`. `w` holds the bytes of the range and how many are done. -/
def Obligations.StagedWriteRunsTheProtocol : Prop :=
  (∀ (s : State) (r : Run) (b x m : Nat) (q d : List Byte), starts s r → b < s.cfg.banks.length →
    let p := s.prof b
    let desc := s.desc b
    let len := (r.a1.extractLsb' 0 16).toNat
    let off := (r.a1.extractLsb' 16 16).toNat
    p.writeMode = .staged → p.macCopy = false → p.eraseRequired = false → p.strongPullupOnCopy = false →
    off + len ≤ 256 → s.data.read off len = some q → 0 < d.length → isProtected b x d.length s = false →
    let ta := BitVec.ofNat 16 (desc.startPhysicalAddress + x)
    ta.toNat % 32 + d.length ≤ 32 →
    let full := ta.toNat % 32 + d.length = 32
    let s1 := selectedFor b s
    let tx1 : List Byte := [p.cmdWriteSP, ta.extractLsb' 0 8, ta.extractLsb' 8 8] ++ d ++
      (if full then [0xFF, 0xFF] else [])
    let s2 := { busBytes tx1 s1 with spValid := false, spTA := ta }
    let s3 := selectedFor b s2
    let h := answers 4 s3
    let l := 32 - (h.getD 1 0).toNat % 32
    let s4 := busBytes [p.cmdReadSP, 0xFF, 0xFF, 0xFF] s3
    let t := answers (l + 2) s4
    let s5 := { busBytes (ffs (l + 2)) s4 with spTA := ta, spES := h.getD 3 0, spValid := true }
    let s6 := { selectedFor b s5 with spValid := false }
    let s7 := busBytes [p.cmdCopySP, ta.extractLsb' 0 8, ta.extractLsb' 8 8, h.getD 3 0] s6
    let s8 := busBytes (ffs (m + 1)) s7
    s.nextPresence = true → s2.nextPresence = true → s5.nextPresence = true →
    (full → crc16Fn s.cfg 0 (answers tx1.length s1) = 0xB001) →
    crc16Fn s.cfg 0 (h ++ t) = 0xB001 → h.getD 2 0 ++ h.getD 1 0 = ta → t.take d.length = d →
    m < s.pollLimit.toNat → answers m s7 = ffs m → (busBytes (ffs m) s7).nextByte ≠ 0xFF →
    let steps := (selectSteps s + tx1.length) + (selectSteps s2 + 4 + (l + 2)) + (selectSteps s5 + 4) + (m + 1)
    let ended := finish .ok (BitVec.ofNat 32 len) (commitPages b x d.length s8)
    (x = r.a0.toNat → d = q → r.a0.toNat + len ≤ desc.size →
      controllerRun (.mbWrite b) steps s = .next ended) ∧
    (x = r.a0.toNat * desc.pageLength → d = packetBytes s.cfg (packetSeed s b r.a0.toNat) q →
      r.a0.toNat < desc.numberPages → len ≤ desc.maxPacketDataLength →
      controllerRun (.mbWritePacket b) steps s = .next ended)) ∧
  ∀ (i : Instr) (s : State) (r : Run) (b : Nat) (w : WriteRun), (i = .mbWrite b ∨ i = .mbWritePacket b) →
    s.nextPresence = true →
    let p := s.prof b
    let ta := BitVec.ofNat 16 ((s.desc b).startPhysicalAddress + (w.x + w.done))
    let n := min (w.d.length - w.done) (32 - ta.toNat % 32)
    let c := (w.d.drop w.done).take n
    let sel := selectedFor b s
    let v := BitVec.ofNat 32 w.done
    let goesOn : ChunkAt → State → Result := fun a t => .next (stand r (.reset (.range w a)) t)
    (selecting i r s (.range w .eraseSel) →
      let status := (answers 4 sel).getD 3 0
      let sent := { busBytes [p.cmdEraseSP, ta.extractLsb' 0 8, ta.extractLsb' 8 8, 0xFF] sel with spValid := false }
      let steps := selectSteps s + 4
      (eraseOk p status = false → controllerRun i steps s = .next (raise .protocolError v sent)) ∧
      (eraseOk p status = true → p.pollAfterErase = false → controllerRun i steps s = goesOn .writeSel sent) ∧
      (eraseOk p status = true → p.pollAfterErase = true →
        (s.pollLimit = 0 → controllerRun i steps s = .next (finish .timeout v sent)) ∧
        (∀ m, m < s.pollLimit.toNat → answers m sent = ffs m → (busBytes (ffs m) sent).nextByte ≠ 0xFF →
          controllerRun i (steps + (m + 1)) s = goesOn .writeSel (busBytes (ffs (m + 1)) sent)) ∧
        (0 < s.pollLimit.toNat → answers s.pollLimit.toNat sent = ffs s.pollLimit.toNat →
          controllerRun i (steps + s.pollLimit.toNat) s =
            .next (finish .timeout v (busBytes (ffs s.pollLimit.toNat) sent))))) ∧
    (selecting i r s (.range w .writeSel) →
      let full := ta.toNat % 32 + n = 32
      let tx : List Byte := [p.cmdWriteSP, ta.extractLsb' 0 8, ta.extractLsb' 8 8] ++ c ++
        (if full then [0xFF, 0xFF] else [])
      let sent := { busBytes tx sel with spValid := false, spTA := ta }
      let steps := selectSteps s + tx.length
      let passes := crc16Fn s.cfg 0 (answers tx.length sel) = 0xB001
      (¬ full ∨ passes → controllerRun i steps s = goesOn .readSel sent) ∧
      (full → ¬ passes → controllerRun i steps s = .next (raise .integrityError v (setVerified b false sent)))) ∧
    (selecting i r s (.range w .readSel) →
      let h := answers 4 sel
      let l := 32 - (h.getD 1 0).toNat % 32
      let mid := busBytes [p.cmdReadSP, 0xFF, 0xFF, 0xFF] sel
      let t := answers (l + 2) mid
      let sent := busBytes (ffs (l + 2)) mid
      let steps := selectSteps s + 4 + (l + 2)
      let same := crc16Fn s.cfg 0 (h ++ t) = 0xB001 ∧ h.getD 2 0 ++ h.getD 1 0 = ta ∧ t.take n = c
      (same → controllerRun i steps s =
        goesOn (.copySel (h.getD 3 0)) { sent with spTA := ta, spES := h.getD 3 0, spValid := true }) ∧
      (¬ same → controllerRun i steps s = .next (raise .integrityError v (setVerified b false sent))))

/-- R283, R285, R288: a direct write inside one page sends the profile's frame after a select and takes the profile's check.
Said of MB_WRITE (`x`, `d` its address and DATA bytes) and of MB_WRITE_PACKET (the page's address and the packet). Then any
chunk of a direct write over any number of pages: it ends at the end of its page, and either ends the command, goes on to the
next chunk with its bytes counted, or ends the command with the bytes of the chunks before. -/
def Obligations.DirectWriteSendsTheProfilesFrame : Prop :=
  (∀ (s : State) (r : Run) (b x : Nat) (q d : List Byte), starts s r → b < s.cfg.banks.length → s.nextPresence = true →
    let p := s.prof b
    let desc := s.desc b
    let len := (r.a1.extractLsb' 0 16).toNat
    let off := (r.a1.extractLsb' 16 16).toNat
    p.writeMode = .direct → off + len ≤ 256 → s.data.read off len = some q → 0 < d.length →
    x % desc.pageLength + d.length ≤ desc.pageLength → isProtected b x d.length s = false →
    let sel := selectedFor b s
    let tx := directFrame p (BitVec.ofNat 16 (desc.startPhysicalAddress + x)) d
    let ended := if directOk p tx (answers tx.length sel) then
        finish .ok (BitVec.ofNat 32 len) (commitPages b x d.length (busBytes tx sel))
      else raise .integrityError 0 (setVerified b false (busBytes tx sel))
    (x = r.a0.toNat → d = q → r.a0.toNat + len ≤ desc.size →
      controllerRun (.mbWrite b) (selectSteps s + tx.length) s = .next ended) ∧
    (x = r.a0.toNat * desc.pageLength → d = packetBytes s.cfg (packetSeed s b r.a0.toNat) q →
      r.a0.toNat < desc.numberPages → len ≤ desc.maxPacketDataLength →
      controllerRun (.mbWritePacket b) (selectSteps s + tx.length) s = .next ended)) ∧
  ∀ (i : Instr) (s : State) (r : Run) (b : Nat) (w : WriteRun), (i = .mbWrite b ∨ i = .mbWritePacket b) →
    (s.prof b).writeMode = .direct → selecting i r s (.range w .directSel) → s.nextPresence = true →
    let desc := s.desc b
    let y := w.x + w.done
    let n := min (w.d.length - w.done) (desc.pageLength - y % desc.pageLength)
    let sel := selectedFor b s
    let tx := directFrame (s.prof b) (BitVec.ofNat 16 (desc.startPhysicalAddress + y)) ((w.d.drop w.done).take n)
    let sent := busBytes tx sel
    let accepted := directOk (s.prof b) tx (answers tx.length sel)
    let steps := selectSteps s + tx.length
    (accepted = true → w.d.length ≤ w.done + n →
      controllerRun i steps s = .next (finish .ok w.result (commitPages b y n sent))) ∧
    (accepted = true → w.done + n < w.d.length →
      controllerRun i steps s =
        .next (stand r (.reset (.range { w with done := w.done + n } .directSel)) (commitPages b y n sent))) ∧
    (accepted = false →
      controllerRun i steps s = .next (raise .integrityError (BitVec.ofNat 32 w.done) (setVerified b false sent)))

/-- R288, R282: the copy and the end of a staged chunk of MB_WRITE or MB_WRITE_PACKET. The poll after the copy ends it:
completed, it counts its bytes, records its pages on a write-once bank, and the command ends or goes on to the next chunk, up
to the end of the next window; a Timeout ends the command with the bytes of the chunks before. `n` is the chunk's length. The
copy without strong pull-up, from its select on, leads to that poll (CopyPowersTheDevice says the other); a direct chunk is in
DirectWriteSendsTheProfilesFrame. -/
def Obligations.ChunksAreCountedOneByOne : Prop :=
  (∀ (i : Instr) (s : State) (r : Run) (b : Nat) (w : WriteRun) (es : Byte), (i = .mbWrite b ∨ i = .mbWritePacket b) →
    selecting i r s (.range w (.copySel es)) → s.nextPresence = true → (s.prof b).strongPullupOnCopy = false →
    let ta := BitVec.ofNat 16 ((s.desc b).startPhysicalAddress + (w.x + w.done))
    let sent := busBytes [(s.prof b).cmdCopySP, ta.extractLsb' 0 8, ta.extractLsb' 8 8, es]
      { selectedFor b s with spValid := false }
    (s.pollLimit ≠ 0 → controllerRun i (selectSteps s + 4) s =
      .next (stand r (.poll s.pollLimit.toNat (.range w (.copy .poll))) sent)) ∧
    (s.pollLimit = 0 →
      controllerRun i (selectSteps s + 4) s = .next (finish .timeout (BitVec.ofNat 32 w.done) sent))) ∧
  ∀ (i : Instr) (s : State) (r : Run) (b left : Nat) (w : WriteRun), (i = .mbWrite b ∨ i = .mbWritePacket b) →
    s.seq = .run r → r.pos = .poll left (.range w (.copy .poll)) → (s.prof b).writeMode = .staged →
    let y := w.x + w.done
    let n := min (w.d.length - w.done)
      (32 - (BitVec.ofNat 16 ((s.desc b).startPhysicalAddress + y) : Half).toNat % 32)
    let polled := busByte 0xFF s
    let after := { w with done := w.done + n }
    (s.nextByte ≠ 0xFF → w.d.length ≤ w.done + n →
      exec i s = .next (finish .ok w.result (commitPages b y n polled))) ∧
    (s.nextByte ≠ 0xFF → w.done + n < w.d.length →
      exec i s = .next (stand r
        (.reset (.range after (if (s.prof b).eraseRequired then .eraseSel else .writeSel))) (commitPages b y n polled))) ∧
    (s.nextByte = 0xFF → left ≤ 1 → exec i s = .next (finish .timeout (BitVec.ofNat 32 w.done) polled)) ∧
    (s.nextByte = 0xFF → 1 < left → exec i s = .next (stand r (.poll (left - 1) (.range w (.copy .poll))) polled))

/-- R288, R284: what completing a chunk records: on a write-once bank exactly the touched pages become committed, and nothing
else of the state changes; on another bank nothing. -/
def Obligations.OnlyWriteOnceBanksRecordPages : Prop :=
  ∀ (s : State) (b x n : Nat), 0 < n → b < s.banks.length →
    ((s.desc b).writeOnce = false → commitPages b x n s = s) ∧
    ((s.desc b).writeOnce = true →
      let t := commitPages b x n s
      t = { s with banks := t.banks } ∧ t.banks.length = s.banks.length ∧
      (∀ c, c ≠ b → t.bankState c = s.bankState c) ∧
      t.bankState b = { s.bankState b with pageCommitted := (t.bankState b).pageCommitted } ∧
      ∀ q, q ∈ (t.bankState b).pageCommitted ↔
        q ∈ (s.bankState b).pageCommitted ∨
          (x / (s.desc b).pageLength ≤ q ∧ q ≤ (x + n - 1) / (s.desc b).pageLength))

/-- R295, R296, R297: MB_CHECK_SPEED is a select of the bank; MB_FORCE_VERIFY and MB_WRITE_PROTECT write one flag of the
bank. -/
def Obligations.BankStateCommands : Prop :=
  (∀ b, (Instr.mbCheckSpeed b).opcode = 0x35 ∧ (Instr.mbForceVerify b).opcode = 0x36 ∧
    (Instr.mbWriteProtect b).opcode = 0x37) ∧
  ∀ (s : State) (r : Run) (b : Nat), starts s r →
    (∀ i ∈ [Instr.mbCheckSpeed b, .mbForceVerify b, .mbWriteProtect b], s.cfg.banks.length ≤ b →
      exec i s = .next (raise .rangeError 0 s)) ∧
    (b < s.cfg.banks.length →
      (s.nextPresence = true →
        controllerRun (.mbCheckSpeed b) (selectSteps s) s = .next (finish .ok 1 (selectedFor b s))) ∧
      (s.nextPresence = false → exec (.mbCheckSpeed b) s = .next (raise .deviceNotFound 0 (missedFor b s))) ∧
      exec (.mbForceVerify b) s = .next (finish .ok 0
        { s with banks := s.banks.modify b fun bs => { bs with verified := false } }) ∧
      exec (.mbWriteProtect b) s = .next (finish .ok 0
        { s with banks := s.banks.modify b fun bs => { bs with readOnly := true } }))

/-! ## The OTP commands -/

/-- R321, R324, R326, R328: the flag queries send the profile's frame after a select and return what the profile decodes; they
record nothing. -/
def Obligations.OtpQueriesReturnTheFlag : Prop :=
  ∀ (s : State) (r : Run) (b : Nat), starts s r → b < s.cfg.banks.length → s.nextPresence = true →
    r.a0.toNat < (s.desc b).numberPages →
    let p := s.prof b
    let sel := selectedFor b s
    let frame : OtpKind → List Byte := fun k => otpFrame p k (BitVec.ofNat 16 r.a0.toNat) 0
    let steps : OtpKind → Nat := fun k => selectSteps s + (frame k).length
    let sent : OtpKind → State := fun k => busBytes (frame k) sel
    let value : OtpKind → Option Half := fun k => otpDecode p k (answers (frame k).length sel)
    let ended : OtpKind → (Half → Word) → State := fun k result =>
      match value k with
      | some v => finish .ok (result v) (sent k)
      | none => raise .integrityError 0 (setVerified b false (sent k))
    (p.otpSupported.contains .lockRead = true →
      controllerRun (.otpIsLocked b) (steps .lockRead) s =
        .next (ended .lockRead fun v => if v ≠ 0 then 1 else 0)) ∧
    (p.otpSupported.contains .redirectRead = true →
      controllerRun (.otpGetRedirect b) (steps .redirectRead) s =
        .next (ended .redirectRead fun v => v.setWidth 32)) ∧
    (p.otpSupported.contains .redirectLockRead = true →
      controllerRun (.otpIsRedirectLocked b) (steps .redirectLockRead) s =
        .next (ended .redirectLockRead fun v => if v ≠ 0 then 1 else 0))

/-- R321, R322, R323, R327: OTP_LOCK and OTP_LOCK_REDIRECT read the flag first; a flag already set is recorded and no write is
made; else the flag is written, read back, and recorded, or the read-back disagrees. `kr`, `kw` are the kinds of the read and
the write, `record` the record that is set. -/
def Obligations.OtpLocksAreReadBack : Prop :=
  ∀ (s : State) (r : Run) (b : Nat) (i : Instr) (kr kw : OtpKind) (record : State → State), starts s r →
    b < s.cfg.banks.length →
    let p := s.prof b
    let page := r.a0.toNat
    ((i = .otpLock b ∧ kr = .lockRead ∧ kw = .lockWrite ∧ record = setPageLocked b page) ∨
      (i = .otpLockRedirect b ∧ kr = .redirectLockRead ∧ kw = .redirectLockWrite ∧
        record = setRedirectLocked b page)) →
    p.otpSupported.contains kr = true → p.otpSupported.contains kw = true → page < (s.desc b).numberPages →
    (s.bankState b).readOnly = false → s.nextPresence = true →
    let rd := otpFrame p kr (BitVec.ofNat 16 page) 0
    let wr := otpFrame p kw (BitVec.ofNat 16 page) 1
    let s1 := busBytes rd (selectedFor b s)
    let s2 := busBytes wr (selectedFor b s1)
    let s3 := busBytes rd (selectedFor b s2)
    let n1 := selectSteps s + rd.length
    let n2 := n1 + (selectSteps s1 + wr.length)
    let n3 := n2 + (selectSteps s2 + rd.length)
    let v1 := otpDecode p kr (answers rd.length (selectedFor b s))
    let v2 := otpDecode p kw (answers wr.length (selectedFor b s1))
    let v3 := otpDecode p kr (answers rd.length (selectedFor b s2))
    (v1 = none → controllerRun i n1 s = .next (raise .integrityError 0 (setVerified b false s1))) ∧
    (∀ v, v1 = some v → v ≠ 0 → controllerRun i n1 s = .next (finish .ok 1 (record s1))) ∧
    (v1 = some 0 → s1.nextPresence = true → v2 = none →
      controllerRun i n2 s = .next (raise .integrityError 0 (setVerified b false s2))) ∧
    (v1 = some 0 → s1.nextPresence = true → v2 ≠ none → s2.nextPresence = true →
      (v3 = none → controllerRun i n3 s = .next (raise .integrityError 0 (setVerified b false s3))) ∧
      (v3 = some 0 → controllerRun i n3 s = .next (raise .verificationError 0 (setVerified b false s3))) ∧
      (∀ v, v3 = some v → v ≠ 0 → controllerRun i n3 s = .next (finish .ok 1 (record s3))))

/-- R325: OTP_REDIRECT writes the new page and reads it back. -/
def Obligations.OtpRedirectIsReadBack : Prop :=
  ∀ (s : State) (r : Run) (b : Nat), starts s r → b < s.cfg.banks.length →
    let p := s.prof b
    let page := r.a0.toNat
    let new := r.a2.toNat
    p.otpSupported.contains .redirectWrite = true → p.otpSupported.contains .redirectRead = true →
    page < (s.desc b).numberPages → new < (s.desc b).numberPages → (s.bankState b).readOnly = false →
    page ∉ (s.bankState b).redirectLocked → s.nextPresence = true →
    let wr := otpFrame p .redirectWrite (BitVec.ofNat 16 page) (BitVec.ofNat 16 new)
    let rd := otpFrame p .redirectRead (BitVec.ofNat 16 page) 0
    let s1 := busBytes wr (selectedFor b s)
    let s2 := busBytes rd (selectedFor b s1)
    let n1 := selectSteps s + wr.length
    let n2 := n1 + (selectSteps s1 + rd.length)
    let v1 := otpDecode p .redirectWrite (answers wr.length (selectedFor b s))
    let v2 := otpDecode p .redirectRead (answers rd.length (selectedFor b s1))
    (v1 = none →
      controllerRun (.otpRedirect b) n1 s = .next (raise .integrityError 0 (setVerified b false s1))) ∧
    (v1 ≠ none → s1.nextPresence = true →
      (v2 = none →
        controllerRun (.otpRedirect b) n2 s = .next (raise .integrityError 0 (setVerified b false s2))) ∧
      (v2 = some (BitVec.ofNat 16 new) →
        controllerRun (.otpRedirect b) n2 s = .next (finish .ok (BitVec.ofNat 32 new) s2)) ∧
      (∀ v, v2 = some v → v ≠ BitVec.ofNat 16 new →
        controllerRun (.otpRedirect b) n2 s = .next (raise .verificationError 0 (setVerified b false s2))))

/-! ## Checks and errors -/

/-- R148: a command that reads BANK first checks that the bank exists. -/
def Obligations.BankIsCheckedFirst : Prop :=
  ∀ (i : Instr) (s : State) (r : Run) (b : Nat), starts s r → i.bank? = some b → s.cfg.banks.length ≤ b →
    exec i s = .next (raise .rangeError 0 s)

/-- R152, R150, R288: a select for a bank that gets no presence ends the command with DeviceNotFound and leaves the bank
unverified, wherever in the command the select stands: its first step, its checks passed, or a later one. RESULT is 0, or the
bytes done of a memory-bank write (0 in its first chunk). -/
def Obligations.NoPresenceIsDeviceNotFound : Prop :=
  ∀ (i : Instr) (s : State) (r : Run) (b : Nat) (k : Label), selecting i r s k → i.bank? = some b →
    s.nextPresence = false →
    (∀ w a, k = .range w a →
      exec i s = .next (raise .deviceNotFound (BitVec.ofNat 32 w.done) (missedFor b s))) ∧
    ((∀ w a, k ≠ .range w a) → exec i s = .next (raise .deviceNotFound 0 (missedFor b s)))

/-- R242, R244, R246, R248, R250, R356: the checks of the scratchpad commands, in order; none makes a bus step or changes
anything but RESULT, ERR, DONE and the command in flight. -/
def Obligations.ScratchpadChecks : Prop :=
  ∀ (s : State) (r : Run) (b : Nat), starts s r → b < s.cfg.banks.length →
    let p := s.prof b
    let len := (r.a1.extractLsb' 0 16).toNat
    let off := (r.a1.extractLsb' 16 16).toNat
    let refused : ErrCode → Instr → Prop := fun e i => exec i s = .next (raise e 0 s)
    (p.writeMode = .direct ∨ p.eraseRequired = false → refused .unsupportedOperation (.spErase b)) ∧
    (p.writeMode = .staged → p.eraseRequired = true → 0x10000 ≤ r.a0.toNat → refused .rangeError (.spErase b)) ∧
    (p.writeMode = .direct → refused .unsupportedOperation (.spWrite b)) ∧
    (p.writeMode = .staged →
      (0x10000 ≤ r.a0.toNat ∨ len = 0 ∨ 256 < off + min len (32 - r.a0.toNat % 32)) →
      refused .rangeError (.spWrite b)) ∧
    (p.writeMode = .direct → refused .unsupportedOperation (.spRead b)) ∧
    (p.writeMode = .staged → 256 < off + 32 → refused .rangeError (.spRead b)) ∧
    (p.writeMode = .direct ∨ p.macCopy = true → refused .unsupportedOperation (.spCopy b)) ∧
    (p.writeMode = .staged → p.macCopy = false → s.spValid = false → refused .protocolError (.spCopy b)) ∧
    (p.writeMode = .direct ∨ p.macCopy = false → refused .unsupportedOperation (.spCopyMac b)) ∧
    (p.writeMode = .staged → p.macCopy = true → 256 < off + 20 → refused .rangeError (.spCopyMac b)) ∧
    (p.writeMode = .staged → p.macCopy = true → off + 20 ≤ 256 → s.spValid = false →
      refused .protocolError (.spCopyMac b))

/-- R280, R281, R285, R286, R290, R292: the checks of the memory-bank commands before protection, in order. -/
def Obligations.MemoryBankChecks : Prop :=
  ∀ (s : State) (r : Run) (b : Nat) (rc xi : Bool), starts s r → b < s.cfg.banks.length →
    let p := s.prof b
    let d := s.desc b
    let len := (r.a1.extractLsb' 0 16).toNat
    let off := (r.a1.extractLsb' 16 16).toNat
    let xo := if xi && d.hasExtraInfo then d.extraInfoLength else 0
    let refused : ErrCode → Instr → Prop := fun e i => exec i s = .next (raise e 0 s)
    (d.size < r.a0.toNat + len ∨ 256 < off + len → refused .rangeError (.mbRead b rc)) ∧
    (p.writeMode = .staged ∧ p.macCopy = true →
      refused .unsupportedOperation (.mbWrite b) ∧ refused .unsupportedOperation (.mbWritePacket b)) ∧
    (p.writeMode = .direct ∨ p.macCopy = false →
      (d.size < r.a0.toNat + len ∨ 256 < off + len → refused .rangeError (.mbWrite b)) ∧
      (d.numberPages ≤ r.a0.toNat ∨ d.maxPacketDataLength < len ∨ 256 < off + len →
        refused .rangeError (.mbWritePacket b)) ∧
      (len = 0 → r.a0.toNat ≤ d.size → off ≤ 256 → exec (.mbWrite b) s = .next (finish .ok 0 s))) ∧
    (d.hasPageAutoCRC = false ∨ (xi = true ∧ d.hasExtraInfo = false) →
      refused .unsupportedOperation (.mbReadPageCrc b rc xi)) ∧
    (d.hasPageAutoCRC = true → (xi = false ∨ d.hasExtraInfo = true) →
      (d.numberPages ≤ r.a0.toNat ∨ 256 < off + d.pageLength + xo) → refused .rangeError (.mbReadPageCrc b rc xi)) ∧
    (d.numberPages ≤ r.a0.toNat ∨ 256 < off + d.maxPacketDataLength → refused .rangeError (.mbReadPacket b))

/-- R284, R285, R292: a write that touches a page of a read-only bank, a locked page, or a committed page of a write-once bank
is refused with ProtectionError and no bus step, after the argument checks. -/
def Obligations.ProtectedPagesAreNotWritten : Prop :=
  ∀ (s : State) (r : Run) (b page : Nat), starts s r → b < s.cfg.banks.length →
    let p := s.prof b
    let d := s.desc b
    let len := (r.a1.extractLsb' 0 16).toNat
    let off := (r.a1.extractLsb' 16 16).toNat
    let first := r.a0.toNat * d.pageLength
    (p.writeMode = .direct ∨ p.macCopy = false) → off + len ≤ 256 →
    ((s.bankState b).readOnly = true ∨ page ∈ (s.bankState b).pageLocked ∨
      (d.writeOnce = true ∧ page ∈ (s.bankState b).pageCommitted)) →
    (0 < len → r.a0.toNat + len ≤ d.size →
      r.a0.toNat / d.pageLength ≤ page → page ≤ (r.a0.toNat + len - 1) / d.pageLength →
      exec (.mbWrite b) s = .next (raise .protectionError 0 s)) ∧
    (r.a0.toNat < d.numberPages → len ≤ d.maxPacketDataLength →
      first / d.pageLength ≤ page → page ≤ (first + (len + 3) - 1) / d.pageLength →
      exec (.mbWritePacket b) s = .next (raise .protectionError 0 s))

/-- R320, R323, R325, R327: the checks of the OTP commands, in order. `kinds` are the kinds the command's rule lists. -/
def Obligations.OtpChecks : Prop :=
  ∀ (s : State) (r : Run) (b : Nat), starts s r → b < s.cfg.banks.length →
    let p := s.prof b
    let d := s.desc b
    let bs := s.bankState b
    let page := r.a0.toNat
    let refused : ErrCode → Instr → Prop := fun e i => exec i s = .next (raise e 0 s)
    (∀ e ∈ [(Instr.otpLock b, [OtpKind.lockWrite, .lockRead]), (.otpIsLocked b, [.lockRead]),
        (.otpRedirect b, [.redirectWrite, .redirectRead]), (.otpGetRedirect b, [.redirectRead]),
        (.otpLockRedirect b, [.redirectLockWrite, .redirectLockRead]), (.otpIsRedirectLocked b, [.redirectLockRead])],
      ((∃ k ∈ e.2, k ∉ p.otpSupported) → refused .unsupportedOperation e.1) ∧
      ((∀ k ∈ e.2, k ∈ p.otpSupported) → d.numberPages ≤ page → refused .rangeError e.1)) ∧
    (page < d.numberPages →
      (OtpKind.lockWrite ∈ p.otpSupported → OtpKind.lockRead ∈ p.otpSupported → bs.readOnly = true →
        refused .protectionError (.otpLock b)) ∧
      (OtpKind.redirectLockWrite ∈ p.otpSupported → OtpKind.redirectLockRead ∈ p.otpSupported → bs.readOnly = true →
        refused .protectionError (.otpLockRedirect b)) ∧
      (OtpKind.redirectWrite ∈ p.otpSupported → OtpKind.redirectRead ∈ p.otpSupported →
        (d.numberPages ≤ r.a2.toNat → refused .rangeError (.otpRedirect b)) ∧
        (r.a2.toNat < d.numberPages → (bs.readOnly = true ∨ page ∈ bs.redirectLocked) →
          refused .protectionError (.otpRedirect b))))

/-! ## Every command -/

/-- R144, R87: every command, at every position of its own, answers a next state when every byte of DATA holds a value; and the
only other answer is the stop at a poison byte, in the first step of a command that reads DATA. -/
def Obligations.EveryCommandAnswersANextState : Prop :=
  ∀ (i : Instr) (s : State) (r : Run), s.seq = .run r → standsAt i r.pos = true →
    ((r.pos ≠ .start ∨ ∀ a, a < 256 → s.data.get a ≠ none) → ∃ t, exec i s = .next t) ∧
    ((∀ t, exec i s ≠ .next t) → exec i s = .fault .poisonRead ∧
      (i = .dataBlock ∨ i = .crc8 ∨ i = .crc16 ∨ (∃ b, i = .spWrite b) ∨ (∃ b, i = .spCopyMac b) ∨
        (∃ b, i = .mbWrite b) ∨ (∃ b, i = .mbWritePacket b)))

/-- R144, R17, R95: a controller step makes at most one bus step, and only appends to the trace. -/
def Obligations.OneBusStepPerControllerStep : Prop :=
  ∀ (i : Instr) (s t : State), exec i s = .next t →
    ∃ new, t.hist = s.hist ++ new ∧ busSteps new ≤ 1

/-- R88: DATA changes only in the step that ends the command with OK, and only by a command that stores received bytes;
SP_READ stores nothing when it ends with the result -1. -/
def Obligations.DataIsWrittenOnlyAtAnOkEnd : Prop :=
  ∀ (i : Instr) (s t : State), exec i s = .next t → t.data ≠ s.data →
    t.seq = .idle ∧ t.err = .ok ∧
    (i = .dataBlock ∨ (∃ b, i = .spRead b ∧ t.result ≠ 0xFFFFFFFF) ∨ (∃ b rc, i = .mbRead b rc) ∨
      (∃ b rc xi, i = .mbReadPageCrc b rc xi) ∨ (∃ b, i = .mbReadPacket b))

/-- R31, R34, R152, R193, R196, R323, R327, R297, R391: the frame of every command. What no command writes; which command
alone writes SPEED, PDUR and each record; and that a command writes the records of its own bank only. -/
def Obligations.CommandsWriteOnlyTheirState : Prop :=
  ∀ (i : Instr) (s t : State), exec i s = .next t →
    (t.arg0 = s.arg0 ∧ t.arg1 = s.arg1 ∧ t.arg2 = s.arg2 ∧ t.resumeEn = s.resumeEn ∧ t.pollLimit = s.pollLimit ∧
      t.romid0 = s.romid0 ∧ t.romid1 = s.romid1 ∧ t.ovr = s.ovr ∧ t.denied = s.denied ∧ t.owner = s.owner ∧
      t.cfg = s.cfg ∧ t.sched = s.sched ∧ t.portLog = s.portLog ∧ t.banks.length = s.banks.length) ∧
    (t.speed ≠ s.speed → i = .setSpeed) ∧
    (t.pdur ≠ s.pdur → i = .pwrSetDuration) ∧
    (∀ b, t.bankState b ≠ s.bankState b → i = .setSpeed ∨ i.bank? = some b) ∧
    (∀ b, (t.bankState b).readOnly ≠ (s.bankState b).readOnly → i = .mbWriteProtect b) ∧
    (∀ b, (t.bankState b).pageLocked ≠ (s.bankState b).pageLocked → i = .otpLock b) ∧
    (∀ b, (t.bankState b).redirectLocked ≠ (s.bankState b).redirectLocked → i = .otpLockRedirect b) ∧
    (∀ b, (t.bankState b).pageCommitted ≠ (s.bankState b).pageCommitted → i = .mbWrite b ∨ i = .mbWritePacket b)

/-- R41, R284, R392: protection is never lifted but by the reset input: a read-only bank stays read-only, and a locked,
committed or redirect-locked page stays so, over every other event. -/
def Obligations.ProtectionLastsUntilReset : Prop :=
  ∀ (e : Event) (s t : State) (b page : Nat), eventStep e s = .next t → e ≠ .reset → b < s.banks.length →
    ((s.bankState b).readOnly = true → (t.bankState b).readOnly = true) ∧
    (page ∈ (s.bankState b).pageLocked → page ∈ (t.bankState b).pageLocked) ∧
    (page ∈ (s.bankState b).pageCommitted → page ∈ (t.bankState b).pageCommitted) ∧
    (page ∈ (s.bankState b).redirectLocked → page ∈ (t.bankState b).redirectLocked)

/-! ## The invariant -/

/-- The invariant holds at reset, under every configuration that has a meaning (rules R10, R70). -/
def Obligations.InvariantHoldsAtReset : Prop :=
  ∀ c : Config, c.wf = true → Inv (State.resetWith c)

/-- Every step, of any agent and of the reset input, keeps the invariant. -/
def Obligations.EveryStepKeepsTheInvariant : Prop :=
  ∀ s s' : State, Inv s → step s = .next s' → Inv s'
end

