-- ==== Sys2Proof/Laws/State.lean ====
section
/-! SUPPORT. The small lemmas of State: for each named update, every field it sets (`_sets`) and every field it keeps
(`_keeps`), so that no later proof unfolds a record update. Each conjunct is a simp lemma of its own. -/

namespace Sys2Proof.Machine

@[simp] theorem accept_sets (h : Nat) (w : Word) (s : State) :
    (accept h w s).seq = .run { word := w, a0 := s.arg0, a1 := s.arg1, a2 := s.arg2, host := h, pos := .start } ∧
    (accept h w s).done = false ∧ (accept h w s).ovr = false ∧ (accept h w s).denied = false ∧
    (accept h w s).err = .ok :=
  ⟨rfl, rfl, rfl, rfl, rfl⟩

@[simp] theorem accept_keeps (h : Nat) (w : Word) (s : State) :
    (accept h w s).arg0 = s.arg0 ∧ (accept h w s).arg1 = s.arg1 ∧ (accept h w s).arg2 = s.arg2 ∧
    (accept h w s).result = s.result ∧ (accept h w s).resumeEn = s.resumeEn ∧
    (accept h w s).pollLimit = s.pollLimit ∧ (accept h w s).romid0 = s.romid0 ∧
    (accept h w s).romid1 = s.romid1 ∧ (accept h w s).presence = s.presence ∧ (accept h w s).speed = s.speed ∧
    (accept h w s).pdur = s.pdur ∧ (accept h w s).pwrArmed = s.pwrArmed ∧
    (accept h w s).pwrActive = s.pwrActive ∧ (accept h w s).pwrDur = s.pwrDur ∧
    (accept h w s).lastSel = s.lastSel ∧ (accept h w s).resumeArmed = s.resumeArmed ∧
    (accept h w s).spValid = s.spValid ∧ (accept h w s).spTA = s.spTA ∧ (accept h w s).spES = s.spES ∧
    (accept h w s).owner = s.owner ∧ (accept h w s).banks = s.banks ∧ (accept h w s).data = s.data ∧
    (accept h w s).hist = s.hist ∧ (accept h w s).cfg = s.cfg ∧ (accept h w s).sched = s.sched ∧
    (accept h w s).presences = s.presences ∧ (accept h w s).rxBytes = s.rxBytes ∧
    (accept h w s).drawn = s.drawn ∧ (accept h w s).portLog = s.portLog :=
  ⟨rfl, rfl, rfl, rfl, rfl, rfl, rfl, rfl, rfl, rfl, rfl, rfl, rfl, rfl, rfl, rfl, rfl, rfl, rfl, rfl, rfl, rfl, rfl, rfl, rfl, rfl, rfl, rfl, rfl⟩

@[simp] theorem finish_sets (c : ErrCode) (v : Word) (s : State) :
    (finish c v s).result = v ∧ (finish c v s).err = c ∧ (finish c v s).done = true ∧ (finish c v s).seq = .idle :=
  ⟨rfl, rfl, rfl, rfl⟩

@[simp] theorem finish_keeps (c : ErrCode) (v : Word) (s : State) :
    (finish c v s).arg0 = s.arg0 ∧ (finish c v s).arg1 = s.arg1 ∧ (finish c v s).arg2 = s.arg2 ∧
    (finish c v s).resumeEn = s.resumeEn ∧ (finish c v s).pollLimit = s.pollLimit ∧
    (finish c v s).romid0 = s.romid0 ∧ (finish c v s).romid1 = s.romid1 ∧ (finish c v s).ovr = s.ovr ∧
    (finish c v s).denied = s.denied ∧ (finish c v s).presence = s.presence ∧ (finish c v s).speed = s.speed ∧
    (finish c v s).pdur = s.pdur ∧ (finish c v s).pwrArmed = s.pwrArmed ∧
    (finish c v s).pwrActive = s.pwrActive ∧ (finish c v s).pwrDur = s.pwrDur ∧
    (finish c v s).lastSel = s.lastSel ∧ (finish c v s).resumeArmed = s.resumeArmed ∧
    (finish c v s).spValid = s.spValid ∧ (finish c v s).spTA = s.spTA ∧ (finish c v s).spES = s.spES ∧
    (finish c v s).owner = s.owner ∧ (finish c v s).banks = s.banks ∧ (finish c v s).data = s.data ∧
    (finish c v s).hist = s.hist ∧ (finish c v s).cfg = s.cfg ∧ (finish c v s).sched = s.sched ∧
    (finish c v s).presences = s.presences ∧ (finish c v s).rxBytes = s.rxBytes ∧
    (finish c v s).drawn = s.drawn ∧ (finish c v s).portLog = s.portLog :=
  ⟨rfl, rfl, rfl, rfl, rfl, rfl, rfl, rfl, rfl, rfl, rfl, rfl, rfl, rfl, rfl, rfl, rfl, rfl, rfl, rfl, rfl, rfl, rfl, rfl, rfl, rfl, rfl, rfl, rfl, rfl⟩

@[simp] theorem raise_sets (e : ErrCode) (v : Word) (s : State) :
    (raise e v s).result = v ∧ (raise e v s).err = e ∧ (raise e v s).done = true ∧ (raise e v s).seq = .idle :=
  ⟨rfl, rfl, rfl, rfl⟩

@[simp] theorem raise_keeps (e : ErrCode) (v : Word) (s : State) :
    (raise e v s).arg0 = s.arg0 ∧ (raise e v s).arg1 = s.arg1 ∧ (raise e v s).arg2 = s.arg2 ∧
    (raise e v s).resumeEn = s.resumeEn ∧ (raise e v s).pollLimit = s.pollLimit ∧
    (raise e v s).romid0 = s.romid0 ∧ (raise e v s).romid1 = s.romid1 ∧ (raise e v s).ovr = s.ovr ∧
    (raise e v s).denied = s.denied ∧ (raise e v s).presence = s.presence ∧ (raise e v s).speed = s.speed ∧
    (raise e v s).pdur = s.pdur ∧ (raise e v s).pwrArmed = s.pwrArmed ∧ (raise e v s).pwrActive = s.pwrActive ∧
    (raise e v s).pwrDur = s.pwrDur ∧ (raise e v s).lastSel = s.lastSel ∧
    (raise e v s).resumeArmed = s.resumeArmed ∧ (raise e v s).spValid = s.spValid ∧
    (raise e v s).spTA = s.spTA ∧ (raise e v s).spES = s.spES ∧ (raise e v s).owner = s.owner ∧
    (raise e v s).banks = s.banks ∧ (raise e v s).data = s.data ∧ (raise e v s).hist = s.hist ∧
    (raise e v s).cfg = s.cfg ∧ (raise e v s).sched = s.sched ∧ (raise e v s).presences = s.presences ∧
    (raise e v s).rxBytes = s.rxBytes ∧ (raise e v s).drawn = s.drawn ∧ (raise e v s).portLog = s.portLog :=
  ⟨rfl, rfl, rfl, rfl, rfl, rfl, rfl, rfl, rfl, rfl, rfl, rfl, rfl, rfl, rfl, rfl, rfl, rfl, rfl, rfl, rfl, rfl, rfl, rfl, rfl, rfl, rfl, rfl, rfl, rfl⟩

@[simp] theorem stand_sets (r : Run) (p : Pos) (s : State) :
    (stand r p s).seq = .run { r with pos := p } := rfl

@[simp] theorem stand_keeps (r : Run) (p : Pos) (s : State) :
    (stand r p s).arg0 = s.arg0 ∧ (stand r p s).arg1 = s.arg1 ∧ (stand r p s).arg2 = s.arg2 ∧
    (stand r p s).result = s.result ∧ (stand r p s).resumeEn = s.resumeEn ∧
    (stand r p s).pollLimit = s.pollLimit ∧ (stand r p s).romid0 = s.romid0 ∧ (stand r p s).romid1 = s.romid1 ∧
    (stand r p s).done = s.done ∧ (stand r p s).ovr = s.ovr ∧ (stand r p s).denied = s.denied ∧
    (stand r p s).presence = s.presence ∧ (stand r p s).err = s.err ∧ (stand r p s).speed = s.speed ∧
    (stand r p s).pdur = s.pdur ∧ (stand r p s).pwrArmed = s.pwrArmed ∧ (stand r p s).pwrActive = s.pwrActive ∧
    (stand r p s).pwrDur = s.pwrDur ∧ (stand r p s).lastSel = s.lastSel ∧
    (stand r p s).resumeArmed = s.resumeArmed ∧ (stand r p s).spValid = s.spValid ∧
    (stand r p s).spTA = s.spTA ∧ (stand r p s).spES = s.spES ∧ (stand r p s).owner = s.owner ∧
    (stand r p s).banks = s.banks ∧ (stand r p s).data = s.data ∧ (stand r p s).hist = s.hist ∧
    (stand r p s).cfg = s.cfg ∧ (stand r p s).sched = s.sched ∧ (stand r p s).presences = s.presences ∧
    (stand r p s).rxBytes = s.rxBytes ∧ (stand r p s).drawn = s.drawn ∧ (stand r p s).portLog = s.portLog :=
  ⟨rfl, rfl, rfl, rfl, rfl, rfl, rfl, rfl, rfl, rfl, rfl, rfl, rfl, rfl, rfl, rfl, rfl, rfl, rfl, rfl, rfl, rfl, rfl, rfl, rfl, rfl, rfl, rfl, rfl, rfl, rfl, rfl, rfl⟩

@[simp] theorem memWrite_sets (off : Nat) (d : List Byte) (s : State) :
    (memWrite off d s).data = s.data.write off d := rfl

@[simp] theorem memWrite_keeps (off : Nat) (d : List Byte) (s : State) :
    (memWrite off d s).arg0 = s.arg0 ∧ (memWrite off d s).arg1 = s.arg1 ∧ (memWrite off d s).arg2 = s.arg2 ∧
    (memWrite off d s).result = s.result ∧ (memWrite off d s).resumeEn = s.resumeEn ∧
    (memWrite off d s).pollLimit = s.pollLimit ∧ (memWrite off d s).romid0 = s.romid0 ∧
    (memWrite off d s).romid1 = s.romid1 ∧ (memWrite off d s).done = s.done ∧ (memWrite off d s).ovr = s.ovr ∧
    (memWrite off d s).denied = s.denied ∧ (memWrite off d s).presence = s.presence ∧
    (memWrite off d s).err = s.err ∧ (memWrite off d s).speed = s.speed ∧ (memWrite off d s).pdur = s.pdur ∧
    (memWrite off d s).pwrArmed = s.pwrArmed ∧ (memWrite off d s).pwrActive = s.pwrActive ∧
    (memWrite off d s).pwrDur = s.pwrDur ∧ (memWrite off d s).lastSel = s.lastSel ∧
    (memWrite off d s).resumeArmed = s.resumeArmed ∧ (memWrite off d s).spValid = s.spValid ∧
    (memWrite off d s).spTA = s.spTA ∧ (memWrite off d s).spES = s.spES ∧ (memWrite off d s).owner = s.owner ∧
    (memWrite off d s).banks = s.banks ∧ (memWrite off d s).seq = s.seq ∧ (memWrite off d s).hist = s.hist ∧
    (memWrite off d s).cfg = s.cfg ∧ (memWrite off d s).sched = s.sched ∧
    (memWrite off d s).presences = s.presences ∧ (memWrite off d s).rxBytes = s.rxBytes ∧
    (memWrite off d s).drawn = s.drawn ∧ (memWrite off d s).portLog = s.portLog :=
  ⟨rfl, rfl, rfl, rfl, rfl, rfl, rfl, rfl, rfl, rfl, rfl, rfl, rfl, rfl, rfl, rfl, rfl, rfl, rfl, rfl, rfl, rfl, rfl, rfl, rfl, rfl, rfl, rfl, rfl, rfl, rfl, rfl, rfl⟩

@[simp] theorem presenceTaken_sets (s : State) :
    (presenceTaken s).presences = s.presences.tail ∧
    (presenceTaken s).drawn = (if s.presences.isEmpty then s.drawn + 1 else s.drawn) :=
  ⟨rfl, rfl⟩

@[simp] theorem presenceTaken_keeps (s : State) :
    (presenceTaken s).arg0 = s.arg0 ∧ (presenceTaken s).arg1 = s.arg1 ∧ (presenceTaken s).arg2 = s.arg2 ∧
    (presenceTaken s).result = s.result ∧ (presenceTaken s).resumeEn = s.resumeEn ∧
    (presenceTaken s).pollLimit = s.pollLimit ∧ (presenceTaken s).romid0 = s.romid0 ∧
    (presenceTaken s).romid1 = s.romid1 ∧ (presenceTaken s).done = s.done ∧ (presenceTaken s).ovr = s.ovr ∧
    (presenceTaken s).denied = s.denied ∧ (presenceTaken s).presence = s.presence ∧
    (presenceTaken s).err = s.err ∧ (presenceTaken s).speed = s.speed ∧ (presenceTaken s).pdur = s.pdur ∧
    (presenceTaken s).pwrArmed = s.pwrArmed ∧ (presenceTaken s).pwrActive = s.pwrActive ∧
    (presenceTaken s).pwrDur = s.pwrDur ∧ (presenceTaken s).lastSel = s.lastSel ∧
    (presenceTaken s).resumeArmed = s.resumeArmed ∧ (presenceTaken s).spValid = s.spValid ∧
    (presenceTaken s).spTA = s.spTA ∧ (presenceTaken s).spES = s.spES ∧ (presenceTaken s).owner = s.owner ∧
    (presenceTaken s).banks = s.banks ∧ (presenceTaken s).data = s.data ∧ (presenceTaken s).seq = s.seq ∧
    (presenceTaken s).hist = s.hist ∧ (presenceTaken s).cfg = s.cfg ∧ (presenceTaken s).sched = s.sched ∧
    (presenceTaken s).rxBytes = s.rxBytes ∧ (presenceTaken s).portLog = s.portLog :=
  ⟨rfl, rfl, rfl, rfl, rfl, rfl, rfl, rfl, rfl, rfl, rfl, rfl, rfl, rfl, rfl, rfl, rfl, rfl, rfl, rfl, rfl, rfl, rfl, rfl, rfl, rfl, rfl, rfl, rfl, rfl, rfl, rfl⟩

@[simp] theorem byteTaken_sets (s : State) :
    (byteTaken s).rxBytes = s.rxBytes.tail ∧
    (byteTaken s).drawn = (if s.rxBytes.isEmpty then s.drawn + 1 else s.drawn) :=
  ⟨rfl, rfl⟩

@[simp] theorem byteTaken_keeps (s : State) :
    (byteTaken s).arg0 = s.arg0 ∧ (byteTaken s).arg1 = s.arg1 ∧ (byteTaken s).arg2 = s.arg2 ∧
    (byteTaken s).result = s.result ∧ (byteTaken s).resumeEn = s.resumeEn ∧
    (byteTaken s).pollLimit = s.pollLimit ∧ (byteTaken s).romid0 = s.romid0 ∧ (byteTaken s).romid1 = s.romid1 ∧
    (byteTaken s).done = s.done ∧ (byteTaken s).ovr = s.ovr ∧ (byteTaken s).denied = s.denied ∧
    (byteTaken s).presence = s.presence ∧ (byteTaken s).err = s.err ∧ (byteTaken s).speed = s.speed ∧
    (byteTaken s).pdur = s.pdur ∧ (byteTaken s).pwrArmed = s.pwrArmed ∧ (byteTaken s).pwrActive = s.pwrActive ∧
    (byteTaken s).pwrDur = s.pwrDur ∧ (byteTaken s).lastSel = s.lastSel ∧
    (byteTaken s).resumeArmed = s.resumeArmed ∧ (byteTaken s).spValid = s.spValid ∧
    (byteTaken s).spTA = s.spTA ∧ (byteTaken s).spES = s.spES ∧ (byteTaken s).owner = s.owner ∧
    (byteTaken s).banks = s.banks ∧ (byteTaken s).data = s.data ∧ (byteTaken s).seq = s.seq ∧
    (byteTaken s).hist = s.hist ∧ (byteTaken s).cfg = s.cfg ∧ (byteTaken s).sched = s.sched ∧
    (byteTaken s).presences = s.presences ∧ (byteTaken s).portLog = s.portLog :=
  ⟨rfl, rfl, rfl, rfl, rfl, rfl, rfl, rfl, rfl, rfl, rfl, rfl, rfl, rfl, rfl, rfl, rfl, rfl, rfl, rfl, rfl, rfl, rfl, rfl, rfl, rfl, rfl, rfl, rfl, rfl, rfl, rfl⟩

@[simp] theorem note_sets (e : BusEvent) (s : State) :
    (note e s).hist = s.hist ++ [e] := rfl

@[simp] theorem note_keeps (e : BusEvent) (s : State) :
    (note e s).arg0 = s.arg0 ∧ (note e s).arg1 = s.arg1 ∧ (note e s).arg2 = s.arg2 ∧
    (note e s).result = s.result ∧ (note e s).resumeEn = s.resumeEn ∧ (note e s).pollLimit = s.pollLimit ∧
    (note e s).romid0 = s.romid0 ∧ (note e s).romid1 = s.romid1 ∧ (note e s).done = s.done ∧
    (note e s).ovr = s.ovr ∧ (note e s).denied = s.denied ∧ (note e s).presence = s.presence ∧
    (note e s).err = s.err ∧ (note e s).speed = s.speed ∧ (note e s).pdur = s.pdur ∧
    (note e s).pwrArmed = s.pwrArmed ∧ (note e s).pwrActive = s.pwrActive ∧ (note e s).pwrDur = s.pwrDur ∧
    (note e s).lastSel = s.lastSel ∧ (note e s).resumeArmed = s.resumeArmed ∧ (note e s).spValid = s.spValid ∧
    (note e s).spTA = s.spTA ∧ (note e s).spES = s.spES ∧ (note e s).owner = s.owner ∧
    (note e s).banks = s.banks ∧ (note e s).data = s.data ∧ (note e s).seq = s.seq ∧ (note e s).cfg = s.cfg ∧
    (note e s).sched = s.sched ∧ (note e s).presences = s.presences ∧ (note e s).rxBytes = s.rxBytes ∧
    (note e s).drawn = s.drawn ∧ (note e s).portLog = s.portLog :=
  ⟨rfl, rfl, rfl, rfl, rfl, rfl, rfl, rfl, rfl, rfl, rfl, rfl, rfl, rfl, rfl, rfl, rfl, rfl, rfl, rfl, rfl, rfl, rfl, rfl, rfl, rfl, rfl, rfl, rfl, rfl, rfl, rfl, rfl⟩

@[simp] theorem startPullup_sets (s : State) :
    (startPullup s).hist = s.hist ++ [.pullupStart s.pwrDur] ∧ (startPullup s).pwrArmed = false ∧
    (startPullup s).pwrActive = true :=
  ⟨rfl, rfl, rfl⟩

@[simp] theorem startPullup_keeps (s : State) :
    (startPullup s).arg0 = s.arg0 ∧ (startPullup s).arg1 = s.arg1 ∧ (startPullup s).arg2 = s.arg2 ∧
    (startPullup s).result = s.result ∧ (startPullup s).resumeEn = s.resumeEn ∧
    (startPullup s).pollLimit = s.pollLimit ∧ (startPullup s).romid0 = s.romid0 ∧
    (startPullup s).romid1 = s.romid1 ∧ (startPullup s).done = s.done ∧ (startPullup s).ovr = s.ovr ∧
    (startPullup s).denied = s.denied ∧ (startPullup s).presence = s.presence ∧ (startPullup s).err = s.err ∧
    (startPullup s).speed = s.speed ∧ (startPullup s).pdur = s.pdur ∧ (startPullup s).pwrDur = s.pwrDur ∧
    (startPullup s).lastSel = s.lastSel ∧ (startPullup s).resumeArmed = s.resumeArmed ∧
    (startPullup s).spValid = s.spValid ∧ (startPullup s).spTA = s.spTA ∧ (startPullup s).spES = s.spES ∧
    (startPullup s).owner = s.owner ∧ (startPullup s).banks = s.banks ∧ (startPullup s).data = s.data ∧
    (startPullup s).seq = s.seq ∧ (startPullup s).cfg = s.cfg ∧ (startPullup s).sched = s.sched ∧
    (startPullup s).presences = s.presences ∧ (startPullup s).rxBytes = s.rxBytes ∧
    (startPullup s).drawn = s.drawn ∧ (startPullup s).portLog = s.portLog :=
  ⟨rfl, rfl, rfl, rfl, rfl, rfl, rfl, rfl, rfl, rfl, rfl, rfl, rfl, rfl, rfl, rfl, rfl, rfl, rfl, rfl, rfl, rfl, rfl, rfl, rfl, rfl, rfl, rfl, rfl, rfl, rfl⟩

@[simp] theorem dropSelection_sets (s : State) :
    (dropSelection s).lastSel = none ∧ (dropSelection s).resumeArmed = false ∧ (dropSelection s).spValid = false :=
  ⟨rfl, rfl, rfl⟩

@[simp] theorem dropSelection_keeps (s : State) :
    (dropSelection s).arg0 = s.arg0 ∧ (dropSelection s).arg1 = s.arg1 ∧ (dropSelection s).arg2 = s.arg2 ∧
    (dropSelection s).result = s.result ∧ (dropSelection s).resumeEn = s.resumeEn ∧
    (dropSelection s).pollLimit = s.pollLimit ∧ (dropSelection s).romid0 = s.romid0 ∧
    (dropSelection s).romid1 = s.romid1 ∧ (dropSelection s).done = s.done ∧ (dropSelection s).ovr = s.ovr ∧
    (dropSelection s).denied = s.denied ∧ (dropSelection s).presence = s.presence ∧
    (dropSelection s).err = s.err ∧ (dropSelection s).speed = s.speed ∧ (dropSelection s).pdur = s.pdur ∧
    (dropSelection s).pwrArmed = s.pwrArmed ∧ (dropSelection s).pwrActive = s.pwrActive ∧
    (dropSelection s).pwrDur = s.pwrDur ∧ (dropSelection s).spTA = s.spTA ∧ (dropSelection s).spES = s.spES ∧
    (dropSelection s).owner = s.owner ∧ (dropSelection s).banks = s.banks ∧ (dropSelection s).data = s.data ∧
    (dropSelection s).seq = s.seq ∧ (dropSelection s).hist = s.hist ∧ (dropSelection s).cfg = s.cfg ∧
    (dropSelection s).sched = s.sched ∧ (dropSelection s).presences = s.presences ∧
    (dropSelection s).rxBytes = s.rxBytes ∧ (dropSelection s).drawn = s.drawn ∧
    (dropSelection s).portLog = s.portLog :=
  ⟨rfl, rfl, rfl, rfl, rfl, rfl, rfl, rfl, rfl, rfl, rfl, rfl, rfl, rfl, rfl, rfl, rfl, rfl, rfl, rfl, rfl, rfl, rfl, rfl, rfl, rfl, rfl, rfl, rfl, rfl, rfl⟩

@[simp] theorem noteSelected_sets (s : State) :
    (noteSelected s).spValid = (s.spValid && s.lastSel == some s.romid) ∧
    (noteSelected s).lastSel = some s.romid ∧ (noteSelected s).resumeArmed = true :=
  ⟨rfl, rfl, rfl⟩

@[simp] theorem noteSelected_keeps (s : State) :
    (noteSelected s).arg0 = s.arg0 ∧ (noteSelected s).arg1 = s.arg1 ∧ (noteSelected s).arg2 = s.arg2 ∧
    (noteSelected s).result = s.result ∧ (noteSelected s).resumeEn = s.resumeEn ∧
    (noteSelected s).pollLimit = s.pollLimit ∧ (noteSelected s).romid0 = s.romid0 ∧
    (noteSelected s).romid1 = s.romid1 ∧ (noteSelected s).done = s.done ∧ (noteSelected s).ovr = s.ovr ∧
    (noteSelected s).denied = s.denied ∧ (noteSelected s).presence = s.presence ∧
    (noteSelected s).err = s.err ∧ (noteSelected s).speed = s.speed ∧ (noteSelected s).pdur = s.pdur ∧
    (noteSelected s).pwrArmed = s.pwrArmed ∧ (noteSelected s).pwrActive = s.pwrActive ∧
    (noteSelected s).pwrDur = s.pwrDur ∧ (noteSelected s).spTA = s.spTA ∧ (noteSelected s).spES = s.spES ∧
    (noteSelected s).owner = s.owner ∧ (noteSelected s).banks = s.banks ∧ (noteSelected s).data = s.data ∧
    (noteSelected s).seq = s.seq ∧ (noteSelected s).hist = s.hist ∧ (noteSelected s).cfg = s.cfg ∧
    (noteSelected s).sched = s.sched ∧ (noteSelected s).presences = s.presences ∧
    (noteSelected s).rxBytes = s.rxBytes ∧ (noteSelected s).drawn = s.drawn ∧
    (noteSelected s).portLog = s.portLog :=
  ⟨rfl, rfl, rfl, rfl, rfl, rfl, rfl, rfl, rfl, rfl, rfl, rfl, rfl, rfl, rfl, rfl, rfl, rfl, rfl, rfl, rfl, rfl, rfl, rfl, rfl, rfl, rfl, rfl, rfl, rfl, rfl⟩

@[simp] theorem setBank_sets (b : Nat) (f : BankState → BankState) (s : State) :
    (setBank b f s).banks = s.banks.modify b f := rfl

@[simp] theorem setBank_keeps (b : Nat) (f : BankState → BankState) (s : State) :
    (setBank b f s).arg0 = s.arg0 ∧ (setBank b f s).arg1 = s.arg1 ∧ (setBank b f s).arg2 = s.arg2 ∧
    (setBank b f s).result = s.result ∧ (setBank b f s).resumeEn = s.resumeEn ∧
    (setBank b f s).pollLimit = s.pollLimit ∧ (setBank b f s).romid0 = s.romid0 ∧
    (setBank b f s).romid1 = s.romid1 ∧ (setBank b f s).done = s.done ∧ (setBank b f s).ovr = s.ovr ∧
    (setBank b f s).denied = s.denied ∧ (setBank b f s).presence = s.presence ∧ (setBank b f s).err = s.err ∧
    (setBank b f s).speed = s.speed ∧ (setBank b f s).pdur = s.pdur ∧ (setBank b f s).pwrArmed = s.pwrArmed ∧
    (setBank b f s).pwrActive = s.pwrActive ∧ (setBank b f s).pwrDur = s.pwrDur ∧
    (setBank b f s).lastSel = s.lastSel ∧ (setBank b f s).resumeArmed = s.resumeArmed ∧
    (setBank b f s).spValid = s.spValid ∧ (setBank b f s).spTA = s.spTA ∧ (setBank b f s).spES = s.spES ∧
    (setBank b f s).owner = s.owner ∧ (setBank b f s).data = s.data ∧ (setBank b f s).seq = s.seq ∧
    (setBank b f s).hist = s.hist ∧ (setBank b f s).cfg = s.cfg ∧ (setBank b f s).sched = s.sched ∧
    (setBank b f s).presences = s.presences ∧ (setBank b f s).rxBytes = s.rxBytes ∧
    (setBank b f s).drawn = s.drawn ∧ (setBank b f s).portLog = s.portLog :=
  ⟨rfl, rfl, rfl, rfl, rfl, rfl, rfl, rfl, rfl, rfl, rfl, rfl, rfl, rfl, rfl, rfl, rfl, rfl, rfl, rfl, rfl, rfl, rfl, rfl, rfl, rfl, rfl, rfl, rfl, rfl, rfl, rfl, rfl⟩

@[simp] theorem setVerified_sets (b : Nat) (v : Bool) (s : State) :
    (setVerified b v s).banks = s.banks.modify b (fun bs => { bs with verified := v }) := rfl

@[simp] theorem setVerified_keeps (b : Nat) (v : Bool) (s : State) :
    (setVerified b v s).arg0 = s.arg0 ∧ (setVerified b v s).arg1 = s.arg1 ∧ (setVerified b v s).arg2 = s.arg2 ∧
    (setVerified b v s).result = s.result ∧ (setVerified b v s).resumeEn = s.resumeEn ∧
    (setVerified b v s).pollLimit = s.pollLimit ∧ (setVerified b v s).romid0 = s.romid0 ∧
    (setVerified b v s).romid1 = s.romid1 ∧ (setVerified b v s).done = s.done ∧
    (setVerified b v s).ovr = s.ovr ∧ (setVerified b v s).denied = s.denied ∧
    (setVerified b v s).presence = s.presence ∧ (setVerified b v s).err = s.err ∧
    (setVerified b v s).speed = s.speed ∧ (setVerified b v s).pdur = s.pdur ∧
    (setVerified b v s).pwrArmed = s.pwrArmed ∧ (setVerified b v s).pwrActive = s.pwrActive ∧
    (setVerified b v s).pwrDur = s.pwrDur ∧ (setVerified b v s).lastSel = s.lastSel ∧
    (setVerified b v s).resumeArmed = s.resumeArmed ∧ (setVerified b v s).spValid = s.spValid ∧
    (setVerified b v s).spTA = s.spTA ∧ (setVerified b v s).spES = s.spES ∧
    (setVerified b v s).owner = s.owner ∧ (setVerified b v s).data = s.data ∧ (setVerified b v s).seq = s.seq ∧
    (setVerified b v s).hist = s.hist ∧ (setVerified b v s).cfg = s.cfg ∧ (setVerified b v s).sched = s.sched ∧
    (setVerified b v s).presences = s.presences ∧ (setVerified b v s).rxBytes = s.rxBytes ∧
    (setVerified b v s).drawn = s.drawn ∧ (setVerified b v s).portLog = s.portLog :=
  ⟨rfl, rfl, rfl, rfl, rfl, rfl, rfl, rfl, rfl, rfl, rfl, rfl, rfl, rfl, rfl, rfl, rfl, rfl, rfl, rfl, rfl, rfl, rfl, rfl, rfl, rfl, rfl, rfl, rfl, rfl, rfl, rfl, rfl⟩

@[simp] theorem forceVerify_sets (b : Nat) (s : State) :
    (forceVerify b s).banks = s.banks.modify b (fun bs => { bs with verified := false }) := rfl

@[simp] theorem forceVerify_keeps (b : Nat) (s : State) :
    (forceVerify b s).arg0 = s.arg0 ∧ (forceVerify b s).arg1 = s.arg1 ∧ (forceVerify b s).arg2 = s.arg2 ∧
    (forceVerify b s).result = s.result ∧ (forceVerify b s).resumeEn = s.resumeEn ∧
    (forceVerify b s).pollLimit = s.pollLimit ∧ (forceVerify b s).romid0 = s.romid0 ∧
    (forceVerify b s).romid1 = s.romid1 ∧ (forceVerify b s).done = s.done ∧ (forceVerify b s).ovr = s.ovr ∧
    (forceVerify b s).denied = s.denied ∧ (forceVerify b s).presence = s.presence ∧
    (forceVerify b s).err = s.err ∧ (forceVerify b s).speed = s.speed ∧ (forceVerify b s).pdur = s.pdur ∧
    (forceVerify b s).pwrArmed = s.pwrArmed ∧ (forceVerify b s).pwrActive = s.pwrActive ∧
    (forceVerify b s).pwrDur = s.pwrDur ∧ (forceVerify b s).lastSel = s.lastSel ∧
    (forceVerify b s).resumeArmed = s.resumeArmed ∧ (forceVerify b s).spValid = s.spValid ∧
    (forceVerify b s).spTA = s.spTA ∧ (forceVerify b s).spES = s.spES ∧ (forceVerify b s).owner = s.owner ∧
    (forceVerify b s).data = s.data ∧ (forceVerify b s).seq = s.seq ∧ (forceVerify b s).hist = s.hist ∧
    (forceVerify b s).cfg = s.cfg ∧ (forceVerify b s).sched = s.sched ∧
    (forceVerify b s).presences = s.presences ∧ (forceVerify b s).rxBytes = s.rxBytes ∧
    (forceVerify b s).drawn = s.drawn ∧ (forceVerify b s).portLog = s.portLog :=
  ⟨rfl, rfl, rfl, rfl, rfl, rfl, rfl, rfl, rfl, rfl, rfl, rfl, rfl, rfl, rfl, rfl, rfl, rfl, rfl, rfl, rfl, rfl, rfl, rfl, rfl, rfl, rfl, rfl, rfl, rfl, rfl, rfl, rfl⟩

@[simp] theorem dropScratchpad_sets (s : State) :
    (dropScratchpad s).spValid = false := rfl

@[simp] theorem dropScratchpad_keeps (s : State) :
    (dropScratchpad s).arg0 = s.arg0 ∧ (dropScratchpad s).arg1 = s.arg1 ∧ (dropScratchpad s).arg2 = s.arg2 ∧
    (dropScratchpad s).result = s.result ∧ (dropScratchpad s).resumeEn = s.resumeEn ∧
    (dropScratchpad s).pollLimit = s.pollLimit ∧ (dropScratchpad s).romid0 = s.romid0 ∧
    (dropScratchpad s).romid1 = s.romid1 ∧ (dropScratchpad s).done = s.done ∧ (dropScratchpad s).ovr = s.ovr ∧
    (dropScratchpad s).denied = s.denied ∧ (dropScratchpad s).presence = s.presence ∧
    (dropScratchpad s).err = s.err ∧ (dropScratchpad s).speed = s.speed ∧ (dropScratchpad s).pdur = s.pdur ∧
    (dropScratchpad s).pwrArmed = s.pwrArmed ∧ (dropScratchpad s).pwrActive = s.pwrActive ∧
    (dropScratchpad s).pwrDur = s.pwrDur ∧ (dropScratchpad s).lastSel = s.lastSel ∧
    (dropScratchpad s).resumeArmed = s.resumeArmed ∧ (dropScratchpad s).spTA = s.spTA ∧
    (dropScratchpad s).spES = s.spES ∧ (dropScratchpad s).owner = s.owner ∧
    (dropScratchpad s).banks = s.banks ∧ (dropScratchpad s).data = s.data ∧ (dropScratchpad s).seq = s.seq ∧
    (dropScratchpad s).hist = s.hist ∧ (dropScratchpad s).cfg = s.cfg ∧ (dropScratchpad s).sched = s.sched ∧
    (dropScratchpad s).presences = s.presences ∧ (dropScratchpad s).rxBytes = s.rxBytes ∧
    (dropScratchpad s).drawn = s.drawn ∧ (dropScratchpad s).portLog = s.portLog :=
  ⟨rfl, rfl, rfl, rfl, rfl, rfl, rfl, rfl, rfl, rfl, rfl, rfl, rfl, rfl, rfl, rfl, rfl, rfl, rfl, rfl, rfl, rfl, rfl, rfl, rfl, rfl, rfl, rfl, rfl, rfl, rfl, rfl, rfl⟩

@[simp] theorem armForCopy_sets (b : Nat) (s : State) :
    (armForCopy b s).pwrArmed = true ∧ (armForCopy b s).pwrDur = (s.prof b).copyPowerDuration :=
  ⟨rfl, rfl⟩

@[simp] theorem armForCopy_keeps (b : Nat) (s : State) :
    (armForCopy b s).arg0 = s.arg0 ∧ (armForCopy b s).arg1 = s.arg1 ∧ (armForCopy b s).arg2 = s.arg2 ∧
    (armForCopy b s).result = s.result ∧ (armForCopy b s).resumeEn = s.resumeEn ∧
    (armForCopy b s).pollLimit = s.pollLimit ∧ (armForCopy b s).romid0 = s.romid0 ∧
    (armForCopy b s).romid1 = s.romid1 ∧ (armForCopy b s).done = s.done ∧ (armForCopy b s).ovr = s.ovr ∧
    (armForCopy b s).denied = s.denied ∧ (armForCopy b s).presence = s.presence ∧
    (armForCopy b s).err = s.err ∧ (armForCopy b s).speed = s.speed ∧ (armForCopy b s).pdur = s.pdur ∧
    (armForCopy b s).pwrActive = s.pwrActive ∧ (armForCopy b s).lastSel = s.lastSel ∧
    (armForCopy b s).resumeArmed = s.resumeArmed ∧ (armForCopy b s).spValid = s.spValid ∧
    (armForCopy b s).spTA = s.spTA ∧ (armForCopy b s).spES = s.spES ∧ (armForCopy b s).owner = s.owner ∧
    (armForCopy b s).banks = s.banks ∧ (armForCopy b s).data = s.data ∧ (armForCopy b s).seq = s.seq ∧
    (armForCopy b s).hist = s.hist ∧ (armForCopy b s).cfg = s.cfg ∧ (armForCopy b s).sched = s.sched ∧
    (armForCopy b s).presences = s.presences ∧ (armForCopy b s).rxBytes = s.rxBytes ∧
    (armForCopy b s).drawn = s.drawn ∧ (armForCopy b s).portLog = s.portLog :=
  ⟨rfl, rfl, rfl, rfl, rfl, rfl, rfl, rfl, rfl, rfl, rfl, rfl, rfl, rfl, rfl, rfl, rfl, rfl, rfl, rfl, rfl, rfl, rfl, rfl, rfl, rfl, rfl, rfl, rfl, rfl, rfl, rfl⟩

@[simp] theorem setPageLocked_sets (b p : Nat) (s : State) :
    (setPageLocked b p s).banks = s.banks.modify b (fun bs => { bs with pageLocked := insertPage p bs.pageLocked }) := rfl

@[simp] theorem setPageLocked_keeps (b p : Nat) (s : State) :
    (setPageLocked b p s).arg0 = s.arg0 ∧ (setPageLocked b p s).arg1 = s.arg1 ∧
    (setPageLocked b p s).arg2 = s.arg2 ∧ (setPageLocked b p s).result = s.result ∧
    (setPageLocked b p s).resumeEn = s.resumeEn ∧ (setPageLocked b p s).pollLimit = s.pollLimit ∧
    (setPageLocked b p s).romid0 = s.romid0 ∧ (setPageLocked b p s).romid1 = s.romid1 ∧
    (setPageLocked b p s).done = s.done ∧ (setPageLocked b p s).ovr = s.ovr ∧
    (setPageLocked b p s).denied = s.denied ∧ (setPageLocked b p s).presence = s.presence ∧
    (setPageLocked b p s).err = s.err ∧ (setPageLocked b p s).speed = s.speed ∧
    (setPageLocked b p s).pdur = s.pdur ∧ (setPageLocked b p s).pwrArmed = s.pwrArmed ∧
    (setPageLocked b p s).pwrActive = s.pwrActive ∧ (setPageLocked b p s).pwrDur = s.pwrDur ∧
    (setPageLocked b p s).lastSel = s.lastSel ∧ (setPageLocked b p s).resumeArmed = s.resumeArmed ∧
    (setPageLocked b p s).spValid = s.spValid ∧ (setPageLocked b p s).spTA = s.spTA ∧
    (setPageLocked b p s).spES = s.spES ∧ (setPageLocked b p s).owner = s.owner ∧
    (setPageLocked b p s).data = s.data ∧ (setPageLocked b p s).seq = s.seq ∧
    (setPageLocked b p s).hist = s.hist ∧ (setPageLocked b p s).cfg = s.cfg ∧
    (setPageLocked b p s).sched = s.sched ∧ (setPageLocked b p s).presences = s.presences ∧
    (setPageLocked b p s).rxBytes = s.rxBytes ∧ (setPageLocked b p s).drawn = s.drawn ∧
    (setPageLocked b p s).portLog = s.portLog :=
  ⟨rfl, rfl, rfl, rfl, rfl, rfl, rfl, rfl, rfl, rfl, rfl, rfl, rfl, rfl, rfl, rfl, rfl, rfl, rfl, rfl, rfl, rfl, rfl, rfl, rfl, rfl, rfl, rfl, rfl, rfl, rfl, rfl, rfl⟩

@[simp] theorem setRedirectLocked_sets (b p : Nat) (s : State) :
    (setRedirectLocked b p s).banks = s.banks.modify b (fun bs => { bs with redirectLocked := insertPage p bs.redirectLocked }) := rfl

@[simp] theorem setRedirectLocked_keeps (b p : Nat) (s : State) :
    (setRedirectLocked b p s).arg0 = s.arg0 ∧ (setRedirectLocked b p s).arg1 = s.arg1 ∧
    (setRedirectLocked b p s).arg2 = s.arg2 ∧ (setRedirectLocked b p s).result = s.result ∧
    (setRedirectLocked b p s).resumeEn = s.resumeEn ∧ (setRedirectLocked b p s).pollLimit = s.pollLimit ∧
    (setRedirectLocked b p s).romid0 = s.romid0 ∧ (setRedirectLocked b p s).romid1 = s.romid1 ∧
    (setRedirectLocked b p s).done = s.done ∧ (setRedirectLocked b p s).ovr = s.ovr ∧
    (setRedirectLocked b p s).denied = s.denied ∧ (setRedirectLocked b p s).presence = s.presence ∧
    (setRedirectLocked b p s).err = s.err ∧ (setRedirectLocked b p s).speed = s.speed ∧
    (setRedirectLocked b p s).pdur = s.pdur ∧ (setRedirectLocked b p s).pwrArmed = s.pwrArmed ∧
    (setRedirectLocked b p s).pwrActive = s.pwrActive ∧ (setRedirectLocked b p s).pwrDur = s.pwrDur ∧
    (setRedirectLocked b p s).lastSel = s.lastSel ∧ (setRedirectLocked b p s).resumeArmed = s.resumeArmed ∧
    (setRedirectLocked b p s).spValid = s.spValid ∧ (setRedirectLocked b p s).spTA = s.spTA ∧
    (setRedirectLocked b p s).spES = s.spES ∧ (setRedirectLocked b p s).owner = s.owner ∧
    (setRedirectLocked b p s).data = s.data ∧ (setRedirectLocked b p s).seq = s.seq ∧
    (setRedirectLocked b p s).hist = s.hist ∧ (setRedirectLocked b p s).cfg = s.cfg ∧
    (setRedirectLocked b p s).sched = s.sched ∧ (setRedirectLocked b p s).presences = s.presences ∧
    (setRedirectLocked b p s).rxBytes = s.rxBytes ∧ (setRedirectLocked b p s).drawn = s.drawn ∧
    (setRedirectLocked b p s).portLog = s.portLog :=
  ⟨rfl, rfl, rfl, rfl, rfl, rfl, rfl, rfl, rfl, rfl, rfl, rfl, rfl, rfl, rfl, rfl, rfl, rfl, rfl, rfl, rfl, rfl, rfl, rfl, rfl, rfl, rfl, rfl, rfl, rfl, rfl, rfl, rfl⟩

@[simp] theorem overrun_sets (s : State) :
    (overrun s).ovr = true := rfl

@[simp] theorem overrun_keeps (s : State) :
    (overrun s).arg0 = s.arg0 ∧ (overrun s).arg1 = s.arg1 ∧ (overrun s).arg2 = s.arg2 ∧
    (overrun s).result = s.result ∧ (overrun s).resumeEn = s.resumeEn ∧ (overrun s).pollLimit = s.pollLimit ∧
    (overrun s).romid0 = s.romid0 ∧ (overrun s).romid1 = s.romid1 ∧ (overrun s).done = s.done ∧
    (overrun s).denied = s.denied ∧ (overrun s).presence = s.presence ∧ (overrun s).err = s.err ∧
    (overrun s).speed = s.speed ∧ (overrun s).pdur = s.pdur ∧ (overrun s).pwrArmed = s.pwrArmed ∧
    (overrun s).pwrActive = s.pwrActive ∧ (overrun s).pwrDur = s.pwrDur ∧ (overrun s).lastSel = s.lastSel ∧
    (overrun s).resumeArmed = s.resumeArmed ∧ (overrun s).spValid = s.spValid ∧ (overrun s).spTA = s.spTA ∧
    (overrun s).spES = s.spES ∧ (overrun s).owner = s.owner ∧ (overrun s).banks = s.banks ∧
    (overrun s).data = s.data ∧ (overrun s).seq = s.seq ∧ (overrun s).hist = s.hist ∧ (overrun s).cfg = s.cfg ∧
    (overrun s).sched = s.sched ∧ (overrun s).presences = s.presences ∧ (overrun s).rxBytes = s.rxBytes ∧
    (overrun s).drawn = s.drawn ∧ (overrun s).portLog = s.portLog :=
  ⟨rfl, rfl, rfl, rfl, rfl, rfl, rfl, rfl, rfl, rfl, rfl, rfl, rfl, rfl, rfl, rfl, rfl, rfl, rfl, rfl, rfl, rfl, rfl, rfl, rfl, rfl, rfl, rfl, rfl, rfl, rfl, rfl, rfl⟩

@[simp] theorem respond_sets (a : Access) (x : Response) (s : State) :
    (respond a x s).portLog = s.portLog ++ [(a, x)] := rfl

@[simp] theorem respond_keeps (a : Access) (x : Response) (s : State) :
    (respond a x s).arg0 = s.arg0 ∧ (respond a x s).arg1 = s.arg1 ∧ (respond a x s).arg2 = s.arg2 ∧
    (respond a x s).result = s.result ∧ (respond a x s).resumeEn = s.resumeEn ∧
    (respond a x s).pollLimit = s.pollLimit ∧ (respond a x s).romid0 = s.romid0 ∧
    (respond a x s).romid1 = s.romid1 ∧ (respond a x s).done = s.done ∧ (respond a x s).ovr = s.ovr ∧
    (respond a x s).denied = s.denied ∧ (respond a x s).presence = s.presence ∧ (respond a x s).err = s.err ∧
    (respond a x s).speed = s.speed ∧ (respond a x s).pdur = s.pdur ∧ (respond a x s).pwrArmed = s.pwrArmed ∧
    (respond a x s).pwrActive = s.pwrActive ∧ (respond a x s).pwrDur = s.pwrDur ∧
    (respond a x s).lastSel = s.lastSel ∧ (respond a x s).resumeArmed = s.resumeArmed ∧
    (respond a x s).spValid = s.spValid ∧ (respond a x s).spTA = s.spTA ∧ (respond a x s).spES = s.spES ∧
    (respond a x s).owner = s.owner ∧ (respond a x s).banks = s.banks ∧ (respond a x s).data = s.data ∧
    (respond a x s).seq = s.seq ∧ (respond a x s).hist = s.hist ∧ (respond a x s).cfg = s.cfg ∧
    (respond a x s).sched = s.sched ∧ (respond a x s).presences = s.presences ∧
    (respond a x s).rxBytes = s.rxBytes ∧ (respond a x s).drawn = s.drawn :=
  ⟨rfl, rfl, rfl, rfl, rfl, rfl, rfl, rfl, rfl, rfl, rfl, rfl, rfl, rfl, rfl, rfl, rfl, rfl, rfl, rfl, rfl, rfl, rfl, rfl, rfl, rfl, rfl, rfl, rfl, rfl, rfl, rfl, rfl⟩

@[simp] theorem endPullup_sets (s : State) :
    (endPullup s).pwrActive = false ∧ (endPullup s).hist = s.hist ++ (if s.pwrActive then [.pullupEnd] else []) := by
  unfold endPullup; split <;> simp_all

@[simp] theorem endPullup_keeps (s : State) :
    (endPullup s).arg0 = s.arg0 ∧ (endPullup s).arg1 = s.arg1 ∧ (endPullup s).arg2 = s.arg2 ∧
    (endPullup s).result = s.result ∧ (endPullup s).resumeEn = s.resumeEn ∧
    (endPullup s).pollLimit = s.pollLimit ∧ (endPullup s).romid0 = s.romid0 ∧ (endPullup s).romid1 = s.romid1 ∧
    (endPullup s).done = s.done ∧ (endPullup s).ovr = s.ovr ∧ (endPullup s).denied = s.denied ∧
    (endPullup s).presence = s.presence ∧ (endPullup s).err = s.err ∧ (endPullup s).speed = s.speed ∧
    (endPullup s).pdur = s.pdur ∧ (endPullup s).pwrArmed = s.pwrArmed ∧ (endPullup s).pwrDur = s.pwrDur ∧
    (endPullup s).lastSel = s.lastSel ∧ (endPullup s).resumeArmed = s.resumeArmed ∧
    (endPullup s).spValid = s.spValid ∧ (endPullup s).spTA = s.spTA ∧ (endPullup s).spES = s.spES ∧
    (endPullup s).owner = s.owner ∧ (endPullup s).banks = s.banks ∧ (endPullup s).data = s.data ∧
    (endPullup s).seq = s.seq ∧ (endPullup s).cfg = s.cfg ∧ (endPullup s).sched = s.sched ∧
    (endPullup s).presences = s.presences ∧ (endPullup s).rxBytes = s.rxBytes ∧ (endPullup s).drawn = s.drawn ∧
    (endPullup s).portLog = s.portLog := by
  unfold endPullup; split <;> simp_all

@[simp] theorem timerStep_sets (s : State) :
    (timerStep s).pwrActive = (s.pwrActive && !endsByItself s.pwrDur) ∧
    (timerStep s).hist = s.hist ++ (if timerEnabled s then [.pullupEnd] else []) := by
  unfold timerStep; split <;> simp_all [timerEnabled]

@[simp] theorem timerStep_keeps (s : State) :
    (timerStep s).arg0 = s.arg0 ∧ (timerStep s).arg1 = s.arg1 ∧ (timerStep s).arg2 = s.arg2 ∧
    (timerStep s).result = s.result ∧ (timerStep s).resumeEn = s.resumeEn ∧
    (timerStep s).pollLimit = s.pollLimit ∧ (timerStep s).romid0 = s.romid0 ∧ (timerStep s).romid1 = s.romid1 ∧
    (timerStep s).done = s.done ∧ (timerStep s).ovr = s.ovr ∧ (timerStep s).denied = s.denied ∧
    (timerStep s).presence = s.presence ∧ (timerStep s).err = s.err ∧ (timerStep s).speed = s.speed ∧
    (timerStep s).pdur = s.pdur ∧ (timerStep s).pwrArmed = s.pwrArmed ∧ (timerStep s).pwrDur = s.pwrDur ∧
    (timerStep s).lastSel = s.lastSel ∧ (timerStep s).resumeArmed = s.resumeArmed ∧
    (timerStep s).spValid = s.spValid ∧ (timerStep s).spTA = s.spTA ∧ (timerStep s).spES = s.spES ∧
    (timerStep s).owner = s.owner ∧ (timerStep s).banks = s.banks ∧ (timerStep s).data = s.data ∧
    (timerStep s).seq = s.seq ∧ (timerStep s).cfg = s.cfg ∧ (timerStep s).sched = s.sched ∧
    (timerStep s).presences = s.presences ∧ (timerStep s).rxBytes = s.rxBytes ∧ (timerStep s).drawn = s.drawn ∧
    (timerStep s).portLog = s.portLog := by
  unfold timerStep; split <;> simp_all [timerEnabled]

@[simp] theorem busReset_sets (s : State) :
    (busReset s).pwrArmed = false ∧ (busReset s).pwrActive = false ∧ (busReset s).presence = s.nextPresence ∧
    (busReset s).hist = s.hist ++ resetEvents s ∧ (busReset s).presences = s.presences.tail ∧
    (busReset s).drawn = (if s.presences.isEmpty then s.drawn + 1 else s.drawn) := by
  simp [busReset, resetEvents]

@[simp] theorem busReset_keeps (s : State) :
    (busReset s).arg0 = s.arg0 ∧ (busReset s).arg1 = s.arg1 ∧ (busReset s).arg2 = s.arg2 ∧
    (busReset s).result = s.result ∧ (busReset s).resumeEn = s.resumeEn ∧
    (busReset s).pollLimit = s.pollLimit ∧ (busReset s).romid0 = s.romid0 ∧ (busReset s).romid1 = s.romid1 ∧
    (busReset s).done = s.done ∧ (busReset s).ovr = s.ovr ∧ (busReset s).denied = s.denied ∧
    (busReset s).err = s.err ∧ (busReset s).speed = s.speed ∧ (busReset s).pdur = s.pdur ∧
    (busReset s).pwrDur = s.pwrDur ∧ (busReset s).lastSel = s.lastSel ∧
    (busReset s).resumeArmed = s.resumeArmed ∧ (busReset s).spValid = s.spValid ∧ (busReset s).spTA = s.spTA ∧
    (busReset s).spES = s.spES ∧ (busReset s).owner = s.owner ∧ (busReset s).banks = s.banks ∧
    (busReset s).data = s.data ∧ (busReset s).seq = s.seq ∧ (busReset s).cfg = s.cfg ∧
    (busReset s).sched = s.sched ∧ (busReset s).rxBytes = s.rxBytes ∧ (busReset s).portLog = s.portLog := by
  simp [busReset]

@[simp] theorem busByte_sets (tx : Byte) (s : State) :
    (busByte tx s).pwrArmed = false ∧ (busByte tx s).pwrActive = s.pwrArmed ∧
    (busByte tx s).hist = s.hist ++ byteEvents tx s ∧ (busByte tx s).rxBytes = s.rxBytes.tail ∧
    (busByte tx s).drawn = (if s.rxBytes.isEmpty then s.drawn + 1 else s.drawn) := by
  cases h : s.pwrArmed <;> simp [busByte, byteEvents, h]

@[simp] theorem busByte_keeps (tx : Byte) (s : State) :
    (busByte tx s).arg0 = s.arg0 ∧ (busByte tx s).arg1 = s.arg1 ∧ (busByte tx s).arg2 = s.arg2 ∧
    (busByte tx s).result = s.result ∧ (busByte tx s).resumeEn = s.resumeEn ∧
    (busByte tx s).pollLimit = s.pollLimit ∧ (busByte tx s).romid0 = s.romid0 ∧
    (busByte tx s).romid1 = s.romid1 ∧ (busByte tx s).done = s.done ∧ (busByte tx s).ovr = s.ovr ∧
    (busByte tx s).denied = s.denied ∧ (busByte tx s).presence = s.presence ∧ (busByte tx s).err = s.err ∧
    (busByte tx s).speed = s.speed ∧ (busByte tx s).pdur = s.pdur ∧ (busByte tx s).pwrDur = s.pwrDur ∧
    (busByte tx s).lastSel = s.lastSel ∧ (busByte tx s).resumeArmed = s.resumeArmed ∧
    (busByte tx s).spValid = s.spValid ∧ (busByte tx s).spTA = s.spTA ∧ (busByte tx s).spES = s.spES ∧
    (busByte tx s).owner = s.owner ∧ (busByte tx s).banks = s.banks ∧ (busByte tx s).data = s.data ∧
    (busByte tx s).seq = s.seq ∧ (busByte tx s).cfg = s.cfg ∧ (busByte tx s).sched = s.sched ∧
    (busByte tx s).presences = s.presences ∧ (busByte tx s).portLog = s.portLog := by
  cases h : s.pwrArmed <;> simp [busByte, h]

end Sys2Proof.Machine
end

