-- ==== Sys2Proof/Laws/Banks.lean ====
section
/-! SUPPORT. The small lemmas of the per-bank state: reading one bank after a write of one, the page sets, and the pages a
range touches. -/

namespace Sys2Proof.Machine

theorem bankState_setBank {b : Nat} (f : BankState → BankState) (s : State) (h : b < s.banks.length) :
    (setBank b f s).bankState b = f (s.bankState b) := by
  simp [State.bankState, setBank, List.getD_eq_getElem?_getD, h]

theorem bankState_setBank_other {b c : Nat} (f : BankState → BankState) (s : State) (h : c ≠ b) :
    (setBank b f s).bankState c = s.bankState c := by
  simp [State.bankState, setBank, List.getD_eq_getElem?_getD, Ne.symm h]

/-- A bank that no bank of the state is reads the same before and after. -/
theorem bankState_setBank_none {b : Nat} (f : BankState → BankState) (s : State) (h : s.banks.length ≤ b) (c : Nat) :
    (setBank b f s).bankState c = s.bankState c := by
  by_cases hc : c = b
  · subst hc; simp [State.bankState, setBank, List.getD_eq_getElem?_getD, h]
  · exact bankState_setBank_other f s hc

theorem mem_insertPage {p q : Nat} {l : List Nat} : q ∈ insertPage p l ↔ q = p ∨ q ∈ l := by
  induction l with
  | nil => simp [insertPage]
  | cons a l ih =>
    unfold insertPage
    split
    · simp
    · split
      · subst_vars; simp
      · simp [ih]; tauto

theorem mem_foldl_insertPage {ps l : List Nat} {q : Nat} :
    q ∈ ps.foldl (fun l p => insertPage p l) l ↔ q ∈ l ∨ q ∈ ps := by
  induction ps generalizing l with
  | nil => simp
  | cons a ps ih => simp only [List.foldl_cons, ih, mem_insertPage, List.mem_cons]; tauto

/-- The pages a range of at least one byte touches (rule R284). -/
theorem mem_pagesTouched (d : Desc) (x : Nat) {n q : Nat} (h : 0 < n) :
    q ∈ pagesTouched d x n ↔ x / d.pageLength ≤ q ∧ q ≤ (x + n - 1) / d.pageLength := by
  have hle : x / d.pageLength ≤ (x + n - 1) / d.pageLength := Nat.div_le_div_right (by omega)
  simp only [pagesTouched, pageOf, List.mem_map, List.mem_range]
  constructor
  · rintro ⟨a, h1, rfl⟩; omega
  · rintro ⟨h1, h2⟩; exact ⟨q - x / d.pageLength, by omega, by omega⟩

theorem isProtected_iff {b x n : Nat} {s : State} : isProtected b x n s = true ↔
    ∃ p ∈ pagesTouched (s.desc b) x n, (s.bankState b).readOnly = true ∨ p ∈ (s.bankState b).pageLocked ∨
      ((s.desc b).writeOnce = true ∧ p ∈ (s.bankState b).pageCommitted) := by
  simp only [isProtected, List.any_eq_true, Bool.or_eq_true, Bool.and_eq_true, List.contains_iff_mem, or_assoc]

theorem risingPages_insertPage (p : Nat) : ∀ l : List Nat, risingPages l = true → risingPages (insertPage p l) = true := by
  intro l h
  induction l with
  | nil => rfl
  | cons a l ih =>
    unfold insertPage
    split
    · next hlt => simp [risingPages, hlt, h]
    · split
      · exact h
      · next h1 h2 =>
        have hap : a < p := by omega
        cases l with
        | nil => simp [insertPage, risingPages, hap]
        | cons c l =>
          simp only [risingPages, Bool.and_eq_true, decide_eq_true_eq] at h
          have := ih h.2
          unfold insertPage at this ⊢
          split
          · simp [risingPages] at *; simp_all
          · split
            · simp_all [risingPages]
            · simp_all [risingPages]

theorem risingPages_foldl_insertPage (ps l : List Nat) (h : risingPages l = true) :
    risingPages (ps.foldl (fun l p => insertPage p l) l) = true := by
  induction ps generalizing l with
  | nil => exact h
  | cons a ps ih => exact ih _ (risingPages_insertPage a l h)

/-- A trace goes on from where it stands (rule R198). -/
theorem pullupTrace_append (a b : List BusEvent) {x : Bool} (h : pullupTrace a = some x) :
    pullupTrace (a ++ b) = b.foldl (fun on e => on.bind fun on => pullupAfter on e) (some x) := by
  unfold pullupTrace at *; rw [List.foldl_append, h]

theorem busSteps_append (a b : List BusEvent) : busSteps (a ++ b) = busSteps a + busSteps b := by simp [busSteps]

end Sys2Proof.Machine
end

