-- ==== Sys2Proof/Laws/Operands.lean ====
section
/-! SUPPORT. The small lemmas of the operand forms: the bytes of `A0.TA`, when ARG0 fits it (rule R116), its place in the
32-byte window (rule R243), the bytes of the device address (rule R38), and the codes of rules R44 and R45. -/

namespace Sys2Proof.Machine

@[simp] theorem lo_argTA (r : Run) : lo r.argTA = r.a0.extractLsb' 0 8 := by
  apply BitVec.eq_of_getLsbD_eq
  intro i hi
  simp only [lo, Run.argTA, BitVec.getLsbD_extractLsb']
  simp [hi, show i < 16 by omega]

@[simp] theorem hi_argTA (r : Run) : hi r.argTA = r.a0.extractLsb' 8 8 := by
  apply BitVec.eq_of_getLsbD_eq
  intro i hi'
  simp only [hi, Run.argTA, BitVec.getLsbD_extractLsb']
  simp [hi', show 8 + i < 16 by omega]

/-- ARG0 fits `A0.TA` exactly when it is below 2^16. -/
theorem argTAFits_iff (r : Run) : r.argTAFits = true ↔ r.a0.toNat < 0x10000 := by
  simp only [Run.argTAFits, beq_iff_eq, ← BitVec.toNat_inj, BitVec.extractLsb'_toNat, Nat.shiftRight_eq_div_pow]
  have := r.a0.isLt
  simp
  omega

theorem argTAFits_eq_false_iff (r : Run) : r.argTAFits = false ↔ 0x10000 ≤ r.a0.toNat := by
  rw [← Bool.not_eq_true, argTAFits_iff]; omega

theorem argTA_toNat (r : Run) : r.argTA.toNat = r.a0.toNat % 0x10000 := by
  simp [Run.argTA, BitVec.extractLsb'_toNat]

@[simp] theorem woff_argTA (r : Run) : woff r.argTA = r.a0.toNat % 32 := by
  rw [woff, argTA_toNat]; omega

@[simp] theorem room_argTA (r : Run) : room r.argTA = 32 - r.a0.toNat % 32 := by
  rw [room, woff_argTA]

/-- Address bytes 0 to 3 are ROMID0's, 4 to 7 ROMID1's (rule R38). -/
theorem addrBytes_romid (s : State) :
    addrBytes s.romid = [s.romid0.extractLsb' 0 8, s.romid0.extractLsb' 8 8, s.romid0.extractLsb' 16 8,
      s.romid0.extractLsb' 24 8, s.romid1.extractLsb' 0 8, s.romid1.extractLsb' 8 8, s.romid1.extractLsb' 16 8,
      s.romid1.extractLsb' 24 8] := by
  have low : ∀ k, k + 8 ≤ 32 → s.romid.extractLsb' k 8 = s.romid0.extractLsb' k 8 := by
    intro k hk
    apply BitVec.eq_of_getLsbD_eq
    intro i hi
    simp only [State.romid, BitVec.getLsbD_extractLsb', BitVec.getLsbD_append]
    simp [show k + i < 32 by omega]
  have high : ∀ k, k + 8 ≤ 32 → s.romid.extractLsb' (32 + k) 8 = s.romid1.extractLsb' k 8 := by
    intro k hk
    apply BitVec.eq_of_getLsbD_eq
    intro i hi
    simp only [State.romid, BitVec.getLsbD_extractLsb', BitVec.getLsbD_append]
    simp [show ¬ 32 + k + i < 32 by omega, show 32 + k + i - 32 = k + i by omega]
  simp only [addrBytes]
  rw [low 0 (by omega), low 8 (by omega), low 16 (by omega), low 24 (by omega), high 0 (by omega), high 8 (by omega),
    high 16 (by omega), high 24 (by omega)]

theorem speedOfCode_code (m : Speed) : speedOfCode m.code.toNat = some m := by cases m <;> rfl

theorem speedOfCode_above {n : Nat} (h : 3 < n) : speedOfCode n = none := by
  unfold speedOfCode; split <;> first | omega | rfl

theorem durationOfCode_code (d : Duration) : durationOfCode (durationCode d).toNat = some d := by cases d <;> rfl

theorem durationOfCode_above {n : Nat} (h : 7 < n) : durationOfCode n = none := by
  unfold durationOfCode; split <;> first | omega | rfl

theorem bit_zero (b : Bool) : bit b 0 = if b then 1 else 0 := by cases b <;> rfl

theorem crcOk_iff (c : Config) (rx : List Byte) : crcOk c rx = true ↔ crc16Fn c 0 rx = 0xB001 := by
  simp [crcOk, crc16Pass, crc16Residue]

theorem crcOk_eq_false_iff (c : Config) (rx : List Byte) : crcOk c rx = false ↔ crc16Fn c 0 rx ≠ 0xB001 := by
  rw [← Bool.not_eq_true, crcOk_iff]

end Sys2Proof.Machine
end

