-- ==== Sys2Proof/Laws/Runs.lean ====
section
/-! SUPPORT. Runs of controller steps of one command: what a select sequence, a transfer and a poll leave, said once for
all commands (`run_select`, `run_xfer`), so that a result of a whole command is a chain of these. -/

namespace Sys2Proof.Machine

/-! ## The two parts of a meaning -/

/-- The first step of a command, past the choice that `runCommand` makes. -/
def startOf : Instr → Run → State → Result
  | .nop => fun _ s => .next (finish .ok 0 s)
  | .reset => fun _ s => .next (finish .ok (bit s.nextPresence 0) (busReset (dropSelection s)))
  | .select => fun r s => .next (advance r (selectGo r) (.reset .select) s)
  | .putByte => fun r s => .next (finish .ok (zext s.nextByte) (busByte r.argB (dropSelection s)))
  | .getByte => fun _ s => .next (finish .ok (zext s.nextByte) (busByte 0xFF (dropSelection s)))
  | .dataBlock => dataBlockStart
  | .setSpeed => setSpeedStart
  | .getSpeed => fun _ s => .next (finish .ok (zext s.speed.code) s)
  | .pwrSetDuration => pwrSetDurationStart
  | .pwrStart => pwrStartStart
  | .pwrNormal => fun _ s => .next (finish .ok 0 { endPullup s with pwrArmed := false })
  | .crc8 => crc8Start
  | .crc16 => crc16Start
  | .spErase b => spEraseStart b
  | .spWrite b => spWriteStart b
  | .spRead b => spReadStart b
  | .spCopy b => spCopyStart b
  | .spCopyMac b => spCopyMacStart b
  | .poll => pollStart
  | .mbRead b rc => mbReadStart b rc
  | .mbWrite b => mbWriteStart b
  | .mbReadPageCrc b rc xi => mbReadPageCrcStart b rc xi
  | .mbReadPacket b => mbReadPacketStart b
  | .mbWritePacket b => mbWritePacketStart b
  | .mbCheckSpeed b =>
    fun r s => bankChecked b s (.next (advance r (mbCheckSpeedGo b r) (.reset .check) s))
  | .mbForceVerify b => fun _ s => bankChecked b s (.next (finish .ok 0 (forceVerify b s)))
  | .mbWriteProtect b =>
    fun _ s => bankChecked b s (.next (finish .ok 0 (setBank b (fun bs => { bs with readOnly := true }) s)))
  | .otpLock b => otpLockStart b
  | .otpIsLocked b => fun r s =>
    otpChecked b [.lockRead] r s (.next (advance r (otpIsLockedGo b r) (.reset (.otpSel .first)) s))
  | .otpRedirect b => otpRedirectStart b
  | .otpGetRedirect b => fun r s =>
    otpChecked b [.redirectRead] r s (.next (advance r (otpGetRedirectGo b r) (.reset (.otpSel .first)) s))
  | .otpLockRedirect b => otpLockRedirectStart b
  | .otpIsRedirectLocked b => fun r s =>
    otpChecked b [.redirectLockRead] r s
      (.next (advance r (otpIsRedirectLockedGo b r) (.reset (.otpSel .first)) s))

/-- What follows the return of a procedure in a command's pseudocode. -/
def goOf : Instr → Run → Label → Ret → State → State
  | .nop => noMore
  | .reset => noMore
  | .select => selectGo
  | .putByte => noMore
  | .getByte => noMore
  | .dataBlock => dataBlockGo
  | .setSpeed => noMore
  | .getSpeed => noMore
  | .pwrSetDuration => noMore
  | .pwrStart => noMore
  | .pwrNormal => noMore
  | .crc8 => noMore
  | .crc16 => noMore
  | .spErase b => spEraseGo b
  | .spWrite b => spWriteGo b
  | .spRead b => spReadGo b
  | .spCopy b => spCopyGo b
  | .spCopyMac b => spCopyMacGo b
  | .poll => pollGo
  | .mbRead b _ => mbReadGo b
  | .mbWrite b => rangeGo b
  | .mbReadPageCrc b _ xi => mbReadPageCrcGo b xi
  | .mbReadPacket b => mbReadPacketGo b
  | .mbWritePacket b => rangeGo b
  | .mbCheckSpeed b => mbCheckSpeedGo b
  | .mbForceVerify _ => noMore
  | .mbWriteProtect _ => noMore
  | .otpLock b => otpLockGo b
  | .otpIsLocked b => otpIsLockedGo b
  | .otpRedirect b => otpRedirectGo b
  | .otpGetRedirect b => otpGetRedirectGo b
  | .otpLockRedirect b => otpLockRedirectGo b
  | .otpIsRedirectLocked b => otpIsRedirectLockedGo b

theorem exec_eq (i : Instr) (s : State) : exec i s = runCommand i (startOf i) (goOf i) s := by
  cases i <;> rfl

/-- The first step of a command. -/
theorem exec_start {s : State} {r : Run} (i : Instr) (h : starts s r) : exec i s = startOf i r s := by
  rw [exec_eq]; simp only [runCommand, h.1, h.2]

/-- `exec` answers a next state only for a command in flight. -/
theorem exec_next_run {i : Instr} {s t : State} (h : exec i s = .next t) : ∃ r, s.seq = .run r := by
  rw [exec_eq] at h
  unfold runCommand at h
  cases hs : s.seq with
  | idle => rw [hs] at h; cases h
  | run r => exact ⟨r, rfl⟩

/-- A later step of a command. -/
theorem exec_go {s : State} {r : Run} {i : Instr} (h : s.seq = .run r) (hp : r.pos ≠ .start)
    (hs : standsAt i r.pos = true) : exec i s = .next (advance r (goOf i r) r.pos s) := by
  rw [exec_eq]
  unfold runCommand
  rw [h]
  cases hq : r.pos with
  | start => exact absurd hq hp
  | _ => simp only [hq] at hs ⊢; rw [if_pos hs]

/-- What follows a procedure does not read the position it returned at. -/
theorem goOf_pos (i : Instr) (r : Run) (p : Pos) (k : Label) (ret : Ret) (s : State) :
    goOf i { r with pos := p } k ret s = goOf i r k ret s := by
  cases i <;> rfl

/-! ## `stand` and the other updates -/

section
variable (r : Run) (p q : Pos) (s : State)

@[simp] theorem stand_stand : stand r q (stand r p s) = stand r q s := rfl
theorem stand_pos : stand { r with pos := q } p s = stand r p s := rfl
@[simp] theorem finish_stand (c : ErrCode) (v : Word) : finish c v (stand r p s) = finish c v s := rfl
@[simp] theorem raise_stand (e : ErrCode) (v : Word) : raise e v (stand r p s) = raise e v s := rfl
@[simp] theorem setBank_stand (b : Nat) (f : BankState → BankState) :
    setBank b f (stand r p s) = stand r p (setBank b f s) := rfl
@[simp] theorem setVerified_stand (b : Nat) (v : Bool) :
    setVerified b v (stand r p s) = stand r p (setVerified b v s) := rfl
@[simp] theorem forceVerify_stand (b : Nat) : forceVerify b (stand r p s) = stand r p (forceVerify b s) := rfl
@[simp] theorem memWrite_stand (off : Nat) (d : List Byte) :
    memWrite off d (stand r p s) = stand r p (memWrite off d s) := rfl
@[simp] theorem dropSelection_stand : dropSelection (stand r p s) = stand r p (dropSelection s) := rfl
@[simp] theorem dropScratchpad_stand : dropScratchpad (stand r p s) = stand r p (dropScratchpad s) := rfl
@[simp] theorem noteSelected_stand : noteSelected (stand r p s) = stand r p (noteSelected s) := rfl
@[simp] theorem armForCopy_stand (b : Nat) : armForCopy b (stand r p s) = stand r p (armForCopy b s) := rfl
@[simp] theorem setPageLocked_stand (b n : Nat) :
    setPageLocked b n (stand r p s) = stand r p (setPageLocked b n s) := rfl
@[simp] theorem setRedirectLocked_stand (b n : Nat) :
    setRedirectLocked b n (stand r p s) = stand r p (setRedirectLocked b n s) := rfl
@[simp] theorem byteTaken_stand : byteTaken (stand r p s) = stand r p (byteTaken s) := rfl
@[simp] theorem nextByte_stand : (stand r p s).nextByte = s.nextByte := rfl
@[simp] theorem nextPresence_stand : (stand r p s).nextPresence = s.nextPresence := rfl
@[simp] theorem selectBytes_stand : selectBytes (stand r p s) = selectBytes s := rfl
@[simp] theorem desc_stand (b : Nat) : (stand r p s).desc b = s.desc b := rfl
@[simp] theorem prof_stand (b : Nat) : (stand r p s).prof b = s.prof b := rfl
@[simp] theorem bankState_stand (b : Nat) : (stand r p s).bankState b = s.bankState b := rfl

@[simp] theorem endPullup_stand : endPullup (stand r p s) = stand r p (endPullup s) := by
  unfold endPullup; simp only [stand_keeps]; split <;> rfl

@[simp] theorem busReset_stand : busReset (stand r p s) = stand r p (busReset s) := by
  unfold busReset; simp only [endPullup_stand]; rfl

@[simp] theorem busByte_stand (t : Byte) : busByte t (stand r p s) = stand r p (busByte t s) := by
  unfold busByte; simp only [endPullup_stand, byteTaken_stand, nextByte_stand]
  by_cases h : (note (.byte t s.nextByte) (byteTaken (endPullup s))).pwrArmed
  · rw [if_pos h, if_pos]; · rfl
    exact h
  · rw [if_neg h, if_neg]; · rfl
    exact h

@[simp] theorem commitPages_stand (b x n : Nat) :
    commitPages b x n (stand r p s) = stand r p (commitPages b x n s) := by
  unfold commitPages
  by_cases h : (s.desc b).writeOnce = true
  · rw [if_pos h, if_pos (by exact h)]; rfl
  · rw [if_neg h, if_neg (by exact h)]

end

@[simp] theorem busBytes_stand (r : Run) (p : Pos) (tx : List Byte) (s : State) :
    busBytes tx (stand r p s) = stand r p (busBytes tx s) := by
  induction tx generalizing s with
  | nil => rfl
  | cons t tx ih => simp only [busBytes, busByte_stand, ih]

@[simp] theorem answers_stand (r : Run) (p : Pos) (n : Nat) (s : State) :
    answers n (stand r p s) = answers n s := by
  induction n generalizing s with
  | zero => rfl
  | succ n ih => simp only [answers, nextByte_stand, byteTaken_stand, ih]

@[simp] theorem selectedState_stand (r : Run) (p : Pos) (s : State) :
    selectedState (stand r p s) = stand r p (selectedState s) := by
  simp [selectedState]

/-! ## The oracle along a transfer -/

theorem answers_congr {n : Nat} {s t : State} (h1 : s.rxBytes = t.rxBytes) (h2 : s.drawn = t.drawn) :
    answers n s = answers n t := by
  induction n generalizing s t with
  | zero => rfl
  | succ n ih =>
    have hb : s.nextByte = t.nextByte := by simp only [State.nextByte, h1, h2]
    simp only [answers, hb]
    congr 1
    exact ih (by simp [h1]) (by simp [h1, h2])

theorem answers_busByte (n : Nat) (t : Byte) (s : State) : answers n (busByte t s) = answers n (byteTaken s) :=
  answers_congr (by simp) (by simp)

@[simp] theorem answers_length (n : Nat) (s : State) : (answers n s).length = n := by
  induction n generalizing s with
  | zero => rfl
  | succ n ih => simp [answers, ih]

theorem busBytes_append (a b : List Byte) (s : State) : busBytes (a ++ b) s = busBytes b (busBytes a s) := by
  induction a generalizing s with
  | nil => rfl
  | cons t a ih => simp only [List.cons_append, busBytes, ih]

theorem answers_add (m n : Nat) (s : State) (tx : List Byte) (h : tx.length = m) :
    answers (m + n) s = answers m s ++ answers n (busBytes tx s) := by
  induction tx generalizing m s with
  | nil => subst h; simp [answers, busBytes]
  | cons t tx ih =>
    subst h
    simp only [List.length_cons, busBytes]
    rw [show tx.length + 1 + n = (tx.length + n) + 1 by omega]
    simp only [answers, List.cons_append]
    rw [← answers_busByte _ t, ← answers_busByte _ t, ih _ _ rfl]

/-! ## Runs -/

theorem controllerRun_add (i : Instr) (m n : Nat) (s t : State) (h : controllerRun i m s = .next t) :
    controllerRun i (m + n) s = controllerRun i n t := by
  induction m generalizing s with
  | zero => cases h; simp
  | succ m ih =>
    rw [show m + 1 + n = (m + n) + 1 by omega]
    simp only [controllerRun] at h ⊢
    cases hx : exec i s with
    | next u => simp only [hx] at h ⊢; exact ih u h
    | fault f => simp only [hx] at h; cases h
    | refused f => simp only [hx] at h; cases h

theorem controllerRun_one {i : Instr} {s t : State} (h : exec i s = .next t) : controllerRun i 1 s = .next t := by
  simp [controllerRun, h]

theorem controllerRun_one_add {i : Instr} {n : Nat} {s t : State} (h : exec i s = .next t) :
    controllerRun i (1 + n) s = controllerRun i n t :=
  controllerRun_add i 1 n s t (controllerRun_one h)

theorem exec_stand {i : Instr} {r : Run} {p : Pos} {s : State} (hp : p ≠ .start) (hs : standsAt i p = true) :
    exec i (stand r p s) = .next (advance { r with pos := p } (goOf i r) p (stand r p s)) := by
  rw [exec_go (r := { r with pos := p }) rfl hp hs]
  congr 1
  cases p with
  | start => rfl
  | reset k => simp only [advance, goOf_pos]
  | address tx k =>
    match tx with
    | [] => simp only [advance, goOf_pos]
    | [t] => simp only [advance, goOf_pos]
    | t :: u :: tx => simp only [advance]
  | xfer tx rx k =>
    match tx with
    | [] => simp only [advance, goOf_pos]
    | [t] => simp only [advance, goOf_pos]
    | t :: u :: tx => simp only [advance]
  | poll n k => simp only [advance, goOf_pos]
  | power k => simp only [advance, goOf_pos]

/-- A transfer of `tx` bytes: as many steps, then what follows takes the received bytes. -/
theorem run_xfer {i : Instr} {r : Run} {k : Label} (hk : standsAt i (.xfer [] [] k) = true) :
    ∀ (tx : List Byte) (rx : List Byte) (s : State), tx ≠ [] →
    ∃ p, controllerRun i tx.length (stand r (.xfer tx rx k) s) =
      .next (goOf i r k (.received (rx ++ answers tx.length s)) (stand r p (busBytes tx s)))
  | [], _, _, h => absurd rfl h
  | [t], rx, s, _ => by
    refine ⟨.xfer [t] rx k, ?_⟩
    rw [List.length_singleton, controllerRun_one (exec_stand (by simp) (by simpa [standsAt] using hk))]
    simp [advance, answers, busBytes]
  | t :: u :: tx, rx, s, _ => by
    obtain ⟨p, hp⟩ := run_xfer hk (u :: tx) (rx ++ [s.nextByte]) (busByte t s) (by simp)
    refine ⟨p, ?_⟩
    rw [List.length_cons, Nat.add_comm, controllerRun_one_add (exec_stand (by simp) (by simpa [standsAt] using hk))]
    simp only [advance, busByte_stand, stand_stand, stand_pos, nextByte_stand]
    rw [hp]
    simp only [answers, busBytes, List.append_assoc, List.singleton_append, List.length_cons, answers_busByte,
      Nat.add_comm 1]

/-- A command that starts at `s` stands at its start there. -/
theorem stand_start {s : State} {r : Run} (hs : s.seq = .run r) (hp : r.pos = .start) : stand r .start s = s := by
  cases s; cases r; simp only at hs hp; subst hs; subst hp; rfl

/-- A transfer as the first thing a command does, from the state `u` that its first step has reached. -/
theorem run_xfer_first {i : Instr} {r : Run} {k : Label} {s u : State} {tx : List Byte}
    (hk : standsAt i (.xfer [] [] k) = true) (hu : stand r .start u = u) (htx : tx ≠ [])
    (h : exec i s = .next (advance r (goOf i r) (.xfer tx [] k) u)) :
    ∃ p, controllerRun i tx.length s =
      .next (goOf i r k (.received (answers tx.length u)) (stand r p (busBytes tx u))) := by
  match tx, htx with
  | [t], _ =>
    refine ⟨.start, ?_⟩
    rw [List.length_singleton, controllerRun_one h]
    simp only [advance, answers, busBytes, List.nil_append, ← busByte_stand, hu]
  | t :: v :: tx, _ =>
    obtain ⟨p, hp⟩ := run_xfer (r := r) hk (v :: tx) [u.nextByte] (busByte t u) (by simp)
    refine ⟨p, ?_⟩
    rw [List.length_cons, Nat.add_comm, controllerRun_one_add h]
    simp only [advance, List.nil_append]
    rw [hp]
    simp only [answers, busBytes, List.singleton_append, List.length_cons, answers_busByte, Nat.add_comm 1]

/-- `sendFrame` and the transfer it makes: none at all for an empty frame. -/
theorem run_sendFrame {i : Instr} {r : Run} {k : Label} {s u : State} {m : Nat} {tx : List Byte} {p : Pos}
    {e : State → State} {f : List Byte → State → State}
    (h : controllerRun i m s = .next (sendFrame r tx k e (stand r p u))) (hk : standsAt i (.xfer [] [] k) = true)
    (he : ∀ u, e u = f [] u) (hf : ∀ rx u, goOf i r k (.received rx) u = f rx u) :
    ∃ p, controllerRun i (m + tx.length) s = .next (f (answers tx.length u) (stand r p (busBytes tx u))) := by
  cases tx with
  | nil => exact ⟨p, by simpa [sendFrame, he, answers, busBytes] using h⟩
  | cons t tx =>
    have h : controllerRun i m s = .next (stand r (.xfer (t :: tx) [] k) u) := by simpa [sendFrame] using h
    obtain ⟨p, hp⟩ := run_xfer (r := r) hk (t :: tx) [] u (by simp)
    exact ⟨p, by rw [controllerRun_add i m _ s _ h, hp, hf, List.nil_append]⟩

theorem run_address {i : Instr} {r : Run} {k : Label} (hk : standsAt i (.address [] k) = true) :
    ∀ (tx : List Byte) (s : State), tx ≠ [] →
    ∃ p, controllerRun i tx.length (stand r (.address tx k) s) =
      .next (goOf i r k (.selected true) (stand r p (noteSelected (busBytes tx s))))
  | [], _, h => absurd rfl h
  | [t], s, _ => by
    refine ⟨.address [t] k, ?_⟩
    rw [List.length_singleton, controllerRun_one (exec_stand (by simp) (by simpa [standsAt] using hk))]
    simp [advance, busBytes]
  | t :: u :: tx, s, _ => by
    obtain ⟨p, hp⟩ := run_address hk (u :: tx) (busByte t s) (by simp)
    refine ⟨p, ?_⟩
    rw [List.length_cons, Nat.add_comm, controllerRun_one_add (exec_stand (by simp) (by simpa [standsAt] using hk))]
    simp only [advance, busByte_stand, stand_stand, stand_pos]
    rw [hp]; rfl

theorem selectBytes_ne_nil (s : State) : selectBytes s ≠ [] := by
  unfold selectBytes; split <;> simp

/-- A select sequence that finds a device, from its reset on (rule R150). -/
theorem run_select_from {i : Instr} {r : Run} {k : Label} {s : State} (hk : standsAt i (.reset k) = true)
    (hp : s.nextPresence = true) (p0 : Pos)
    (hexec : exec i (stand r p0 s) = .next (advance r (goOf i r) (.reset k) (stand r p0 s))) :
    ∃ p, controllerRun i (selectSteps s) (stand r p0 s) =
      .next (goOf i r k (.selected true) (stand r p (selectedState s))) := by
  obtain ⟨p, h⟩ := run_address (r := r) (k := k) (by simpa [standsAt] using hk) (selectBytes s) (busReset s)
    (selectBytes_ne_nil s)
  refine ⟨p, ?_⟩
  unfold selectSteps
  rw [controllerRun_one_add hexec]
  simp only [advance, nextPresence_stand, hp, if_true, busReset_stand, stand_stand, selectBytes_stand]
  exact h

/-- A select sequence that finds a device, in the middle of a command. -/
theorem run_select {i : Instr} {r : Run} {k : Label} {s : State} (hk : standsAt i (.reset k) = true)
    (hp : s.nextPresence = true) :
    ∃ p, controllerRun i (selectSteps s) (stand r (.reset k) s) =
      .next (goOf i r k (.selected true) (stand r p (selectedState s))) :=
  run_select_from hk hp _ (by
    rw [exec_stand (by simp) hk]
    congr 1)

/-- A select sequence that finds a device, as the first thing a command does. -/
theorem run_select_first {i : Instr} {r : Run} {k : Label} {s : State} (hs : starts s r)
    (hk : standsAt i (.reset k) = true) (hp : s.nextPresence = true)
    (h : exec i s = .next (advance r (goOf i r) (.reset k) s)) :
    ∃ p, controllerRun i (selectSteps s) s = .next (goOf i r k (.selected true) (stand r p (selectedState s))) := by
  have hst := stand_start hs.1 hs.2
  have := run_select_from (r := r) (k := k) (s := s) hk hp .start (by rw [hst]; exact h)
  rwa [hst] at this

theorem ffs_succ (n : Nat) : ffs (n + 1) = 0xFF :: ffs n := by simp [ffs, List.replicate_succ]

section
variable {r : Run} {go : Label → Ret → State → State} {left : Nat} {k : Label} {s : State}

theorem advance_poll_hit (h : s.nextByte ≠ 0xFF) :
    advance r go (.poll left k) s = go k (.polled (some s.nextByte)) (busByte 0xFF s) := by
  simp only [advance]; rw [if_pos h]

theorem advance_poll_last (h : s.nextByte = 0xFF) (hl : left ≤ 1) :
    advance r go (.poll left k) s = go k (.polled none) (busByte 0xFF s) := by
  simp only [advance]; rw [if_neg (by simp [h]), if_pos hl]

theorem advance_poll_more (h : s.nextByte = 0xFF) (hl : 1 < left) :
    advance r go (.poll left k) s = stand r (.poll (left - 1) k) (busByte 0xFF s) := by
  simp only [advance]; rw [if_neg (by simp [h]), if_neg (by omega)]

end

/-- A poll whose first `n` bytes are FF and whose next is not. -/
theorem run_poll {i : Instr} {r : Run} {k : Label} (hk : standsAt i (.poll 0 k) = true) :
    ∀ (n left : Nat) (s : State), n < left → answers n s = ffs n → (busBytes (ffs n) s).nextByte ≠ 0xFF →
    ∃ p, controllerRun i (n + 1) (stand r (.poll left k) s) =
      .next (goOf i r k (.polled (some (busBytes (ffs n) s).nextByte)) (stand r p (busBytes (ffs (n + 1)) s)))
  | 0, left, s, _, _, hv => by
    refine ⟨.poll left k, ?_⟩
    rw [Nat.zero_add, controllerRun_one (exec_stand (by simp) (by simpa [standsAt] using hk)), advance_poll_hit (by exact hv)]
    simp [ffs, busBytes]
  | n + 1, left, s, hn, ha, hv => by
    rw [ffs_succ] at ha hv
    have hf : s.nextByte = 0xFF := by simp only [answers, List.cons.injEq] at ha; exact ha.1
    have ha' : answers n (busByte 0xFF s) = ffs n := by
      rw [answers_busByte]; simp only [answers, List.cons.injEq] at ha; exact ha.2
    obtain ⟨p, h⟩ := run_poll hk n (left - 1) (busByte 0xFF s) (by omega) ha' hv
    refine ⟨p, ?_⟩
    rw [Nat.add_comm, controllerRun_one_add (exec_stand (by simp) (by simpa [standsAt] using hk)),
      advance_poll_more (by exact hf) (by omega), stand_pos, busByte_stand, stand_stand, h, Nat.add_comm 1, ffs_succ (n + 1)]
    rfl

/-- A poll that sees FF only. -/
theorem run_poll_none {i : Instr} {r : Run} {k : Label} (hk : standsAt i (.poll 0 k) = true) :
    ∀ (n : Nat) (s : State), answers (n + 1) s = ffs (n + 1) →
    ∃ p, controllerRun i (n + 1) (stand r (.poll (n + 1) k) s) =
      .next (goOf i r k (.polled none) (stand r p (busBytes (ffs (n + 1)) s)))
  | 0, s, ha => by
    refine ⟨.poll 1 k, ?_⟩
    have hf : s.nextByte = 0xFF := by simp only [answers, ffs_succ, List.cons.injEq] at ha; exact ha.1
    rw [Nat.zero_add, controllerRun_one (exec_stand (by simp) (by simpa [standsAt] using hk)),
      advance_poll_last (by exact hf) (by omega)]
    simp [ffs, busBytes]
  | n + 1, s, ha => by
    rw [ffs_succ] at ha
    have hf : s.nextByte = 0xFF := by simp only [answers, List.cons.injEq] at ha; exact ha.1
    have ha' : answers (n + 1) (busByte 0xFF s) = ffs (n + 1) := by
      rw [answers_busByte]; rw [answers, List.cons.injEq] at ha; exact ha.2
    obtain ⟨p, h⟩ := run_poll_none (r := r) hk n (busByte 0xFF s) ha'
    refine ⟨p, ?_⟩
    rw [Nat.add_comm (n + 1) 1, controllerRun_one_add (exec_stand (by simp) (by simpa [standsAt] using hk)),
      advance_poll_more (by exact hf) (by omega), stand_pos, busByte_stand, stand_stand, show 1 + (n + 1) - 1 = n + 1 by omega, h,
      Nat.add_comm 1, ffs_succ (n + 1)]
    rfl

/-- A poll as the first thing a command does, whose first `n` bytes are FF and whose next is not. -/
theorem run_poll_first {i : Instr} {r : Run} {k : Label} {s : State} (hs : starts s r)
    (hk : standsAt i (.poll 0 k) = true) {n left : Nat} (hn : n < left) (ha : answers n s = ffs n)
    (hv : (busBytes (ffs n) s).nextByte ≠ 0xFF) (h : exec i s = .next (advance r (goOf i r) (.poll left k) s)) :
    ∃ p, controllerRun i (n + 1) s =
      .next (goOf i r k (.polled (some (busBytes (ffs n) s).nextByte)) (stand r p (busBytes (ffs (n + 1)) s))) := by
  cases n with
  | zero =>
    refine ⟨.start, ?_⟩
    rw [Nat.zero_add, controllerRun_one h, advance_poll_hit (by exact hv)]
    simp only [ffs, List.replicate, busBytes, ← busByte_stand, stand_start hs.1 hs.2]
  | succ n =>
    rw [ffs_succ] at ha hv
    have hf : s.nextByte = 0xFF := by simp only [answers, List.cons.injEq] at ha; exact ha.1
    have ha' : answers n (busByte 0xFF s) = ffs n := by
      rw [answers_busByte]; simp only [answers, List.cons.injEq] at ha; exact ha.2
    obtain ⟨p, hp⟩ := run_poll (r := r) hk n (left - 1) (busByte 0xFF s) (by omega) ha' hv
    refine ⟨p, ?_⟩
    rw [Nat.add_comm, controllerRun_one_add h, advance_poll_more hf (by omega), hp, Nat.add_comm 1, ffs_succ (n + 1)]
    rfl

/-- A poll as the first thing a command does, that sees FF only. -/
theorem run_poll_none_first {i : Instr} {r : Run} {k : Label} {s : State} (hs : starts s r)
    (hk : standsAt i (.poll 0 k) = true) {n : Nat} (ha : answers (n + 1) s = ffs (n + 1))
    (h : exec i s = .next (advance r (goOf i r) (.poll (n + 1) k) s)) :
    ∃ p, controllerRun i (n + 1) s =
      .next (goOf i r k (.polled none) (stand r p (busBytes (ffs (n + 1)) s))) := by
  have hf : s.nextByte = 0xFF := by rw [ffs_succ] at ha; simp only [answers, List.cons.injEq] at ha; exact ha.1
  cases n with
  | zero =>
    refine ⟨.start, ?_⟩
    rw [Nat.zero_add, controllerRun_one h, advance_poll_last hf (by omega)]
    simp only [ffs, List.replicate, busBytes, ← busByte_stand, stand_start hs.1 hs.2]
  | succ n =>
    have ha' : answers (n + 1) (busByte 0xFF s) = ffs (n + 1) := by
      rw [ffs_succ] at ha; rw [answers_busByte]; rw [answers, List.cons.injEq] at ha; exact ha.2
    obtain ⟨p, hp⟩ := run_poll_none (r := r) hk n (busByte 0xFF s) ha'
    refine ⟨p, ?_⟩
    rw [Nat.add_comm (n + 1) 1, controllerRun_one_add h, advance_poll_more hf (by omega),
      show n + 1 + 1 - 1 = n + 1 by omega, hp, Nat.add_comm 1, ffs_succ (n + 1)]
    rfl

/-! ## What a transfer and a select keep -/

@[simp] theorem busBytes_keeps (tx : List Byte) (s : State) :
    (busBytes tx s).arg0 = s.arg0 ∧ (busBytes tx s).arg1 = s.arg1 ∧ (busBytes tx s).arg2 = s.arg2 ∧
    (busBytes tx s).result = s.result ∧ (busBytes tx s).resumeEn = s.resumeEn ∧
    (busBytes tx s).pollLimit = s.pollLimit ∧ (busBytes tx s).romid0 = s.romid0 ∧
    (busBytes tx s).romid1 = s.romid1 ∧ (busBytes tx s).done = s.done ∧ (busBytes tx s).ovr = s.ovr ∧
    (busBytes tx s).denied = s.denied ∧ (busBytes tx s).presence = s.presence ∧ (busBytes tx s).err = s.err ∧
    (busBytes tx s).speed = s.speed ∧ (busBytes tx s).pdur = s.pdur ∧ (busBytes tx s).pwrDur = s.pwrDur ∧
    (busBytes tx s).lastSel = s.lastSel ∧ (busBytes tx s).resumeArmed = s.resumeArmed ∧
    (busBytes tx s).spValid = s.spValid ∧ (busBytes tx s).spTA = s.spTA ∧ (busBytes tx s).spES = s.spES ∧
    (busBytes tx s).owner = s.owner ∧ (busBytes tx s).banks = s.banks ∧ (busBytes tx s).data = s.data ∧
    (busBytes tx s).seq = s.seq ∧ (busBytes tx s).cfg = s.cfg ∧ (busBytes tx s).sched = s.sched ∧
    (busBytes tx s).presences = s.presences ∧ (busBytes tx s).portLog = s.portLog := by
  induction tx generalizing s with
  | nil => simp [busBytes]
  | cons t tx ih => simpa [busBytes] using ih (busByte t s)

@[simp] theorem busBytes_romid (tx : List Byte) (s : State) : (busBytes tx s).romid = s.romid := by simp [State.romid]
@[simp] theorem busBytes_prof (tx : List Byte) (b : Nat) (s : State) : (busBytes tx s).prof b = s.prof b := by
  simp [State.prof]
@[simp] theorem busBytes_desc (tx : List Byte) (b : Nat) (s : State) : (busBytes tx s).desc b = s.desc b := by
  simp [State.desc]

@[simp] theorem selectedFor_sets (b : Nat) (s : State) :
    (selectedFor b s).lastSel = some s.romid ∧ (selectedFor b s).resumeArmed = true ∧
    (selectedFor b s).spValid = (s.spValid && s.lastSel == some s.romid) ∧
    (selectedFor b s).banks = s.banks.modify b (fun bs => { bs with verified := true }) := by
  simp [selectedFor, selectedState, State.romid]

@[simp] theorem selectedFor_keeps (b : Nat) (s : State) :
    (selectedFor b s).arg0 = s.arg0 ∧ (selectedFor b s).arg1 = s.arg1 ∧ (selectedFor b s).arg2 = s.arg2 ∧
    (selectedFor b s).result = s.result ∧ (selectedFor b s).resumeEn = s.resumeEn ∧
    (selectedFor b s).pollLimit = s.pollLimit ∧ (selectedFor b s).romid0 = s.romid0 ∧
    (selectedFor b s).romid1 = s.romid1 ∧ (selectedFor b s).done = s.done ∧ (selectedFor b s).ovr = s.ovr ∧
    (selectedFor b s).denied = s.denied ∧ (selectedFor b s).err = s.err ∧ (selectedFor b s).speed = s.speed ∧
    (selectedFor b s).pdur = s.pdur ∧ (selectedFor b s).pwrDur = s.pwrDur ∧ (selectedFor b s).spTA = s.spTA ∧
    (selectedFor b s).spES = s.spES ∧ (selectedFor b s).owner = s.owner ∧ (selectedFor b s).data = s.data ∧
    (selectedFor b s).seq = s.seq ∧ (selectedFor b s).cfg = s.cfg ∧ (selectedFor b s).sched = s.sched ∧
    (selectedFor b s).portLog = s.portLog := by
  simp [selectedFor, selectedState]

@[simp] theorem selectedFor_prof (b c : Nat) (s : State) : (selectedFor b s).prof c = s.prof c := by
  simp [State.prof]
@[simp] theorem selectedFor_desc (b c : Nat) (s : State) : (selectedFor b s).desc c = s.desc c := by
  simp [State.desc]

/-- `selectFor` that found a device goes on from `selectedFor b s` (rule R152). -/
@[simp] theorem afterSelect_selected (r : Run) (p : Pos) (b : Nat) (v : Word) (s : State) (k : State → State) :
    afterSelect b true v (stand r p (selectedState s)) k = k (stand r p (selectedFor b s)) := by
  simp [afterSelect, selectedFor]

/-- A run of `m` steps that stands before a transfer, and the transfer after it. -/
theorem run_then_xfer {i : Instr} {r : Run} {k : Label} {s u : State} {m : Nat} {tx : List Byte}
    (h : controllerRun i m s = .next (stand r (.xfer tx [] k) u)) (hk : standsAt i (.xfer [] [] k) = true)
    (htx : tx ≠ []) :
    ∃ p, controllerRun i (m + tx.length) s =
      .next (goOf i r k (.received (answers tx.length u)) (stand r p (busBytes tx u))) := by
  obtain ⟨p, hp⟩ := run_xfer (r := r) hk tx [] u htx
  exact ⟨p, by rw [controllerRun_add i m _ s _ h, hp, List.nil_append]⟩

/-! ## One OTP frame -/

/-- One frame of an OTP flow after its select: what follows takes the value the profile decodes (rules R321, R322). -/
theorem run_otpFrame {i : Instr} {r : Run} {b : Nat} {stp : OtpAt → OtpStep} {after : OtpAt → Half → State → State}
    {a : OtpAt} {s s0 : State} {m : Nat} (hgo : ∀ k ret u, goOf i r k ret u = otpGo b stp after r k ret u)
    (ho : owns i (.otpFrame a) = true)
    (h : ∃ p, controllerRun i m s0 = .next (goOf i r (.otpSel a) (.selected true) (stand r p (selectedState s)))) :
    let tx := otpFrame (s.prof b) (stp a).kind (stp a).page (stp a).arg
    ∃ p, controllerRun i (m + tx.length) s0 = .next
      (otpDecoded b (stp a).kind (answers tx.length (selectedFor b s)) (stand r p (busBytes tx (selectedFor b s)))
        (after a)) := by
  obtain ⟨p, h⟩ := h
  rw [hgo] at h
  simp only [otpGo, afterSelect_selected, prof_stand, selectedFor_prof] at h
  exact run_sendFrame (f := fun rx u => otpDecoded b (stp a).kind rx u (after a)) h
    (by simp [standsAt, ho, Label.prim]) (fun _ => rfl) (fun _ _ => by rw [hgo]; rfl)

end Sys2Proof.Machine
end

