-- ==== Sys2Proof/Laws/Closed.lean ====
section
/-! SUPPORT. What one controller step can do, said once for all commands: `exec_closed`. A property of states that every
elementary update keeps, before (`P`) and at the end of (`Q`) a controller step, holds after the step. The structure's fields
say which command may make which update. -/

namespace Sys2Proof.Machine

/-- The commands that write DATA (rule R88). -/
def writesData : Instr → Bool
  | .dataBlock => true
  | .spRead _ => true
  | .mbRead _ _ => true
  | .mbReadPageCrc _ _ _ => true
  | .mbReadPacket _ => true
  | _ => false

/-- `P` is kept by every elementary update a controller step of `i` makes on its way, and `Q` is reached from `P` by the
update that ends the step. -/
structure StepClosed (i : Instr) (r : Run) (P Q : State → Prop) : Prop where
  stay : ∀ s, P s → Q s
  stand : ∀ p s, P s → standsAt i p = true → Q (stand r p s)
  finish : ∀ c v s, P s → Q (finish c v s)
  raise : ∀ e v s, P s → Q (raise e v s)
  finishData : writesData i = true → ∀ v off d s, (∀ b, i = .spRead b → v ≠ 0xFFFFFFFF) → P s →
    Q (Machine.finish .ok v (memWrite off d s))
  dropSelection : ∀ s, P s → P (dropSelection s)
  noteSelected : ∀ s, P s → P (noteSelected s)
  verified : ∀ b v s, i.bank? = some b → P s → P (setVerified b v s)
  scratch : ∀ v ta es s, P s → P { s with spValid := v, spTA := ta, spES := es }
  arm : ∀ b s, P s → P (armForCopy b s)
  speed : i = .setSpeed → ∀ m s, P s →
    P { s with speed := m, banks := s.banks.map fun bs => { bs with verified := false } }
  pdur : i = .pwrSetDuration → ∀ d s, P s → P { s with pdur := d }
  pwrNow : i = .pwrStart → ∀ s, P s → P (startPullup { endPullup s with pwrDur := s.pdur })
  pwrNext : i = .pwrStart → ∀ s, P s → P { s with pwrArmed := true, pwrDur := s.pdur }
  pwrNormal : i = .pwrNormal → ∀ s, P s → P { endPullup s with pwrArmed := false }
  protect : ∀ b, i = .mbWriteProtect b → ∀ s, P s → P (setBank b (fun bs => { bs with readOnly := true }) s)
  lock : ∀ b, i = .otpLock b → ∀ p s, P s → P (setPageLocked b p s)
  lockRedirect : ∀ b, i = .otpLockRedirect b → ∀ p s, P s → P (setRedirectLocked b p s)
  commit : ∀ b, i = .mbWrite b ∨ i = .mbWritePacket b → ∀ x n s, P s → P (commitPages b x n s)

variable {i : Instr} {r : Run} {P Q : State → Prop} {b : Nat} {s t : State}

/-! ## The shared operations -/

theorem runCommand_next {start : Run → State → Result} {go : Run → Label → Ret → State → State}
    (hs : s.seq = .run r) (h : runCommand i start go s = .next t) :
    (r.pos = .start ∧ start r s = .next t) ∨
    (r.pos ≠ .start ∧ standsAt i r.pos = true ∧ t = advance r (go r) r.pos s) := by
  unfold runCommand at h
  rw [hs] at h
  cases hp : r.pos with
  | start => simp only [hp] at h; exact .inl ⟨rfl, h⟩
  | _ =>
    simp only [hp] at h
    split at h
    · next hst => exact .inr ⟨by simp, hst, (Host.Outcome.next.inj h).symm⟩
    · cases h

theorem advance_closed {go : Label → Ret → State → State} (hc : StepClosed i r P Q)
    (hgo : ∀ k ret s, owns i k = true → P s → Q (go k ret s))
    (h0 : P s) (hR : P (busReset s)) (hB : ∀ tx, P (busByte tx s))
    {p : Pos} (hp : standsAt i p = true) : Q (advance r go p s) := by
  cases p with
  | start => exact hc.stay _ h0
  | reset k =>
    have hk : owns i k = true := by simp only [standsAt, Bool.and_eq_true] at hp; exact hp.1
    simp only [advance]
    split
    · exact hc.stand _ _ hR (by simpa [standsAt] using hp)
    · exact hgo _ _ _ hk (hc.dropSelection _ hR)
  | address tx k =>
    have hk : owns i k = true := by simp only [standsAt, Bool.and_eq_true] at hp; exact hp.1
    match tx with
    | [] => exact hgo _ _ _ hk (hc.noteSelected _ h0)
    | [t] => exact hgo _ _ _ hk (hc.noteSelected _ (hB t))
    | t :: u :: rest => exact hc.stand _ _ (hB t) (by simpa [standsAt] using hp)
  | xfer tx rx k =>
    have hk : owns i k = true := by simp only [standsAt, Bool.and_eq_true] at hp; exact hp.1
    match tx with
    | [] => exact hgo _ _ _ hk h0
    | [t] => exact hgo _ _ _ hk (hB t)
    | t :: u :: rest => exact hc.stand _ _ (hB t) (by simpa [standsAt] using hp)
  | poll left k =>
    have hk : owns i k = true := by simp only [standsAt, Bool.and_eq_true] at hp; exact hp.1
    simp only [advance]
    split
    · exact hgo _ _ _ hk (hB _)
    · split
      · exact hgo _ _ _ hk (hB _)
      · exact hc.stand _ _ (hB _) (by simpa [standsAt] using hp)
  | power k =>
    have hk : owns i k = true := by simp only [standsAt, Bool.and_eq_true] at hp; exact hp.1
    simp only [advance]
    split
    · exact hc.stay _ h0
    · exact hgo _ _ _ hk h0

theorem afterSelect_closed (hc : StepClosed i r P Q) (hb : i.bank? = some b) (h : P s) {found : Bool}
    {v : Word} {k : State → State} (hk : ∀ s, P s → Q (k s)) : Q (afterSelect b found v s k) := by
  unfold afterSelect
  split
  · exact hk _ (hc.verified _ _ _ hb h)
  · exact hc.raise _ _ _ (hc.verified _ _ _ hb h)

theorem startPoll_closed (hc : StepClosed i r P Q) (h : P s) {k : Label} {f : State → State}
    (hk : standsAt i (.poll s.pollLimit.toNat k) = true) (hf : Q (f s)) : Q (startPoll r k f s) := by
  unfold startPoll
  split
  · exact hf
  · exact hc.stand _ _ h hk

theorem copyGo_closed (hc : StepClosed i r P Q) (h : P s) {mk : CopyAt → Label} {f : Option Byte → State → State}
    (hown : ∀ c, owns i (mk c) = true ∧ (mk c).prim = c.prim) (hf : ∀ v s, P s → Q (f v s)) (c : CopyAt) (ret : Ret) :
    Q (copyGo r b mk f c ret s) := by
  have hpoll : ∀ n, standsAt i (.poll n (mk .poll)) = true := fun n => by
    simp [standsAt, (hown .poll).1, (hown .poll).2, CopyAt.prim]
  unfold copyGo
  split
  · exact hc.stand _ _ (hc.arm _ _ h) (by simp [standsAt, (hown .last).1, (hown .last).2, CopyAt.prim])
  · exact hc.stand _ _ h (by simp [standsAt, (hown .power).1, (hown .power).2, CopyAt.prim])
  · exact startPoll_closed hc h (hpoll _) (hf _ _ h)
  · exact startPoll_closed hc h (hpoll _) (hf _ _ h)
  · exact hf _ _ h
  · exact hc.stay _ h

theorem sendCopy_closed (hc : StepClosed i r P Q) (h : P s) {mk : CopyAt → Label} {tx : List Byte}
    (hown : ∀ c, owns i (mk c) = true ∧ (mk c).prim = c.prim) : Q (sendCopy r b mk tx s) := by
  unfold sendCopy
  split
  · exact hc.stand _ _ h (by simp [standsAt, (hown (.body _)).1, (hown (.body _)).2, CopyAt.prim])
  · exact hc.stand _ _ h (by simp [standsAt, (hown .whole).1, (hown .whole).2, CopyAt.prim])

theorem dropScratchpad_closed (hc : StepClosed i r P Q) (h : P s) : P (dropScratchpad s) :=
  hc.scratch false s.spTA s.spES s h

theorem bankChecked_next {k : Result} (h : bankChecked b s k = .next t) :
    t = Machine.raise .rangeError 0 s ∨ k = .next t := by
  unfold bankChecked at h
  split at h
  · exact .inr h
  · exact .inl (Host.Outcome.next.inj h).symm

theorem withRead_next {off n : Nat} {k : List Byte → Result} (h : withRead off n s k = .next t) :
    ∃ d, s.data.read off n = some d ∧ k d = .next t := by
  unfold withRead at h
  split at h
  · exact ⟨_, ‹_›, h⟩
  · cases h

/-! ## The continuations of the commands -/

theorem selectGo_closed (hc : StepClosed .select r P Q) (k : Label) (ret : Ret) (s : State)
    (_ : owns .select k = true) (h : P s) : Q (selectGo r k ret s) := by
  unfold selectGo
  split
  · exact hc.finish _ _ _ h
  · exact hc.stay _ h

theorem dataBlockGo_closed (hc : StepClosed .dataBlock r P Q) (k : Label) (ret : Ret) (s : State)
    (_ : owns .dataBlock k = true) (h : P s) : Q (dataBlockGo r k ret s) := by
  unfold dataBlockGo
  split
  · exact hc.finishData rfl _ _ _ _ (fun _ hb => by cases hb) h
  · exact hc.stay _ h

theorem pollEnd_closed (hc : StepClosed i r P Q) (v : Option Byte) (s : State) (h : P s) : Q (pollEnd v s) := by
  unfold pollEnd
  split
  · exact hc.finish _ _ _ h
  · exact hc.finish _ _ _ h

theorem pollGo_closed (hc : StepClosed .poll r P Q) (k : Label) (ret : Ret) (s : State)
    (_ : owns .poll k = true) (h : P s) : Q (pollGo r k ret s) := by
  unfold pollGo
  split
  · exact pollEnd_closed hc _ _ h
  · exact hc.stay _ h

theorem spEraseGo_closed (hc : StepClosed (.spErase b) r P Q) (k : Label) (ret : Ret) (s : State)
    (_ : owns (.spErase b) k = true) (h : P s) : Q (spEraseGo b r k ret s) := by
  unfold spEraseGo
  split
  · exact afterSelect_closed hc rfl h fun s h => hc.stand _ _ h rfl
  · have h' := dropScratchpad_closed hc h
    dsimp only
    split
    · exact hc.raise _ _ _ h'
    · split
      · exact startPoll_closed hc h' rfl (hc.finish _ _ _ h')
      · exact hc.finish _ _ _ h'
  · split <;> exact hc.finish _ _ _ h
  · exact hc.stay _ h

theorem spWriteGo_closed (hc : StepClosed (.spWrite b) r P Q) (k : Label) (ret : Ret) (s : State)
    (_ : owns (.spWrite b) k = true) (h : P s) : Q (spWriteGo b r k ret s) := by
  unfold spWriteGo
  split
  · exact afterSelect_closed hc rfl h fun s h => hc.stand _ _ h rfl
  · have h' := hc.scratch false r.argTA s.spES s h
    dsimp only
    split
    · exact hc.raise _ _ _ (hc.verified _ _ _ rfl h')
    · exact hc.finish _ _ _ h'
  · exact hc.stay _ h

/-- The length of a read-back is never the result -1 (rules R245, R246). -/
theorem count_readLen (v : Byte) : count (readLen v) ≠ 0xFFFFFFFF := by
  intro h
  have := congrArg BitVec.toNat h
  simp [count, readLen] at this
  omega

theorem spReadGo_closed (hc : StepClosed (.spRead b) r P Q) (k : Label) (ret : Ret) (s : State)
    (_ : owns (.spRead b) k = true) (h : P s) : Q (spReadGo b r k ret s) := by
  unfold spReadGo
  split
  · exact afterSelect_closed hc rfl h fun s h => hc.stand _ _ h rfl
  · exact hc.stand _ _ h rfl
  · unfold spReadEnd
    dsimp only
    split
    · exact hc.finish _ _ _ (hc.verified _ _ _ rfl (dropScratchpad_closed hc h))
    · exact hc.finishData rfl _ _ _ _ (fun _ _ => count_readLen _) (hc.scratch _ _ _ _ h)
  · exact hc.stay _ h

theorem copySelected_closed (hc : StepClosed i r P Q) {mk : CopyAt → Label} {mac : List Byte}
    (hown : ∀ c, owns i (mk c) = true ∧ (mk c).prim = c.prim) (s : State) (h : P s) :
    Q (copySelected r b mk mac s) := by
  unfold copySelected
  split
  · exact sendCopy_closed hc (dropScratchpad_closed hc h) hown
  · exact hc.raise _ _ _ h

theorem spCopyGo_closed (hc : StepClosed (.spCopy b) r P Q) (k : Label) (ret : Ret) (s : State)
    (_ : owns (.spCopy b) k = true) (h : P s) : Q (spCopyGo b r k ret s) := by
  unfold spCopyGo
  split
  · exact afterSelect_closed hc rfl h (copySelected_closed hc fun _ => ⟨rfl, rfl⟩)
  · exact copyGo_closed hc h (fun _ => ⟨rfl, rfl⟩) (pollEnd_closed hc) _ _
  · exact hc.stay _ h

theorem macEnd_closed (hc : StepClosed i r P Q) (hb : i.bank? = some b) (v : Option Byte) (s : State) (h : P s) :
    Q (macEnd b v s) := by
  unfold macEnd
  split
  · exact hc.raise _ _ _ (hc.verified _ _ _ hb h)
  · split
    · exact hc.finish _ _ _ h
    · exact hc.raise _ _ _ (hc.verified _ _ _ hb h)

theorem spCopyMacGo_closed (hc : StepClosed (.spCopyMac b) r P Q) (k : Label) (ret : Ret) (s : State)
    (_ : owns (.spCopyMac b) k = true) (h : P s) : Q (spCopyMacGo b r k ret s) := by
  unfold spCopyMacGo
  split
  · exact afterSelect_closed hc rfl h (copySelected_closed hc fun _ => ⟨rfl, rfl⟩)
  · exact copyGo_closed hc h (fun _ => ⟨rfl, rfl⟩) (macEnd_closed hc rfl) _ _
  · exact hc.stay _ h

theorem mbReadGo_closed {rc : Bool} (hc : StepClosed (.mbRead b rc) r P Q) (k : Label) (ret : Ret) (s : State)
    (_ : owns (.mbRead b rc) k = true) (h : P s) : Q (mbReadGo b r k ret s) := by
  unfold mbReadGo
  split
  · exact afterSelect_closed hc rfl h fun s h => hc.stand _ _ h rfl
  · exact hc.finishData rfl _ _ _ _ (fun _ hb => by cases hb) h
  · exact hc.stay _ h

theorem mbReadPageCrcGo_closed {rc xi : Bool} (hc : StepClosed (.mbReadPageCrc b rc xi) r P Q) (k : Label)
    (ret : Ret) (s : State) (_ : owns (.mbReadPageCrc b rc xi) k = true) (h : P s) :
    Q (mbReadPageCrcGo b xi r k ret s) := by
  unfold mbReadPageCrcGo
  split
  · exact afterSelect_closed hc rfl h fun s h => hc.stand _ _ h rfl
  · unfold pageCrcEnd
    dsimp only
    split
    · exact hc.raise _ _ _ (hc.verified _ _ _ rfl h)
    · exact hc.finishData rfl _ _ _ _ (fun _ hb => by cases hb) h
  · exact hc.stay _ h

theorem mbReadPacketGo_closed (hc : StepClosed (.mbReadPacket b) r P Q) (k : Label) (ret : Ret) (s : State)
    (_ : owns (.mbReadPacket b) k = true) (h : P s) : Q (mbReadPacketGo b r k ret s) := by
  unfold mbReadPacketGo
  split
  · exact afterSelect_closed hc rfl h fun s h => hc.stand _ _ h rfl
  · have hbad : Q (Machine.raise .integrityError 0 (forceVerify b s)) :=
      hc.raise _ _ _ (hc.verified _ _ _ rfl h)
    unfold packetEnd
    dsimp only
    split
    · exact hbad
    · split
      · exact hbad
      · split
        · exact hbad
        · exact hc.finishData rfl _ _ _ _ (fun _ hb => by cases hb) h
  · exact hc.stay _ h

theorem nextChunk_closed (hc : StepClosed i r P Q) (hown : ∀ w a, owns i (.range w a) = true) (w : WriteRun)
    (h : P s) : Q (nextChunk r b w s) := by
  unfold nextChunk
  split
  · exact hc.finish _ _ _ h
  · split
    · exact hc.stand _ _ h (by simp [standsAt, hown, Label.prim])
    · split <;> exact hc.stand _ _ h (by simp [standsAt, hown, Label.prim])

theorem chunkDone_closed (hc : StepClosed i r P Q) (hown : ∀ w a, owns i (.range w a) = true)
    (hi : i = .mbWrite b ∨ i = .mbWritePacket b) (w : WriteRun) (h : P s) : Q (chunkDone r b w s) :=
  nextChunk_closed hc hown _ (hc.commit _ hi _ _ _ h)

theorem chunkPolled_closed (hc : StepClosed i r P Q) (hown : ∀ w a, owns i (.range w a) = true)
    (hi : i = .mbWrite b ∨ i = .mbWritePacket b) (w : WriteRun) (v : Option Byte) (s : State) (h : P s) :
    Q (chunkPolled r b w v s) := by
  unfold chunkPolled
  split
  · exact hc.finish _ _ _ h
  · exact chunkDone_closed hc hown hi _ h

theorem directEnd_closed (hc : StepClosed i r P Q) (hown : ∀ w a, owns i (.range w a) = true)
    (hi : i = .mbWrite b ∨ i = .mbWritePacket b) (hb : i.bank? = some b) (w : WriteRun) (tx rx : List Byte)
    (h : P s) : Q (directEnd r b w tx rx s) := by
  unfold directEnd
  split
  · exact chunkDone_closed hc hown hi _ h
  · exact hc.raise _ _ _ (hc.verified _ _ _ hb h)

theorem rangeGo_closed (hc : StepClosed i r P Q) (hown : ∀ w a, owns i (.range w a) = true)
    (hi : i = .mbWrite b ∨ i = .mbWritePacket b) (hb : i.bank? = some b) (k : Label) (ret : Ret) (s : State)
    (h : P s) : Q (rangeGo b r k ret s) := by
  have hst : ∀ p s, P s → standsAt i p = true → Q (stand r p s) := hc.stand
  unfold rangeGo
  split
  · exact afterSelect_closed hc hb h fun s h => hst _ _ h (by simp [standsAt, hown, Label.prim])
  · have h' := dropScratchpad_closed hc h
    dsimp only
    split
    · exact hc.raise _ _ _ h'
    · split
      · exact startPoll_closed hc h' (by simp [standsAt, hown, Label.prim]) (hc.finish _ _ _ h')
      · exact hst _ _ h' (by simp [standsAt, hown, Label.prim])
  · split
    · exact hc.finish _ _ _ h
    · exact hst _ _ h (by simp [standsAt, hown, Label.prim])
  · exact afterSelect_closed hc hb h fun s h => hst _ _ h (by simp [standsAt, hown, Label.prim])
  · dsimp only
    split
    · exact hc.raise _ _ _ (hc.verified _ _ _ hb (hc.scratch false _ s.spES s h))
    · exact hst _ _ (hc.scratch false _ s.spES s h) (by simp [standsAt, hown, Label.prim])
  · exact afterSelect_closed hc hb h fun s h => hst _ _ h (by simp [standsAt, hown, Label.prim])
  · exact hst _ _ h (by simp [standsAt, hown, Label.prim])
  · split
    · exact hst _ _ (hc.scratch _ _ _ _ h) (by simp [standsAt, hown, Label.prim])
    · exact hc.raise _ _ _ (hc.verified _ _ _ hb h)
  · exact afterSelect_closed hc hb h fun s h =>
      sendCopy_closed hc (dropScratchpad_closed hc h) fun _ => ⟨hown _ _, rfl⟩
  · exact copyGo_closed hc h (fun _ => ⟨hown _ _, rfl⟩) (chunkPolled_closed hc hown hi _) _ _
  · refine afterSelect_closed hc hb h fun s h => ?_
    dsimp only [sendFrame]
    split
    · exact directEnd_closed hc hown hi hb _ _ _ h
    · exact hst _ _ h (by simp [standsAt, hown, Label.prim])
  · exact directEnd_closed hc hown hi hb _ _ _ h
  · exact hc.stay _ h

theorem mbCheckSpeedGo_closed (hc : StepClosed (.mbCheckSpeed b) r P Q) (k : Label) (ret : Ret) (s : State)
    (_ : owns (.mbCheckSpeed b) k = true) (h : P s) : Q (mbCheckSpeedGo b r k ret s) := by
  unfold mbCheckSpeedGo
  split
  · exact afterSelect_closed hc rfl h fun s h => hc.finish _ _ _ h
  · exact hc.stay _ h

theorem otpGo_closed (hc : StepClosed i r P Q) (hb : i.bank? = some b) {stp : OtpAt → OtpStep}
    {after : OtpAt → Half → State → State}
    (hown : ∀ a, owns i (.otpFrame a) = owns i (.otpSel a))
    (hafter : ∀ a v s, owns i (.otpSel a) = true → P s → Q (after a v s)) (k : Label) (ret : Ret) (s : State)
    (hk : owns i k = true) (h : P s) : Q (otpGo b stp after r k ret s) := by
  have hdec : ∀ kind rx a s, owns i (.otpSel a) = true → P s → Q (otpDecoded b kind rx s (after a)) := by
    intro kind rx a s ha h
    unfold otpDecoded
    split
    · exact hc.raise _ _ _ (hc.verified _ _ _ hb h)
    · exact hafter _ _ _ ha h
  unfold otpGo
  split
  · refine afterSelect_closed hc hb h fun s h => ?_
    unfold sendFrame
    split
    · exact hdec _ _ _ _ hk h
    · exact hc.stand _ _ h (by simp [standsAt, hown, hk, Label.prim])
  · exact hdec _ _ _ _ (hown _ ▸ hk) h
  · exact hc.stay _ h

theorem lockAfter_closed (hc : StepClosed (.otpLock b) r P Q) (a : OtpAt) (v : Half) (s : State)
    (_ : owns (.otpLock b) (.otpSel a) = true) (h : P s) : Q (lockAfter b r a v s) := by
  unfold lockAfter
  split
  · split
    · exact hc.finish _ _ _ (hc.lock _ rfl _ _ h)
    · exact hc.stand _ _ h rfl
  · exact hc.stand _ _ h rfl
  · split
    · exact hc.raise _ _ _ (hc.verified _ _ _ rfl h)
    · exact hc.finish _ _ _ (hc.lock _ rfl _ _ h)

theorem lockRedirectAfter_closed (hc : StepClosed (.otpLockRedirect b) r P Q) (a : OtpAt) (v : Half) (s : State)
    (_ : owns (.otpLockRedirect b) (.otpSel a) = true) (h : P s) : Q (lockRedirectAfter b r a v s) := by
  unfold lockRedirectAfter
  split
  · split
    · exact hc.finish _ _ _ (hc.lockRedirect _ rfl _ _ h)
    · exact hc.stand _ _ h rfl
  · exact hc.stand _ _ h rfl
  · split
    · exact hc.raise _ _ _ (hc.verified _ _ _ rfl h)
    · exact hc.finish _ _ _ (hc.lockRedirect _ rfl _ _ h)

theorem redirectAfter_closed (hc : StepClosed (.otpRedirect b) r P Q) (a : OtpAt) (v : Half) (s : State)
    (_ : owns (.otpRedirect b) (.otpSel a) = true) (h : P s) : Q (redirectAfter b r a v s) := by
  unfold redirectAfter
  split
  · exact hc.stay _ h
  · exact hc.stand _ _ h rfl
  · split
    · exact hc.raise _ _ _ (hc.verified _ _ _ rfl h)
    · exact hc.finish _ _ _ h

/-! ## The first steps -/

/-- What a step from the start of a command, or from a later position, needs of the bus: `P` holds of the state itself and
after one bus step from it or from it with the selection dropped. -/
structure BusClosed (P : State → Prop) (s : State) : Prop where
  self : P s
  reset : P (busReset s)
  byte : ∀ tx, P (busByte tx s)
  rawReset : P (busReset (dropSelection s))
  rawByte : ∀ tx, P (busByte tx (dropSelection s))

theorem otpChecked_next {kinds : List OtpKind} {k : Result} (h : otpChecked b kinds r s k = .next t) :
    (∃ e, t = Machine.raise e 0 s) ∨ k = .next t := by
  unfold otpChecked at h
  rcases bankChecked_next h with h | h
  · exact .inl ⟨_, h⟩
  · split at h
    · exact .inl ⟨_, (Host.Outcome.next.inj h).symm⟩
    · split at h
      · exact .inl ⟨_, (Host.Outcome.next.inj h).symm⟩
      · exact .inr h

theorem beginRange_closed (hc : StepClosed i r P Q) (hown : ∀ w a, owns i (.range w a) = true)
    (hi : i = .mbWrite b ∨ i = .mbWritePacket b) (hb : i.bank? = some b) (hs : BusClosed P s) {w : WriteRun}
    (h : beginRange r b w s = .next t) : Q t := by
  have hgo : ∀ k ret s, owns i k = true → P s → Q (rangeGo b r k ret s) :=
    fun k ret s _ => rangeGo_closed hc hown hi hb k ret s
  unfold beginRange at h
  split at h
  · cases h
    exact advance_closed hc hgo hs.self hs.reset hs.byte (by simp [standsAt, hown, Label.prim])
  · split at h <;> cases h <;>
      exact advance_closed hc hgo hs.self hs.reset hs.byte (by simp [standsAt, hown, Label.prim])

theorem noMore_closed (hc : StepClosed i r P Q) (k : Label) (ret : Ret) (s : State) (_ : owns i k = true)
    (h : P s) : Q (noMore r k ret s) := hc.stay _ h

/-- One controller step of any command: a property kept by every elementary update holds after it. -/
theorem exec_closed (hc : StepClosed i r P Q) (hs : s.seq = .run r) (hb : BusClosed P s)
    (h : exec i s = .next t) : Q t := by
  have go : ∀ {g : Run → Label → Ret → State → State} {p : Pos},
      (∀ k ret s, owns i k = true → P s → Q (g r k ret s)) → standsAt i p = true → Q (advance r (g r) p s) :=
    fun hg hp => advance_closed hc hg hb.self hb.reset hb.byte hp
  cases i with
  | nop =>
    change execNop s = .next t at h
    unfold execNop at h
    rcases runCommand_next hs h with ⟨_, h⟩ | ⟨_, hp, rfl⟩
    · cases h; exact hc.finish _ _ _ hb.self
    · exact go (noMore_closed hc) hp
  | reset =>
    change execReset s = .next t at h
    unfold execReset at h
    rcases runCommand_next hs h with ⟨_, h⟩ | ⟨_, hp, rfl⟩
    · cases h; exact hc.finish _ _ _ hb.rawReset
    · exact go (noMore_closed hc) hp
  | select =>
    change execSelect s = .next t at h
    unfold execSelect at h
    rcases runCommand_next hs h with ⟨_, h⟩ | ⟨_, hp, rfl⟩
    · cases h; exact go (selectGo_closed hc) rfl
    · exact go (selectGo_closed hc) hp
  | putByte =>
    change execPutByte s = .next t at h
    unfold execPutByte at h
    rcases runCommand_next hs h with ⟨_, h⟩ | ⟨_, hp, rfl⟩
    · cases h; exact hc.finish _ _ _ (hb.rawByte _)
    · exact go (noMore_closed hc) hp
  | getByte =>
    change execGetByte s = .next t at h
    unfold execGetByte at h
    rcases runCommand_next hs h with ⟨_, h⟩ | ⟨_, hp, rfl⟩
    · cases h; exact hc.finish _ _ _ (hb.rawByte _)
    · exact go (noMore_closed hc) hp
  | dataBlock =>
    change execDataBlock s = .next t at h
    unfold execDataBlock at h
    rcases runCommand_next hs h with ⟨_, h⟩ | ⟨_, hp, rfl⟩
    · unfold dataBlockStart at h
      split at h
      · cases h; exact hc.raise _ _ _ hb.self
      · split at h
        · cases h; exact hc.finish _ _ _ hb.self
        · obtain ⟨d, -, h⟩ := withRead_next h
          cases h
          cases d with
          | nil => simp only [advance]; exact dataBlockGo_closed hc .block _ _ rfl (hc.dropSelection _ hb.self)
          | cons d ds =>
            cases ds with
            | nil => simp only [advance]; exact dataBlockGo_closed hc .block _ _ rfl (hb.rawByte _)
            | cons => exact hc.stand _ _ (hb.rawByte _) rfl
    · exact go (dataBlockGo_closed hc) hp
  | setSpeed =>
    change execSetSpeed s = .next t at h
    unfold execSetSpeed at h
    rcases runCommand_next hs h with ⟨_, h⟩ | ⟨_, hp, rfl⟩
    · unfold setSpeedStart at h
      split at h
      · cases h; exact hc.raise _ _ _ hb.self
      · cases h; exact hc.finish _ _ _ (hc.speed rfl _ _ hb.self)
    · exact go (noMore_closed hc) hp
  | getSpeed =>
    change execGetSpeed s = .next t at h
    unfold execGetSpeed at h
    rcases runCommand_next hs h with ⟨_, h⟩ | ⟨_, hp, rfl⟩
    · cases h; exact hc.finish _ _ _ hb.self
    · exact go (noMore_closed hc) hp
  | pwrSetDuration =>
    change execPwrSetDuration s = .next t at h
    unfold execPwrSetDuration at h
    rcases runCommand_next hs h with ⟨_, h⟩ | ⟨_, hp, rfl⟩
    · unfold pwrSetDurationStart at h
      split at h
      · cases h; exact hc.raise _ _ _ hb.self
      · split at h
        · cases h; exact hc.raise _ _ _ hb.self
        · cases h; exact hc.finish _ _ _ (hc.pdur rfl _ _ hb.self)
    · exact go (noMore_closed hc) hp
  | pwrStart =>
    change execPwrStart s = .next t at h
    unfold execPwrStart at h
    rcases runCommand_next hs h with ⟨_, h⟩ | ⟨_, hp, rfl⟩
    · unfold pwrStartStart at h
      split at h
      · cases h; exact hc.raise _ _ _ hb.self
      · split at h
        · cases h; exact hc.raise _ _ _ hb.self
        · split at h
          · cases h; exact hc.finish _ _ _ (hc.pwrNow rfl _ hb.self)
          · cases h; exact hc.finish _ _ _ (hc.pwrNext rfl _ hb.self)
    · exact go (noMore_closed hc) hp
  | pwrNormal =>
    change execPwrNormal s = .next t at h
    unfold execPwrNormal at h
    rcases runCommand_next hs h with ⟨_, h⟩ | ⟨_, hp, rfl⟩
    · cases h; exact hc.finish _ _ _ (hc.pwrNormal rfl _ hb.self)
    · exact go (noMore_closed hc) hp
  | crc8 =>
    change execCrc8 s = .next t at h
    unfold execCrc8 at h
    rcases runCommand_next hs h with ⟨_, h⟩ | ⟨_, hp, rfl⟩
    · unfold crc8Start at h
      split at h
      · cases h; exact hc.raise _ _ _ hb.self
      · obtain ⟨d, -, h⟩ := withRead_next h
        cases h; exact hc.finish _ _ _ hb.self
    · exact go (noMore_closed hc) hp
  | crc16 =>
    change execCrc16 s = .next t at h
    unfold execCrc16 at h
    rcases runCommand_next hs h with ⟨_, h⟩ | ⟨_, hp, rfl⟩
    · unfold crc16Start at h
      split at h
      · cases h; exact hc.raise _ _ _ hb.self
      · obtain ⟨d, -, h⟩ := withRead_next h
        cases h; exact hc.finish _ _ _ hb.self
    · exact go (noMore_closed hc) hp
  | spErase b =>
    change execSpErase b s = .next t at h
    unfold execSpErase at h
    rcases runCommand_next hs h with ⟨_, h⟩ | ⟨_, hp, rfl⟩
    · rcases bankChecked_next h with rfl | h
      · exact hc.raise _ _ _ hb.self
      · split at h
        · cases h; exact hc.raise _ _ _ hb.self
        · split at h
          · cases h; exact hc.raise _ _ _ hb.self
          · cases h; exact go (spEraseGo_closed hc) rfl
    · exact go (spEraseGo_closed hc) hp
  | spWrite b =>
    change execSpWrite b s = .next t at h
    unfold execSpWrite at h
    rcases runCommand_next hs h with ⟨_, h⟩ | ⟨_, hp, rfl⟩
    · rcases bankChecked_next h with rfl | h
      · exact hc.raise _ _ _ hb.self
      · repeat (first | (obtain ⟨d, -, h⟩ := withRead_next h; cases h; exact go (spWriteGo_closed hc) rfl)
                      | (split at h; · cases h; exact hc.raise _ _ _ hb.self))
    · exact go (spWriteGo_closed hc) hp
  | spRead b =>
    change execSpRead b s = .next t at h
    unfold execSpRead at h
    rcases runCommand_next hs h with ⟨_, h⟩ | ⟨_, hp, rfl⟩
    · rcases bankChecked_next h with rfl | h
      · exact hc.raise _ _ _ hb.self
      · split at h
        · cases h; exact hc.raise _ _ _ hb.self
        · split at h
          · cases h; exact hc.raise _ _ _ hb.self
          · cases h; exact go (spReadGo_closed hc) rfl
    · exact go (spReadGo_closed hc) hp
  | spCopy b =>
    change execSpCopy b s = .next t at h
    unfold execSpCopy at h
    rcases runCommand_next hs h with ⟨_, h⟩ | ⟨_, hp, rfl⟩
    · rcases bankChecked_next h with rfl | h
      · exact hc.raise _ _ _ hb.self
      · split at h
        · cases h; exact hc.raise _ _ _ hb.self
        · split at h
          · cases h; exact hc.raise _ _ _ hb.self
          · cases h; exact go (spCopyGo_closed hc) rfl
    · exact go (spCopyGo_closed hc) hp
  | spCopyMac b =>
    change execSpCopyMac b s = .next t at h
    unfold execSpCopyMac at h
    rcases runCommand_next hs h with ⟨_, h⟩ | ⟨_, hp, rfl⟩
    · rcases bankChecked_next h with rfl | h
      · exact hc.raise _ _ _ hb.self
      · repeat (first | (obtain ⟨d, -, h⟩ := withRead_next h; cases h; exact go (spCopyMacGo_closed hc) rfl)
                      | (split at h; · cases h; exact hc.raise _ _ _ hb.self))
    · exact go (spCopyMacGo_closed hc) hp
  | poll =>
    change execPoll s = .next t at h
    unfold execPoll at h
    rcases runCommand_next hs h with ⟨_, h⟩ | ⟨_, hp, rfl⟩
    · unfold pollStart at h
      split at h
      · cases h; exact pollEnd_closed hc _ _ hb.self
      · cases h; exact go (pollGo_closed hc) rfl
    · exact go (pollGo_closed hc) hp
  | mbRead b rc =>
    change execMbRead b rc s = .next t at h
    unfold execMbRead at h
    rcases runCommand_next hs h with ⟨_, h⟩ | ⟨_, hp, rfl⟩
    · rcases bankChecked_next h with rfl | h
      · exact hc.raise _ _ _ hb.self
      · split at h
        · cases h; exact hc.raise _ _ _ hb.self
        · split at h
          · cases h; exact hc.raise _ _ _ hb.self
          · split at h
            · cases h; exact hc.finish _ _ _ hb.self
            · split at h <;> cases h <;> exact go (mbReadGo_closed hc) rfl
    · exact go (mbReadGo_closed hc) hp
  | mbWrite b =>
    change execMbWrite b s = .next t at h
    unfold execMbWrite at h
    have hgo : ∀ k ret s, owns (.mbWrite b) k = true → P s → Q (rangeGo b r k ret s) :=
      fun k ret s _ => rangeGo_closed hc (fun _ _ => rfl) (.inl rfl) rfl k ret s
    rcases runCommand_next hs h with ⟨_, h⟩ | ⟨_, hp, rfl⟩
    · rcases bankChecked_next h with rfl | h
      · exact hc.raise _ _ _ hb.self
      · repeat (first
          | (obtain ⟨d, -, h⟩ := withRead_next h
             exact beginRange_closed hc (fun _ _ => rfl) (.inl rfl) rfl hb h)
          | (split at h; · cases h; exact hc.raise _ _ _ hb.self))
    · exact go hgo hp
  | mbReadPageCrc b rc xi =>
    change execMbReadPageCrc b rc xi s = .next t at h
    unfold execMbReadPageCrc at h
    rcases runCommand_next hs h with ⟨_, h⟩ | ⟨_, hp, rfl⟩
    · rcases bankChecked_next h with rfl | h
      · exact hc.raise _ _ _ hb.self
      · split at h
        · cases h; exact hc.raise _ _ _ hb.self
        · split at h
          · cases h; exact hc.raise _ _ _ hb.self
          · split at h
            · cases h; exact hc.raise _ _ _ hb.self
            · split at h
              · cases h; exact hc.raise _ _ _ hb.self
              · split at h <;> cases h <;> exact go (mbReadPageCrcGo_closed hc) rfl
    · exact go (mbReadPageCrcGo_closed hc) hp
  | mbReadPacket b =>
    change execMbReadPacket b s = .next t at h
    unfold execMbReadPacket at h
    rcases runCommand_next hs h with ⟨_, h⟩ | ⟨_, hp, rfl⟩
    · rcases bankChecked_next h with rfl | h
      · exact hc.raise _ _ _ hb.self
      · split at h
        · cases h; exact hc.raise _ _ _ hb.self
        · split at h
          · cases h; exact hc.raise _ _ _ hb.self
          · cases h; exact go (mbReadPacketGo_closed hc) rfl
    · exact go (mbReadPacketGo_closed hc) hp
  | mbWritePacket b =>
    change execMbWritePacket b s = .next t at h
    unfold execMbWritePacket at h
    have hgo : ∀ k ret s, owns (.mbWritePacket b) k = true → P s → Q (rangeGo b r k ret s) :=
      fun k ret s _ => rangeGo_closed hc (fun _ _ => rfl) (.inr rfl) rfl k ret s
    rcases runCommand_next hs h with ⟨_, h⟩ | ⟨_, hp, rfl⟩
    · rcases bankChecked_next h with rfl | h
      · exact hc.raise _ _ _ hb.self
      · repeat (first
          | (obtain ⟨d, -, h⟩ := withRead_next h
             exact beginRange_closed hc (fun _ _ => rfl) (.inr rfl) rfl hb h)
          | (split at h; · cases h; exact hc.raise _ _ _ hb.self))
    · exact go hgo hp
  | mbCheckSpeed b =>
    change execMbCheckSpeed b s = .next t at h
    unfold execMbCheckSpeed at h
    rcases runCommand_next hs h with ⟨_, h⟩ | ⟨_, hp, rfl⟩
    · rcases bankChecked_next h with rfl | h
      · exact hc.raise _ _ _ hb.self
      · cases h; exact go (mbCheckSpeedGo_closed hc) rfl
    · exact go (mbCheckSpeedGo_closed hc) hp
  | mbForceVerify b =>
    change execMbForceVerify b s = .next t at h
    unfold execMbForceVerify at h
    rcases runCommand_next hs h with ⟨_, h⟩ | ⟨_, hp, rfl⟩
    · rcases bankChecked_next h with rfl | h
      · exact hc.raise _ _ _ hb.self
      · cases h; exact hc.finish _ _ _ (hc.verified _ _ _ rfl hb.self)
    · exact go (noMore_closed hc) hp
  | mbWriteProtect b =>
    change execMbWriteProtect b s = .next t at h
    unfold execMbWriteProtect at h
    rcases runCommand_next hs h with ⟨_, h⟩ | ⟨_, hp, rfl⟩
    · rcases bankChecked_next h with rfl | h
      · exact hc.raise _ _ _ hb.self
      · cases h; exact hc.finish _ _ _ (hc.protect _ rfl _ hb.self)
    · exact go (noMore_closed hc) hp
  | otpLock b =>
    change execOtpLock b s = .next t at h
    unfold execOtpLock at h
    have hgo : ∀ k ret s, owns (.otpLock b) k = true → P s → Q (otpLockGo b r k ret s) :=
      otpGo_closed hc rfl (fun _ => rfl) (lockAfter_closed hc)
    rcases runCommand_next hs h with ⟨_, h⟩ | ⟨_, hp, rfl⟩
    · rcases otpChecked_next h with ⟨e, rfl⟩ | h
      · exact hc.raise _ _ _ hb.self
      · split at h
        · cases h; exact hc.raise _ _ _ hb.self
        · cases h; exact go hgo rfl
    · exact go hgo hp
  | otpIsLocked b =>
    change execOtpIsLocked b s = .next t at h
    unfold execOtpIsLocked at h
    have hgo : ∀ k ret s, owns (.otpIsLocked b) k = true → P s → Q (otpIsLockedGo b r k ret s) :=
      otpGo_closed hc rfl (fun _ => rfl) (fun _ _ _ _ h => hc.finish _ _ _ h)
    rcases runCommand_next hs h with ⟨_, h⟩ | ⟨_, hp, rfl⟩
    · rcases otpChecked_next h with ⟨e, rfl⟩ | h
      · exact hc.raise _ _ _ hb.self
      · cases h; exact go hgo rfl
    · exact go hgo hp
  | otpRedirect b =>
    change execOtpRedirect b s = .next t at h
    unfold execOtpRedirect at h
    have hgo : ∀ k ret s, owns (.otpRedirect b) k = true → P s → Q (otpRedirectGo b r k ret s) :=
      otpGo_closed hc rfl (fun _ => rfl) (redirectAfter_closed hc)
    rcases runCommand_next hs h with ⟨_, h⟩ | ⟨_, hp, rfl⟩
    · rcases otpChecked_next h with ⟨e, rfl⟩ | h
      · exact hc.raise _ _ _ hb.self
      · split at h
        · cases h; exact hc.raise _ _ _ hb.self
        · split at h
          · cases h; exact hc.raise _ _ _ hb.self
          · cases h; exact go hgo rfl
    · exact go hgo hp
  | otpGetRedirect b =>
    change execOtpGetRedirect b s = .next t at h
    unfold execOtpGetRedirect at h
    have hgo : ∀ k ret s, owns (.otpGetRedirect b) k = true → P s → Q (otpGetRedirectGo b r k ret s) :=
      otpGo_closed hc rfl (fun _ => rfl) (fun _ _ _ _ h => hc.finish _ _ _ h)
    rcases runCommand_next hs h with ⟨_, h⟩ | ⟨_, hp, rfl⟩
    · rcases otpChecked_next h with ⟨e, rfl⟩ | h
      · exact hc.raise _ _ _ hb.self
      · cases h; exact go hgo rfl
    · exact go hgo hp
  | otpLockRedirect b =>
    change execOtpLockRedirect b s = .next t at h
    unfold execOtpLockRedirect at h
    have hgo : ∀ k ret s, owns (.otpLockRedirect b) k = true → P s → Q (otpLockRedirectGo b r k ret s) :=
      otpGo_closed hc rfl (fun _ => rfl) (lockRedirectAfter_closed hc)
    rcases runCommand_next hs h with ⟨_, h⟩ | ⟨_, hp, rfl⟩
    · rcases otpChecked_next h with ⟨e, rfl⟩ | h
      · exact hc.raise _ _ _ hb.self
      · split at h
        · cases h; exact hc.raise _ _ _ hb.self
        · cases h; exact go hgo rfl
    · exact go hgo hp
  | otpIsRedirectLocked b =>
    change execOtpIsRedirectLocked b s = .next t at h
    unfold execOtpIsRedirectLocked at h
    have hgo : ∀ k ret s, owns (.otpIsRedirectLocked b) k = true → P s → Q (otpIsRedirectLockedGo b r k ret s) :=
      otpGo_closed hc rfl (fun _ => rfl) (fun _ _ _ _ h => hc.finish _ _ _ h)
    rcases runCommand_next hs h with ⟨_, h⟩ | ⟨_, hp, rfl⟩
    · rcases otpChecked_next h with ⟨e, rfl⟩ | h
      · exact hc.raise _ _ _ hb.self
      · cases h; exact go hgo rfl
    · exact go hgo hp

/-- A field that no elementary update of command `i` changes is unchanged by a controller step of it. -/
theorem exec_keeps {α : Type} (f : State → α) {i : Instr} {s t : State}
    (hf : ∀ r, StepClosed i r (fun u => f u = f s) (fun u => f u = f s))
    (hR : ∀ u, f u = f s → f (busReset u) = f s) (hB : ∀ tx u, f u = f s → f (busByte tx u) = f s)
    (h : exec i s = .next t) : f t = f s := by
  obtain ⟨r, hs⟩ := exec_next_run h
  exact exec_closed (hf r) hs ⟨rfl, hR _ rfl, fun tx => hB tx _ rfl, hR _ ((hf r).dropSelection _ rfl),
    fun tx => hB tx _ ((hf r).dropSelection _ rfl)⟩ h

end Sys2Proof.Machine
end

