-- ==== Sys2Proof/Laws/Encoding.lean ====
section
/-! SUPPORT. The bits of an encoded command, field by field, and of a word packed from four bytes. -/

namespace Sys2Proof

theorem getLsbD_fields (xi rc : Bool) (bank : BitVec 4) (op : BitVec 8) (k : Nat) :
    ((0 : BitVec 18) ++ BitVec.ofBool xi ++ BitVec.ofBool rc ++ bank ++ op).getLsbD k =
      if k < 8 then op.getLsbD k
      else if k < 12 then bank.getLsbD (k - 8)
      else if k = 12 then rc
      else if k = 13 then xi
      else false := by
  rw [BitVec.getLsbD_append, BitVec.getLsbD_append, BitVec.getLsbD_append, BitVec.getLsbD_append]
  by_cases h1 : k < 8
  · simp [h1]
  · by_cases h2 : k < 12
    · have : k - 8 < 4 := by omega
      simp [h1, h2, this]
    · have h2' : ¬ k - 8 < 4 := by omega
      by_cases h3 : k = 12
      · subst h3; simp
      · by_cases h4 : k = 13
        · subst h4; simp
        · have : ¬ k - 8 - 4 < 1 := by omega
          have : ¬ k - 8 - 4 - 1 < 1 := by omega
          have : ¬ k - 8 - 4 = 0 := by omega
          have : ¬ k - 8 - 4 - 1 = 0 := by omega
          simp [*]

theorem getLsbD_bytes (b0 b1 b2 b3 : Byte) (k : Nat) :
    (b3 ++ b2 ++ b1 ++ b0).getLsbD k =
      if k < 8 then b0.getLsbD k
      else if k < 16 then b1.getLsbD (k - 8)
      else if k < 24 then b2.getLsbD (k - 16)
      else b3.getLsbD (k - 24) := by
  rw [BitVec.getLsbD_append, BitVec.getLsbD_append, BitVec.getLsbD_append]
  by_cases h1 : k < 8
  · simp [h1]
  · by_cases h2 : k < 16
    · have : k - 8 < 8 := by omega
      simp [h1, h2, this]
    · have : ¬ k - 8 < 8 := by omega
      by_cases h3 : k < 24
      · have : k - 8 - 8 < 8 := by omega
        simp [*]; congr 1
      · have : ¬ k - 8 - 8 < 8 := by omega
        simp [*]; congr 1

theorem wordOfBytes_extract (w : Word) :
    wordOfBytes (w.extractLsb' 0 8) (w.extractLsb' 8 8) (w.extractLsb' 16 8) (w.extractLsb' 24 8) = w := by
  apply BitVec.eq_of_getLsbD_eq
  intro k hk
  refine (getLsbD_bytes _ _ _ _ k).trans ?_
  simp only [BitVec.getLsbD_extractLsb']
  split
  · simp [*]
  · split
    · have : k - 8 < 8 := by omega
      simp [this]; congr 1; omega
    · split
      · have : k - 16 < 8 := by omega
        simp [this]; congr 1; omega
      · have : k - 24 < 8 := by omega
        simp [this]; congr 1; omega

section

variable (i : Instr)

theorem encode_getLsbD (k : Nat) : (encode i).getLsbD k =
    if k < 8 then i.opcode.getLsbD k
    else if k < 12 then (BitVec.ofNat 4 (i.bank?.getD 0)).getLsbD (k - 8)
    else if k = 12 then i.rcBit
    else if k = 13 then i.xiBit
    else false :=
  getLsbD_fields _ _ _ _ k

theorem encode_op : cmdOp (encode i) = i.opcode := by
  apply BitVec.eq_of_getLsbD_eq
  intro k hk
  simp only [cmdOp, BitVec.getLsbD_extractLsb', encode_getLsbD, Nat.zero_add, hk, decide_true, Bool.true_and, if_true]

theorem encode_bank (h : i.wf = true) : cmdBank (encode i) = i.bank?.getD 0 := by
  have : (encode i).extractLsb' 8 4 = BitVec.ofNat 4 (i.bank?.getD 0) := by
    apply BitVec.eq_of_getLsbD_eq
    intro k hk
    simp only [BitVec.getLsbD_extractLsb', encode_getLsbD, hk, decide_true, Bool.true_and]
    rw [if_neg (by omega), if_pos (by omega), Nat.add_sub_cancel_left]
  unfold cmdBank
  rw [this]
  unfold Instr.wf at h
  cases hb : i.bank? with
  | none => rfl
  | some b => rw [hb] at h; simp at h ⊢; omega

theorem encode_rc : cmdRc (encode i) = i.rcBit := by
  unfold cmdRc; rw [encode_getLsbD]; simp

theorem encode_xi : cmdXi (encode i) = i.xiBit := by
  unfold cmdXi; rw [encode_getLsbD]; simp

theorem encode_reserved : cmdReserved (encode i) = 0 := by
  apply BitVec.eq_of_getLsbD_eq
  intro k hk
  simp only [cmdReserved, BitVec.getLsbD_extractLsb', encode_getLsbD]
  rw [if_neg (by omega), if_neg (by omega), if_neg (by omega), if_neg (by omega)]; simp

end

end Sys2Proof
end

