-- ==== Sys2Proof/Laws/Flags.lean ====
section
/-! SUPPORT. The bits of the register words, one lemma per way of placing a field. -/

namespace Sys2Proof.Machine

theorem getLsbD_field {n : Nat} (v : BitVec n) (pos k : Nat) :
    (field v pos).getLsbD k = (decide (k < 32) && decide (pos ≤ k) && v.getLsbD (k - pos)) := by
  unfold field
  simp only [BitVec.getLsbD_shiftLeft, BitVec.getLsbD_setWidth]
  by_cases h1 : k < 32 <;> by_cases h2 : pos ≤ k
  · have : k - pos < 32 := by omega
    simp [h1, h2, this, Nat.not_lt.mpr h2]
  · simp [h1, h2, Nat.lt_of_not_le h2]
  · simp [h1]
  · simp [h1]

theorem getLsbD_bit (b : Bool) (pos k : Nat) :
    (bit b pos).getLsbD k = (decide (k < 32) && decide (k = pos) && b) := by
  unfold bit
  rw [getLsbD_field]
  by_cases h : k = pos
  · subst h; simp
  · by_cases h2 : pos ≤ k
    · have : ¬ k - pos = 0 := by omega
      simp [h, h2, this]
    · simp [h, h2]

theorem getLsbD_bankBits (f : BankState → Bool) (pos : Nat) (l : List BankState) (k : Nat) :
    (bankBits f pos l).getLsbD k = (decide (k < 32) && decide (pos ≤ k) && (l[k - pos]?.map f).getD false) := by
  induction l generalizing pos with
  | nil => simp [bankBits]
  | cons b l ih =>
    simp only [bankBits, BitVec.getLsbD_or, getLsbD_bit, ih]
    by_cases h1 : k < 32
    · by_cases h2 : k = pos
      · subst h2; simp [h1]
      · by_cases h3 : pos + 1 ≤ k
        · have : pos ≤ k := by omega
          rw [show k - pos = (k - (pos + 1)) + 1 by omega]
          simp [h1, h2, h3, this]
        · have : ¬ pos ≤ k := by omega
          simp [h2, h3, this]
    · simp [h1]

end Sys2Proof.Machine
end

