-- ==== Sys2Proof/Laws/Frames.lean ====
section
/-! SUPPORT. What a controller step leaves of one bank's state, and of the controller's other neighbours: `exec_keepsBank`
says under which command each part of `bankState[b]` may change. -/

namespace Sys2Proof.Machine

theorem apply_bankState_setBank {α : Type} (f : BankState → α) (g : BankState → BankState) (hfg : ∀ x, f (g x) = f x)
    (b c : Nat) (s : State) : f ((setBank b g s).bankState c) = f (s.bankState c) := by
  by_cases hc : c = b
  · subst hc
    by_cases hl : c < s.banks.length
    · rw [bankState_setBank _ _ hl, hfg]
    · rw [bankState_setBank_none _ _ (by omega)]
  · rw [bankState_setBank_other _ _ hc]

/-- Committing pages writes one bank, and only its committed pages. -/
theorem commitPages_cases (b x n : Nat) (s : State) :
    ∃ g : BankState → BankState, (∀ y, g y = { y with pageCommitted := (g y).pageCommitted }) ∧
      (∀ y p, p ∈ y.pageCommitted → p ∈ (g y).pageCommitted) ∧
      (commitPages b x n s = s ∨ commitPages b x n s = setBank b g s) := by
  refine ⟨fun bs => { bs with
    pageCommitted := (pagesTouched (s.desc b) x n).foldl (fun l p => insertPage p l) bs.pageCommitted },
    fun _ => rfl, fun y p hp => mem_foldl_insertPage.mpr (.inl hp), ?_⟩
  unfold commitPages
  split
  · exact .inr rfl
  · exact .inl rfl

theorem bankState_congr {s t : State} (h : s.banks = t.banks) (b : Nat) : s.bankState b = t.bankState b := by
  simp [State.bankState, h]

theorem apply_bankState_setSpeed {α : Type} (f : BankState → α) (b : Nat) (m : Speed) (s : State)
    (hf : ∀ x v, f { x with verified := v } = f x) :
    f (State.bankState { s with speed := m, banks := s.banks.map fun bs => { bs with verified := false } } b) =
      f (s.bankState b) := by
  simp only [State.bankState, List.getD_eq_getElem?_getD, List.getElem?_map]
  cases hq : s.banks[b]? with
  | none => simp
  | some x => simp [hf]

/-- What a controller step keeps of bank `b`: whatever no update of the command may change there. -/
theorem exec_keepsBank {α : Type} (f : BankState → α) (b : Nat) {i : Instr} {s t : State} (h : exec i s = .next t)
    (hv : ∀ c, i.bank? = some c → c = b → ∀ x v, f { x with verified := v } = f x)
    (hsp : i = .setSpeed → ∀ x v, f { x with verified := v } = f x)
    (hro : ∀ c, i = .mbWriteProtect c → c = b → ∀ x v, f { x with readOnly := v } = f x)
    (hlk : ∀ c, i = .otpLock c → c = b → ∀ x v, f { x with pageLocked := v } = f x)
    (hrl : ∀ c, i = .otpLockRedirect c → c = b → ∀ x v, f { x with redirectLocked := v } = f x)
    (hcm : ∀ c, (i = .mbWrite c ∨ i = .mbWritePacket c) → c = b → ∀ x v, f { x with pageCommitted := v } = f x) :
    f (t.bankState b) = f (s.bankState b) := by
  have kb : ∀ (c : Nat) (g : BankState → BankState) (u : State), (c = b → ∀ x, f (g x) = f x) →
      f ((setBank c g u).bankState b) = f (u.bankState b) := by
    intro c g u hg
    by_cases hc : b = c
    · subst hc; exact apply_bankState_setBank f g (hg rfl) _ _ _
    · rw [bankState_setBank_other _ _ hc]
  refine exec_keeps (fun u => f (u.bankState b)) (fun r => ?_) (fun u hu => ?_) (fun tx u hu => ?_) h
  · constructor
    case verified => intro c v u hb hu; rw [setVerified, kb _ _ _ (fun hc x => hv c hb hc x v)]; exact hu
    case speed => intro hi m u hu; rw [apply_bankState_setSpeed f b m u (hsp hi)]; exact hu
    case protect => intro c hi u hu; rw [kb _ _ _ (fun hc x => hro c hi hc x _)]; exact hu
    case lock => intro c hi p u hu; rw [setPageLocked, kb _ _ _ (fun hc x => hlk c hi hc x _)]; exact hu
    case lockRedirect => intro c hi p u hu; rw [setRedirectLocked, kb _ _ _ (fun hc x => hrl c hi hc x _)]; exact hu
    case commit =>
      intro c hi x n u hu
      obtain ⟨g, hg, -, hh | hh⟩ := commitPages_cases c x n u
      · rw [hh]; exact hu
      · rw [hh, kb _ _ _ (fun hc y => by rw [hg y]; exact hcm c hi hc y _)]; exact hu
    all_goals intros
    all_goals first
      | assumption
      | (dsimp only; rw [bankState_congr (t := by assumption) (by simp)]; assumption)
  · rw [bankState_congr (t := u) (by simp)]; exact hu
  · rw [bankState_congr (t := u) (by simp)]; exact hu

end Sys2Proof.Machine
end

