-- ==== Sys2Proof/Laws/HostPort.lean ====
section
/-! SUPPORT. What a host access can do, said once: the three answers of `hostAccess`, and `writeReg_closed`, that a property
kept by every update an accepted write can make holds after it. And when a step of the controller is `exec`. -/

namespace Sys2Proof.Machine

theorem hostAccess_bad {a : Access} {s : State} (h : a.h < s.cfg.nhosts) (hok : a.ok = false) :
    hostAccess a s = .next (respond a { rdata := 0, err := true } s) := by
  unfold hostAccess
  rw [if_neg (by omega), if_pos (by simp [hok])]

theorem hostAccess_write {a : Access} {s : State} (h : a.h < s.cfg.nhosts) (hok : a.ok = true) (hw : a.we = true) :
    hostAccess a s = .next (respond a { rdata := writeRdata s, err := false } (writeReg a.h a.off a.wdata s)) := by
  unfold hostAccess
  rw [if_neg (by omega), if_neg (by simp [hok]), if_pos hw]

theorem hostAccess_read {a : Access} {s : State} {v : Word} (h : a.h < s.cfg.nhosts) (hok : a.ok = true)
    (hw : a.we = false) (hv : readReg s a.off = some v) :
    hostAccess a s = .next (respond a { rdata := v, err := false } s) := by
  unfold hostAccess
  rw [if_neg (by omega), if_neg (by simp [hok]), if_neg (by simp [hw])]
  simp only [hv]

theorem hostAccess_poison {a : Access} {s : State} (h : a.h < s.cfg.nhosts) (hok : a.ok = true)
    (hw : a.we = false) (hv : readReg s a.off = none) : hostAccess a s = .fault .poisonRead := by
  unfold hostAccess
  rw [if_neg (by omega), if_neg (by simp [hok]), if_neg (by simp [hw])]
  simp only [hv]

/-- The next states of a host access: a response alone, or a write and its response. -/
theorem hostAccess_next {a : Access} {s t : State} (h : hostAccess a s = .next t) :
    a.h < s.cfg.nhosts ∧
    ((∃ resp, t = respond a resp s) ∨
      (a.ok = true ∧ a.we = true ∧ t = respond a { rdata := writeRdata s, err := false } (writeReg a.h a.off a.wdata s))) := by
  unfold hostAccess at h
  split at h
  · cases h
  · next hh =>
    refine ⟨by omega, ?_⟩
    split at h
    · cases h; exact .inl ⟨_, rfl⟩
    · next hok =>
      split at h
      · next hw => cases h; exact .inr ⟨by simpa using hok, hw, rfl⟩
      · split at h
        · cases h; exact .inl ⟨_, rfl⟩
        · cases h

theorem access_ok {a : Access} (h1 : a.size = .four) (h2 : a.off % 4 = 0) (h3 : a.off < 0x200) : a.ok = true := by
  simp only [Access.ok, h1, h2]
  simpa using h3

theorem readReg_below {s : State} {off : Nat} (h : off < 0x100) : ∃ v, readReg s off = some v := by
  unfold readReg
  split <;> first | exact ⟨_, rfl⟩ | (rw [if_pos h]; exact ⟨_, rfl⟩)

theorem readReg_data {s : State} {off : Nat} (h : 0x100 ≤ off) : readReg s off = dataWord s (off - 0x100) := by
  unfold readReg
  split <;> first | omega | rw [if_neg (by omega)]

theorem writeReg_data {h off : Nat} {w : Word} {s : State} (ho : 0x100 ≤ off) :
    writeReg h off w s = writePlain (memWrite (off - 0x100) (wordBytes w)) s := by
  unfold writeReg
  split <;> first | omega | rw [if_neg (by omega)]

/-- A property that every update of an accepted write keeps holds after it. -/
theorem writeReg_closed {P : State → Prop} {h off : Nat} {w : Word} {s : State} (hself : P s)
    (hovr : s.busy = true → P (overrun s))
    (haccept : off = 0 → s.busy = false → (s.owner = none ∨ s.owner = some h) → P (accept h w s))
    (hdenied : s.busy = false → P { s with denied := true })
    (harg0 : P { s with arg0 := w }) (harg1 : P { s with arg1 := w }) (harg2 : P { s with arg2 := w })
    (hconfig : P (setConfig w s)) (hrom0 : P { s with romid0 := w }) (hrom1 : P { s with romid1 := w })
    (hacquire : s.owner = none → P { s with owner := some h })
    (hrelease : P (dropSelection { s with owner := none }))
    (hdata : P (memWrite (off - 0x100) (wordBytes w) s)) : P (writeReg h off w s) := by
  have hplain : ∀ f : State → State, P (f s) → P (writePlain f s) := by
    intro f hf
    unfold writePlain
    split
    · next hb => exact hovr hb
    · exact hf
  unfold writeReg
  split
  · unfold writeCmd
    split
    · next hb => exact hovr hb
    · next hb =>
      split
      · next ho => exact haccept rfl (by simpa using hb) ho
      · exact hdenied (by simpa using hb)
  · exact hself
  · exact hplain _ harg0
  · exact hplain _ harg1
  · exact hplain _ harg2
  · exact hself
  · exact hplain _ hconfig
  · exact hself
  · exact hplain _ hrom0
  · exact hplain _ hrom1
  · unfold writeLock
    split
    · next hb => exact hovr hb
    · split
      · split
        · next ho => exact hacquire ho
        · exact hself
      · split
        · exact hrelease
        · exact hself
  · exact hself
  · exact hself
  · split
    · exact hself
    · exact hplain _ hdata

@[simp] theorem writeReg_portLog (h off : Nat) (w : Word) (s : State) : (writeReg h off w s).portLog = s.portLog := by
  refine writeReg_closed (P := fun t => t.portLog = s.portLog) ?_ ?_ ?_ ?_ ?_ ?_ ?_ ?_ ?_ ?_ ?_ ?_ ?_ <;>
    intros <;> simp [setConfig]

/-- The controller has a step unless its command is held at `PowerWait`. -/
theorem controllerEnabled_of {s : State} {r : Run} (hs : s.seq = .run r)
    (hp : (∃ k, r.pos = .power k) → s.pwrActive = false) : controllerEnabled s = true := by
  unfold controllerEnabled
  rw [hs]
  cases hpos : r.pos with
  | power k => simp [hpos, hp ⟨k, hpos⟩]
  | _ => simp [hpos]

theorem controllerStep_run {s : State} {r : Run} {i : Instr} (hs : s.seq = .run r)
    (hp : (∃ k, r.pos = .power k) → s.pwrActive = false) (hd : decode r.word = .ok i) : controllerStep s = exec i s := by
  unfold controllerStep
  rw [if_pos (controllerEnabled_of hs hp), hs]
  simp only [hd]

/-- What a step of the controller can answer when it answers a next state. -/
theorem controllerStep_next {s t : State} (h : controllerStep s = .next t) :
    t = s ∨ (∃ r i, s.seq = .run r ∧ decode r.word = .ok i ∧ exec i s = .next t) ∨
    (t = raise .illegalCommand 0 s ∧ ∃ r e, s.seq = .run r ∧ decode r.word = .error e) := by
  unfold controllerStep at h
  split at h
  · cases hs : s.seq with
    | idle => rw [hs] at h; cases h; exact .inl rfl
    | run r =>
      simp only [hs] at h
      split at h
      · next i hi => exact .inr (.inl ⟨r, i, rfl, hi, h⟩)
      · next e he => cases h; exact .inr (.inr ⟨rfl, r, e, rfl, he⟩)
  · cases h; exact .inl rfl

@[simp] theorem writeReg_banks (h off : Nat) (w : Word) (s : State) : (writeReg h off w s).banks = s.banks := by
  refine writeReg_closed (P := fun u => u.banks = s.banks) rfl ?_ ?_ ?_ ?_ ?_ ?_ ?_ ?_ ?_ ?_ ?_ ?_ <;> intros <;>
    simp [setConfig]

end Sys2Proof.Machine
end

