-- ==== Sys2Proof/Laws/Memory.lean ====
section
/-! SUPPORT. The laws of the DATA buffer: a read after a write, a write leaves other bytes alone, every operation keeps the
canonical form, and two canonical buffers that read alike are equal. -/

namespace Sys2Proof.Machine

namespace Memory

@[simp] theorem get_nil (a : Nat) : get [] a = none := rfl

@[simp] theorem get_put_same (m : Memory) (a : Nat) (v : Byte) : get (put m a v) a = some v := by
  induction m with
  | nil => simp [put, get]
  | cons e m ih =>
    obtain ⟨k, w⟩ := e
    simp only [put]
    split
    · simp [get]
    · split
      · simp [get]
      · next h1 h2 => simp [get, Ne.symm h2, ih]

theorem get_put_other (m : Memory) {a b : Nat} (v : Byte) (h : b ≠ a) : get (put m a v) b = get m b := by
  induction m with
  | nil => simp [put, get, Ne.symm h]
  | cons e m ih =>
    obtain ⟨k, w⟩ := e
    simp only [put]
    split
    · simp [get, Ne.symm h]
    · split
      · next h2 => subst h2; simp [get, Ne.symm h]
      · simp [get, ih]

theorem get_put (m : Memory) (a b : Nat) (v : Byte) :
    get (put m a v) b = if b = a then some v else get m b := by
  split
  · next h => subst h; simp
  · next h => exact get_put_other m v h

theorem risingFrom_put {m : Memory} {lo a : Nat} {v : Byte} (h : risingFrom lo m = true) (hlo : lo ≤ a)
    (ha : a < Config.bufSize) : risingFrom lo (put m a v) = true := by
  induction m generalizing lo with
  | nil => simpa [put, risingFrom] using ⟨hlo, ha⟩
  | cons e m ih =>
    obtain ⟨k, w⟩ := e
    simp only [risingFrom, Bool.and_eq_true, decide_eq_true_eq] at h
    obtain ⟨⟨h1, h2⟩, h3⟩ := h
    simp only [put]
    split
    · simp only [risingFrom, Bool.and_eq_true, decide_eq_true_eq]; exact ⟨⟨hlo, ha⟩, ⟨by omega, h2⟩, h3⟩
    · split
      · next h4 =>
        subst h4
        simp only [risingFrom, Bool.and_eq_true, decide_eq_true_eq]; exact ⟨⟨h1, h2⟩, h3⟩
      · simp only [risingFrom, Bool.and_eq_true, decide_eq_true_eq]
        exact ⟨⟨h1, h2⟩, ih h3 (by omega)⟩

theorem wf_put {m : Memory} {a : Nat} {v : Byte} (h : m.wf = true) (ha : a < Config.bufSize) :
    wf (put m a v) = true :=
  risingFrom_put h (Nat.zero_le _) ha

/-- `MemWrite` keeps the canonical form. -/
theorem wf_write {m : Memory} (h : m.wf = true) (off : Nat) (d : List Byte) : wf (m.write off d) = true := by
  induction d generalizing m off with
  | nil => exact h
  | cons b d ih =>
    simp only [write]
    split
    · next ho => exact ih (wf_put h ho) _
    · exact ih h _

/-- A byte below the written range keeps its value. -/
theorem get_write_below (m : Memory) (off : Nat) (d : List Byte) {a : Nat} (h : a < off) :
    get (m.write off d) a = get m a := by
  induction d generalizing m off with
  | nil => rfl
  | cons b d ih =>
    simp only [write]
    rw [ih _ _ (by omega)]
    split
    · exact get_put_other m b (by omega)
    · rfl

/-- A byte at or above the end of the written range keeps its value. -/
theorem get_write_above (m : Memory) (off : Nat) (d : List Byte) {a : Nat} (h : off + d.length ≤ a) :
    get (m.write off d) a = get m a := by
  induction d generalizing m off with
  | nil => rfl
  | cons b d ih =>
    simp only [List.length_cons] at h
    simp only [write]
    rw [ih _ _ (by omega)]
    split
    · exact get_put_other m b (by omega)
    · rfl

/-- A byte of the written range holds the byte written there. -/
theorem get_write_at (m : Memory) (off : Nat) (d : List Byte) {j : Nat} (hj : j < d.length)
    (h : off + j < Config.bufSize) : get (m.write off d) (off + j) = some d[j] := by
  induction d generalizing m off j with
  | nil => exact absurd hj (by simp)
  | cons b d ih =>
    simp only [write]
    cases j with
    | zero =>
      simp only [Nat.add_zero] at h ⊢
      rw [if_pos h, get_write_below _ _ _ (Nat.lt_succ_self off)]
      simp
    | succ j =>
      simp only [List.length_cons] at hj
      rw [show off + (j + 1) = off + 1 + j by omega, ih _ _ (by omega) (by omega)]
      simp

/-- `MemRead` answers exactly when every byte of the range holds a value. -/
theorem read_eq_some {m : Memory} {off n : Nat} {d : List Byte} :
    m.read off n = some d ↔ d.length = n ∧ ∀ j (h : j < d.length), get m (off + j) = some d[j] := by
  induction n generalizing off d with
  | zero =>
    simp only [read, Option.some.injEq]
    constructor
    · rintro rfl; simp
    · rintro ⟨h, -⟩; exact (List.length_eq_zero_iff.mp h).symm
  | succ n ih =>
    constructor
    · intro h
      simp only [read] at h
      split at h
      · next v bs h1 h2 =>
        obtain ⟨hl, hg⟩ := ih.mp h2
        cases h
        refine ⟨by simp [hl], fun j hj => ?_⟩
        cases j with
        | zero => simpa using h1
        | succ j =>
          simp only [List.length_cons] at hj
          have := hg j (by omega)
          rw [show off + (j + 1) = off + 1 + j by omega]; simpa using this
      · cases h
    · rintro ⟨hl, hg⟩
      cases d with
      | nil => simp at hl
      | cons v bs =>
        have h1 : get m off = some v := hg 0 (by simp)
        have h2 : m.read (off + 1) n = some bs := by
          refine ih.mpr ⟨by simpa using hl, fun j hj => ?_⟩
          have := hg (j + 1) (by simpa using hj)
          rw [show off + (j + 1) = off + 1 + j by omega] at this; simpa using this
        simp only [read, h1, h2]

/-- `MemRead` fails exactly when a byte of the range is poison. -/
theorem read_eq_none {m : Memory} {off n : Nat} :
    m.read off n = none ↔ ∃ j, j < n ∧ get m (off + j) = none := by
  induction n generalizing off with
  | zero => simp [read]
  | succ n ih =>
    simp only [read]
    constructor
    · intro h
      split at h
      · cases h
      · next hno =>
        cases h1 : get m off with
        | none => exact ⟨0, by omega, by simpa using h1⟩
        | some v =>
          cases h2 : m.read (off + 1) n with
          | none =>
            obtain ⟨j, hj, hg⟩ := ih.mp h2
            exact ⟨j + 1, by omega, by rw [show off + (j + 1) = off + 1 + j by omega]; exact hg⟩
          | some bs => exact absurd h2 (hno v bs h1)
    · rintro ⟨j, hj, hg⟩
      cases j with
      | zero => simp only [Nat.add_zero] at hg; simp [hg]
      | succ j =>
        have : m.read (off + 1) n = none :=
          ih.mpr ⟨j, by omega, by rw [show off + 1 + j = off + (j + 1) by omega]; exact hg⟩
        simp [this]

/-- No byte at or above BUF_SIZE is listed in a canonical buffer, and none below its lower bound. -/
theorem get_risingFrom {m : Memory} {lo a : Nat} (h : risingFrom lo m = true) (ha : a < lo) : get m a = none := by
  induction m generalizing lo with
  | nil => rfl
  | cons e m ih =>
    obtain ⟨k, w⟩ := e
    simp only [risingFrom, Bool.and_eq_true, decide_eq_true_eq] at h
    simp only [get]
    rw [if_neg (by omega)]
    exact ih h.2 (by omega)

/-- Equal memories are equal data: two canonical buffers that read alike everywhere are equal. -/
theorem ext_of_risingFrom {m n : Memory} {lo : Nat} (hm : risingFrom lo m = true) (hn : risingFrom lo n = true)
    (h : ∀ a, get m a = get n a) : m = n := by
  induction m generalizing n lo with
  | nil =>
    cases n with
    | nil => rfl
    | cons e n => obtain ⟨k, w⟩ := e; have := h k; simp [get] at this
  | cons e m ih =>
    obtain ⟨k, w⟩ := e
    cases n with
    | nil => have := h k; simp [get] at this
    | cons f n =>
      obtain ⟨l, x⟩ := f
      simp only [risingFrom, Bool.and_eq_true, decide_eq_true_eq] at hm hn
      have hkl : k = l := by
        rcases Nat.lt_trichotomy k l with hlt | heq | hgt
        · have := h k
          simp only [get, if_neg (show ¬ l = k by omega), ↓reduceIte] at this
          rw [get_risingFrom hn.2 (by omega)] at this; cases this
        · exact heq
        · have := h l
          simp only [get, if_neg (show ¬ k = l by omega), ↓reduceIte] at this
          rw [get_risingFrom hm.2 (by omega)] at this; cases this
      subst hkl
      have hwx : w = x := by have := h k; simpa [get] using this
      subst hwx
      have := ih hm.2 hn.2 fun a => by
        have ha := h a
        by_cases hk : k = a
        · subst hk; rw [get_risingFrom hm.2 (by omega), get_risingFrom hn.2 (by omega)]
        · simpa [get, hk] using ha
      rw [this]

theorem ext_of_wf {m n : Memory} (hm : m.wf = true) (hn : n.wf = true) (h : ∀ a, get m a = get n a) : m = n :=
  ext_of_risingFrom hm hn h

end Memory

end Sys2Proof.Machine
end

