-- ==== Sys2Proof/Laws/PerInstr.lean ====
section
/-! SUPPORT. Per instruction: the encoder and the decoder are written from the same table (rules R110, R112). Under the mask of
its table row, the word of a command is its opcode, and the decoder's map takes the command's fields back to it. -/

namespace Sys2Proof

/-- Under the mask 0xFFFFC0FF of every row of the table (OP and the reserved bits), a command's word is its opcode. -/
theorem encode_mask (i : Instr) : encode i &&& 0xFFFFC0FF = i.opcode.setWidth 32 := by
  apply BitVec.eq_of_getLsbD_eq
  intro k hk
  rw [BitVec.getLsbD_and, encode_getLsbD, BitVec.getLsbD_setWidth]
  have hm : ∀ k < 32, (0xFFFFC0FF : Word).getLsbD k = (decide (k < 8) || decide (14 ≤ k)) := by decide
  rw [hm k hk]
  by_cases h8 : k < 8
  · simp [h8, hk]
  · by_cases h14 : 14 ≤ k
    · have h : i.opcode.getLsbD k = false := BitVec.getLsbD_of_ge _ _ (by omega)
      rw [if_neg h8, if_neg (by omega), if_neg (by omega), if_neg (by omega), h]; simp
    · have h : i.opcode.getLsbD k = false := BitVec.getLsbD_of_ge _ _ (by omega)
      simp [h8, h14, h]

namespace Laws.TableWord

/-- The word of the command is its opcode under the table's mask, and the opcode map gives the command back. -/
def Statement (i : Instr) : Prop :=
  encode i &&& 0xFFFFC0FF = i.opcode.setWidth 32 ∧
    opcodeMap i.opcode (i.bank?.getD 0) i.rcBit i.xiBit = some i

theorem nop : Statement .nop := ⟨encode_mask _, rfl⟩
theorem reset : Statement .reset := ⟨encode_mask _, rfl⟩
theorem select : Statement .select := ⟨encode_mask _, rfl⟩
theorem putByte : Statement .putByte := ⟨encode_mask _, rfl⟩
theorem getByte : Statement .getByte := ⟨encode_mask _, rfl⟩
theorem dataBlock : Statement .dataBlock := ⟨encode_mask _, rfl⟩
theorem setSpeed : Statement .setSpeed := ⟨encode_mask _, rfl⟩
theorem getSpeed : Statement .getSpeed := ⟨encode_mask _, rfl⟩
theorem pwrSetDuration : Statement .pwrSetDuration := ⟨encode_mask _, rfl⟩
theorem pwrStart : Statement .pwrStart := ⟨encode_mask _, rfl⟩
theorem pwrNormal : Statement .pwrNormal := ⟨encode_mask _, rfl⟩
theorem crc8 : Statement .crc8 := ⟨encode_mask _, rfl⟩
theorem crc16 : Statement .crc16 := ⟨encode_mask _, rfl⟩
theorem spErase (b : Nat) : Statement (.spErase b) := ⟨encode_mask _, rfl⟩
theorem spWrite (b : Nat) : Statement (.spWrite b) := ⟨encode_mask _, rfl⟩
theorem spRead (b : Nat) : Statement (.spRead b) := ⟨encode_mask _, rfl⟩
theorem spCopy (b : Nat) : Statement (.spCopy b) := ⟨encode_mask _, rfl⟩
theorem spCopyMac (b : Nat) : Statement (.spCopyMac b) := ⟨encode_mask _, rfl⟩
theorem poll : Statement .poll := ⟨encode_mask _, rfl⟩
theorem mbRead (b : Nat) (rc : Bool) : Statement (.mbRead b rc) := ⟨encode_mask _, rfl⟩
theorem mbWrite (b : Nat) : Statement (.mbWrite b) := ⟨encode_mask _, rfl⟩
theorem mbReadPageCrc (b : Nat) (rc xi : Bool) : Statement (.mbReadPageCrc b rc xi) := ⟨encode_mask _, rfl⟩
theorem mbReadPacket (b : Nat) : Statement (.mbReadPacket b) := ⟨encode_mask _, rfl⟩
theorem mbWritePacket (b : Nat) : Statement (.mbWritePacket b) := ⟨encode_mask _, rfl⟩
theorem mbCheckSpeed (b : Nat) : Statement (.mbCheckSpeed b) := ⟨encode_mask _, rfl⟩
theorem mbForceVerify (b : Nat) : Statement (.mbForceVerify b) := ⟨encode_mask _, rfl⟩
theorem mbWriteProtect (b : Nat) : Statement (.mbWriteProtect b) := ⟨encode_mask _, rfl⟩
theorem otpLock (b : Nat) : Statement (.otpLock b) := ⟨encode_mask _, rfl⟩
theorem otpIsLocked (b : Nat) : Statement (.otpIsLocked b) := ⟨encode_mask _, rfl⟩
theorem otpRedirect (b : Nat) : Statement (.otpRedirect b) := ⟨encode_mask _, rfl⟩
theorem otpGetRedirect (b : Nat) : Statement (.otpGetRedirect b) := ⟨encode_mask _, rfl⟩
theorem otpLockRedirect (b : Nat) : Statement (.otpLockRedirect b) := ⟨encode_mask _, rfl⟩
theorem otpIsRedirectLocked (b : Nat) : Statement (.otpIsRedirectLocked b) := ⟨encode_mask _, rfl⟩

end Laws.TableWord

end Sys2Proof
end

