-- ==== Sys2Proof/Laws/Selects.lean ====
section
/-! SUPPORT. The select of a command, said once for its first step and for a later one: where `selecting` holds, the step is
the `BusReset` of that select (`exec_selecting`), and the run of a select that finds a device (`run_selecting`). Then where a copy and a poll begin. -/

namespace Sys2Proof.Machine

/-- Where a command selects is a place of its own pseudocode. -/
theorem selecting_standsAt {i : Instr} {r : Run} {s : State} {k : Label} (h : selecting i r s k) :
    standsAt i (.reset k) = true := by
  obtain ⟨-, ⟨-, hb, h⟩ | ⟨-, h⟩⟩ := h
  · cases i <;> simp only at h <;>
      first
      | exact h.elim
      | (subst h; rfl)
      | (obtain ⟨-, -, rfl⟩ := h; rfl)
      | (obtain ⟨-, -, -, rfl⟩ := h; rfl)
      | (obtain ⟨-, -, -, -, rfl⟩ := h; rfl)
      | (obtain ⟨-, -, -, -, -, rfl⟩ := h; rfl)
      | (obtain ⟨-, -, -, -, -, -, rfl⟩ := h; rfl)
      | (obtain ⟨-, -, -, -, -, _, -, rfl⟩ := h; unfold chunkStart; split <;> [rfl; (split <;> rfl)])
  · exact h

theorem needsMac_eq_false {p : Prof} (h : p.writeMode = .direct ∨ p.macCopy = false) : needsMac p = false := by
  rcases h with h | h <;> simp [needsMac, h]

/-- `writeRange` begins with the select of its first chunk. -/
theorem beginRange_eq (r : Run) (b : Nat) (w : WriteRun) (s : State) :
    beginRange r b w s = .next (advance r (rangeGo b r) (.reset (.range w (chunkStart (s.prof b)))) s) := by
  unfold beginRange chunkStart
  cases (s.prof b).writeMode
  · cases (s.prof b).eraseRequired <;> rfl
  · rfl

/-- A command whose checks pass begins with the `BusReset` of its first select (rule R356: the checks come first). -/
theorem startOf_selects {i : Instr} {r : Run} {s : State} {k : Label} (h : selectsFirst i r s k) :
    startOf i r s = .next (advance r (goOf i r) (.reset k) s) := by
  have hbf : Config.bufSize = 256 := rfl
  obtain ⟨hb, h⟩ := h
  have hbk : ∀ b, i.bank? = some b → ∀ x : Result, bankChecked b s x = x := by
    intro b hi x; unfold bankChecked; rw [if_pos (hb b hi)]
  have hrc : ∀ b rc, (rc = false ∨ (s.bankState b).verified = false) → rcEff b rc s = false := by
    intro b rc h; rcases h with h | h <;> simp [rcEff, h]
  have hotp : ∀ b ks x, i.bank? = some b → (∀ kk ∈ ks, kk ∈ (s.prof b).otpSupported) → r.a0.toNat < (s.desc b).numberPages →
     otpChecked b ks r s x = x := by
    intro b ks x hi hk hp
    unfold otpChecked
    rw [hbk b hi, if_neg (by simpa [otpSupported] using hk), if_neg (by simpa [Run.argA0] using hp)]
  cases i with
  | select => cases h; rfl
  | spErase b =>
    obtain ⟨h1, h2, h3, rfl⟩ := h
    show spEraseStart b r s = _
    unfold spEraseStart
    rw [hbk b rfl, if_neg (by simp [h1, h2]), if_neg (by simpa using (argTAFits_iff r).mpr h3)]; rfl
  | spWrite b =>
    obtain ⟨h1, h2, h3, h4, d, h5, rfl⟩ := h
    show spWriteStart b r s = _
    have hl : spWriteLen r = min r.argLen (32 - r.a0.toNat % 32) := by simp [spWriteLen]
    unfold spWriteStart
    rw [hbk b rfl, if_neg (by simp [h1]), if_neg (by simpa using (argTAFits_iff r).mpr h2), if_neg (by exact Nat.pos_iff_ne_zero.mp h3),
      if_neg (by rw [hl]; exact Nat.not_lt.mpr h4), hl]
    unfold withRead; rw [show s.data.read r.argOff (min r.argLen (32 - r.a0.toNat % 32)) = some d from h5]; rfl
  | spRead b =>
    obtain ⟨h1, h2, rfl⟩ := h
    show spReadStart b r s = _
    unfold spReadStart
    rw [hbk b rfl, if_neg (by simp [h1]), if_neg (by exact Nat.not_lt.mpr h2)]; rfl
  | spCopy b =>
    obtain ⟨h1, h2, h3, rfl⟩ := h
    show spCopyStart b r s = _
    unfold spCopyStart
    rw [hbk b rfl, if_neg (by simp [h1, h2]), if_neg (by simp [h3])]; rfl
  | spCopyMac b =>
    obtain ⟨h1, h2, h3, h4, mac, h5, rfl⟩ := h
    show spCopyMacStart b r s = _
    unfold spCopyMacStart
    rw [hbk b rfl, if_neg (by simp [h1, h2]), if_neg (by exact Nat.not_lt.mpr h3), if_neg (by simp [h4])]
    unfold withRead; rw [show s.data.read r.argOff 20 = some mac from h5]; rfl
  | mbRead b rc =>
    obtain ⟨h1, h2, h3, h4, rfl⟩ := h
    show mbReadStart b rc r s = _
    unfold mbReadStart
    rw [hbk b rfl, if_neg (by exact Nat.not_lt.mpr h1), if_neg (by exact Nat.not_lt.mpr h2), if_neg (by exact Nat.pos_iff_ne_zero.mp h3), hrc b rc h4]; rfl
  | mbWrite b =>
    obtain ⟨h1, h2, h3, h4, h5, d, h6, rfl⟩ := h
    show mbWriteStart b r s = _
    unfold mbWriteStart
    rw [hbk b rfl, needsMac_eq_false h1, if_neg (by simp), if_neg (by exact Nat.not_lt.mpr h2), if_neg (by exact Nat.not_lt.mpr h3),
      if_neg (by exact Nat.pos_iff_ne_zero.mp h4)]
    rw [show isProtected b r.argA0 r.argLen s = false from h5, if_neg (by simp)]
    unfold withRead; rw [show s.data.read r.argOff r.argLen = some d from h6]
    exact beginRange_eq r b _ s
  | mbReadPageCrc b rc xi =>
    obtain ⟨h1, h2, h3, h4, h5, rfl⟩ := h
    show mbReadPageCrcStart b rc xi r s = _
    unfold mbReadPageCrcStart
    have hx : storedExtra (s.desc b) xi = if xi && (s.desc b).hasExtraInfo then (s.desc b).extraInfoLength else 0 := by
      unfold storedExtra extraLen; cases xi <;> simp
    rw [hbk b rfl, if_neg (by simp [h1]), if_neg (by rcases h2 with h2 | h2 <;> simp [h2]), if_neg (by exact Nat.not_le.mpr h3),
      if_neg (by rw [hx]; exact Nat.not_lt.mpr h4), hrc b rc h5]; rfl
  | mbReadPacket b =>
    obtain ⟨h1, h2, rfl⟩ := h
    show mbReadPacketStart b r s = _
    unfold mbReadPacketStart
    rw [hbk b rfl, if_neg (by exact Nat.not_le.mpr h1), if_neg (by exact Nat.not_lt.mpr h2)]; rfl
  | mbWritePacket b =>
    obtain ⟨h1, h2, h3, h4, h5, q, h6, rfl⟩ := h
    show mbWritePacketStart b r s = _
    unfold mbWritePacketStart
    dsimp only
    rw [hbk b rfl, needsMac_eq_false h1, if_neg (by simp), if_neg (by exact Nat.not_le.mpr h2), if_neg (by exact Nat.not_lt.mpr h3),
      if_neg (by exact Nat.not_lt.mpr h4)]
    rw [show isProtected b (r.argA0 * (s.desc b).pageLength) (r.argLen + 3) s = false from h5, if_neg (by simp)]
    unfold withRead; rw [show s.data.read r.argOff r.argLen = some q from h6]
    exact beginRange_eq r b _ s
  | mbCheckSpeed b => cases h; exact hbk b rfl _
  | otpLock b =>
    obtain ⟨h1, h2, h3, h4, rfl⟩ := h
    show otpLockStart b r s = _
    unfold otpLockStart
    rw [hotp b _ _ rfl (by simpa using ⟨h1, h2⟩) h3, if_neg (by simp [h4])]; rfl
  | otpIsLocked b =>
    obtain ⟨h1, h2, rfl⟩ := h
    exact hotp b _ _ rfl (by simpa using h1) h2
  | otpRedirect b =>
    obtain ⟨h1, h2, h3, h4, h5, h6, rfl⟩ := h
    show otpRedirectStart b r s = _
    unfold otpRedirectStart
    rw [hotp b _ _ rfl (by simpa using ⟨h1, h2⟩) h3, if_neg (by exact Nat.not_le.mpr h4), if_neg (by simpa [h5, Run.argA0] using h6)]; rfl
  | otpGetRedirect b =>
    obtain ⟨h1, h2, rfl⟩ := h
    exact hotp b _ _ rfl (by simpa using h1) h2
  | otpLockRedirect b =>
    obtain ⟨h1, h2, h3, h4, rfl⟩ := h
    show otpLockRedirectStart b r s = _
    unfold otpLockRedirectStart
    rw [hotp b _ _ rfl (by simpa using ⟨h1, h2⟩) h3, if_neg (by simp [h4])]; rfl
  | otpIsRedirectLocked b =>
    obtain ⟨h1, h2, rfl⟩ := h
    exact hotp b _ _ rfl (by simpa using h1) h2
  | _ => exact h.elim

/-- The step of a select, wherever it stands in the command. -/
theorem exec_selecting {i : Instr} {r : Run} {s : State} {k : Label} (h : selecting i r s k) :
    exec i s = .next (advance r (goOf i r) (.reset k) s) := by
  obtain ⟨hs, ⟨hp, h⟩ | ⟨hp, h⟩⟩ := h
  · rw [exec_start i ⟨hs, hp⟩, startOf_selects h]
  · rw [exec_go hs (by simp [hp]) (by rw [hp]; exact h), hp]

/-- A select that finds a device, wherever it stands in the command. -/
theorem run_selecting {i : Instr} {r : Run} {s : State} {k : Label} (h : selecting i r s k)
    (hp : s.nextPresence = true) :
    ∃ p, controllerRun i (selectSteps s) s = .next (goOf i r k (.selected true) (stand r p (selectedState s))) := by
  have hst : stand r r.pos s = s := by simp only [stand, ← h.1]
  have := run_select_from (selecting_standsAt h) hp r.pos (by rw [hst]; exact exec_selecting h)
  rwa [hst] at this

/-! ## Where a poll and a copy begin -/

theorem startPoll_zero {r : Run} {k : Label} {f : State → State} {s : State} (h : s.pollLimit = 0) :
    startPoll r k f s = f s := by
  unfold startPoll; rw [if_pos h]

theorem startPoll_pos {r : Run} {k : Label} {f : State → State} {s : State} (h : s.pollLimit ≠ 0) :
    startPoll r k f s = stand r (.poll s.pollLimit.toNat k) s := by
  unfold startPoll; rw [if_neg h]

theorem sendCopy_plain {r : Run} {b : Nat} {mk : CopyAt → Label} {tx : List Byte} {s : State}
    (h : (s.prof b).strongPullupOnCopy = false) : sendCopy r b mk tx s = stand r (.xfer tx [] (mk .whole)) s := by
  unfold sendCopy; rw [if_neg (by simp [h])]

theorem sendCopy_strong {r : Run} {b : Nat} {mk : CopyAt → Label} {tx : List Byte} {s : State}
    (h : (s.prof b).strongPullupOnCopy = true) :
    sendCopy r b mk tx s = stand r (.xfer tx.dropLast [] (mk (.body (tx.getLastD 0)))) s := by
  unfold sendCopy; rw [if_pos h]

end Sys2Proof.Machine
end

