-- ==== Sys2Proof/Tests/Slice0.lean ====
section
/-! SUPPORT. Small tests, all by evaluation. The expected results are taken from the spec: the encoding words of its rules R110
and R112 and of 95_test_vectors.md part 2.1, and the vectors of parts 1 and 2 of that file (named in the comments). Then one
witness per statement of Obligations.lean: concrete states and operands that meet its hypotheses, clause by clause. -/

namespace Sys2Proof.Tests

open Sys2Proof Sys2Proof.Machine

/-! ## Small machines -/

/-- Four pages of four bytes, with one byte of extra info. -/
def smallDesc : Desc where
  startPhysicalAddress := 0
  size := 16
  pageLength := 4
  numberPages := 4
  maxPacketDataLength := 1
  generalPurposeMemory := true
  readOnly := false
  writeOnce := false
  nonVolatile := true
  hasPageAutoCRC := true
  hasExtraInfo := true
  extraInfoLength := 1

/-- A profile that writes directly and has every OTP flow; some of its function values are listed. -/
def directProf : Prof where
  writeMode := .direct
  directFrame := some {
    rows := [((0x0003, [0x77]), [0xD0, 0x77]), ((0x0004, [0x77]), [0xD0, 0x77]), ((0x0004, [0x00, 0x3E, 0x3F]), [0xD1])]
    rest := 0 }
  directOk := some { rows := [(([0xD0, 0x77], [0xD0, 0xAA]), true), (([0xD0, 0x77], [0xD0, 0x00]), false)], rest := 0 }
  otpSupported := [.lockWrite, .lockRead, .redirectWrite, .redirectRead, .redirectLockWrite, .redirectLockRead]
  otpFrame := some {
    rows := [((.lockRead, 1, 0), [0x10]), ((.lockWrite, 1, 1), [0x11]), ((.redirectRead, 1, 0), [0x12]),
      ((.redirectWrite, 1, 3), [0x13]), ((.redirectLockRead, 1, 0), [0x14]), ((.redirectLockWrite, 1, 1), [0x15])]
    rest := 0 }
  otpDecode := some {
    rows := [((.lockRead, [0]), some 0), ((.lockRead, [1]), some 1), ((.lockRead, [0xEE]), none),
      ((.lockWrite, [0]), some 0), ((.lockWrite, [0xEE]), none), ((.redirectRead, [3]), some 3),
      ((.redirectRead, [2]), some 2), ((.redirectRead, [0xEE]), none), ((.redirectWrite, [0]), some 0),
      ((.redirectWrite, [0xEE]), none), ((.redirectLockRead, [0]), some 0), ((.redirectLockRead, [1]), some 1),
      ((.redirectLockRead, [0xEE]), none), ((.redirectLockWrite, [0]), some 0), ((.redirectLockWrite, [0xEE]), none)]
    rest := 0 }

/-- Bank 0 is the bank of the spec's reference configuration; 1 needs an erase and polls after it, 2 is write-once and copies
with a MAC, 3 writes directly, 4 and 5 copy with strong pull-up (5 with a MAC), 6 is write-once, 7 needs an erase. -/
def cfg : Config where
  banks := [
    { desc := (Config.reference.banks.getD 0 noBank).desc, prof := {} },
    { desc := smallDesc, prof := { eraseRequired := true, pollAfterErase := true } },
    { desc := { smallDesc with writeOnce := true, hasPageAutoCRC := false, hasExtraInfo := false, extraInfoLength := 0 }
      prof := { macCopy := true } },
    { desc := smallDesc, prof := directProf },
    { desc := smallDesc, prof := { strongPullupOnCopy := true, copyPowerDuration := .oneSecond } },
    { desc := smallDesc, prof := { strongPullupOnCopy := true, macCopy := true } },
    { desc := { smallDesc with writeOnce := true }, prof := {} },
    { desc := smallDesc, prof := { eraseRequired := true } }]
  nhosts := 2

/-- What a test gives a command: its arguments, the oracle's answers, and DATA from offset 0. -/
structure Given where
  a0 : Word := 0
  a1 : Word := 0
  a2 : Word := 0
  ps : List Bool := [true, true, true, true]
  rx : List Byte := []
  data : List Byte := []

/-- The latched command. -/
def run (i : Instr) (g : Given) : Run :=
  { word := encode i, a0 := g.a0, a1 := g.a1, a2 := g.a2, host := 0, pos := .start }

/-- After reset, with the arguments, the answers and DATA of the test, and no command in flight. -/
def idle (g : Given) : State :=
  { State.resetWith cfg with
    arg0 := g.a0, arg1 := g.a1, arg2 := g.a2, presences := g.ps, rxBytes := g.rx, data := Memory.write [] 0 g.data }

/-- The command accepted, before its first step. -/
def st (i : Instr) (g : Given) : State := accept 0 (encode i) (idle g)

/-- The command accepted, and standing at `p`. -/
def at' (i : Instr) (p : Pos) (g : Given) : State := stand (run i g) p (st i g)

/-- The step ends the command with DONE, ERR `e` and RESULT `v`. -/
def ends (x : Result) (e : ErrCode) (v : Word) : Bool :=
  match x with
  | .next t => decide (t.seq = .idle) && t.done && decide (t.err = e) && decide (t.result = v)
  | _ => false

/-- The step leaves the trace `h` and BUSSTATE `w`. -/
def leaves (x : Result) (h : List BusEvent) (w : Word) : Bool :=
  match x with
  | .next t => decide (t.hist = h) && decide (t.busstateWord = w)
  | _ => false

/-- The step leaves a state whose part `f` is `v`. -/
def gives {α : Type} [DecidableEq α] (f : State → α) (x : Result) (v : α) : Bool :=
  match x with
  | .next t => decide (f t = v)
  | _ => false

/-- The step stops at a poison byte. -/
def poisoned (x : Result) : Bool :=
  match x with
  | .fault .poisonRead => true
  | _ => false

/-- The position of the command in flight. -/
def posOf (s : State) : Option Pos :=
  match s.seq with
  | .idle => none
  | .run r => some r.pos

/-! ## Well-formedness -/

theorem test_wf_cfg : cfg.wf = true ∧ Config.reference.wf = true := by decide +kernel

theorem test_wf_refuses_bank_16 : (Instr.mbWrite 16).wf = false ∧ (Instr.mbRead 16 true).wf = false ∧
    (Instr.mbWrite 15).wf = true := by decide +kernel

/-- A configuration of one bank. -/
def oneBank (d : Desc) (p : Prof) : Config := { banks := [{ desc := d, prof := p }], nhosts := 1 }

theorem test_wf_refuses_numbers : { cfg with banks := [] }.wf = false ∧ { cfg with nhosts := 0 }.wf = false ∧
    { cfg with nhosts := 17 }.wf = false ∧
    { cfg with banks := List.replicate 17 { desc := smallDesc, prof := {} } }.wf = false := by decide +kernel

theorem test_wf_refuses_descriptors :
    (oneBank { smallDesc with startPhysicalAddress := 0xFFF1 } {}).wf = false ∧
    (oneBank { smallDesc with size := 12 } {}).wf = false ∧
    (oneBank { smallDesc with pageLength := 0, size := 0 } {}).wf = false ∧
    (oneBank { smallDesc with pageLength := 257, numberPages := 1, size := 257 } {}).wf = false ∧
    (oneBank { smallDesc with hasExtraInfo := false } {}).wf = false ∧
    (oneBank { smallDesc with pageLength := 256, numberPages := 1, size := 256 } {}).wf = false ∧
    (oneBank { smallDesc with maxPacketDataLength := 2 } {}).wf = false ∧
    (oneBank { smallDesc with startPhysicalAddress := 0x10000, numberPages := 0, size := 0 } {}).wf = false ∧
    (oneBank smallDesc {}).wf = true := by decide +kernel

theorem test_wf_refuses_profiles :
    (oneBank smallDesc { strongPullupOnCopy := true, copyPowerDuration := .infinite }).wf = false ∧
    (oneBank smallDesc { directProf with directFrame := none }).wf = false ∧
    (oneBank smallDesc { directProf with directOk := none }).wf = false ∧
    (oneBank smallDesc { directProf with otpFrame := none }).wf = false ∧
    (oneBank smallDesc { directProf with otpDecode := none }).wf = false := by decide +kernel

theorem test_wf_step_refuses : step { State.reset with cfg := { cfg with nhosts := 0 } } = .refused .badConfiguration := rfl

/-! ## Decoding: the word of every command, from rule R112's table and rule R110's fields -/

theorem test_decode_bus : decode 0x00000000 = .ok .nop ∧ decode 0x00000001 = .ok .reset ∧
    decode 0x00000002 = .ok .select ∧ decode 0x00000003 = .ok .putByte ∧ decode 0x00000004 = .ok .getByte ∧
    decode 0x00000005 = .ok .dataBlock := ⟨rfl, rfl, rfl, rfl, rfl, rfl⟩

theorem test_decode_speed_power_crc : decode 0x00000006 = .ok .setSpeed ∧ decode 0x00000007 = .ok .getSpeed ∧
    decode 0x00000008 = .ok .pwrSetDuration ∧ decode 0x00000009 = .ok .pwrStart ∧
    decode 0x0000000A = .ok .pwrNormal ∧ decode 0x00000010 = .ok .crc8 ∧ decode 0x00000011 = .ok .crc16 :=
  ⟨rfl, rfl, rfl, rfl, rfl, rfl, rfl⟩

theorem test_decode_scratchpad : decode 0x00000020 = .ok (.spErase 0) ∧ decode 0x00000221 = .ok (.spWrite 2) ∧
    decode 0x00000F22 = .ok (.spRead 15) ∧ decode 0x00000123 = .ok (.spCopy 1) ∧
    decode 0x00000824 = .ok (.spCopyMac 8) ∧ decode 0x00000025 = .ok .poll := ⟨rfl, rfl, rfl, rfl, rfl, rfl⟩

theorem test_decode_memory : decode 0x00001430 = .ok (.mbRead 4 true) ∧ decode 0x00000331 = .ok (.mbWrite 3) ∧
    decode 0x00003132 = .ok (.mbReadPageCrc 1 true true) ∧ decode 0x00002032 = .ok (.mbReadPageCrc 0 false true) ∧
    decode 0x00000733 = .ok (.mbReadPacket 7) ∧ decode 0x00000134 = .ok (.mbWritePacket 1) ∧
    decode 0x00000035 = .ok (.mbCheckSpeed 0) ∧ decode 0x00000236 = .ok (.mbForceVerify 2) ∧
    decode 0x00000937 = .ok (.mbWriteProtect 9) := ⟨rfl, rfl, rfl, rfl, rfl, rfl, rfl, rfl, rfl⟩

theorem test_decode_otp : decode 0x00000140 = .ok (.otpLock 1) ∧ decode 0x00000041 = .ok (.otpIsLocked 0) ∧
    decode 0x00000542 = .ok (.otpRedirect 5) ∧ decode 0x00000043 = .ok (.otpGetRedirect 0) ∧
    decode 0x00000344 = .ok (.otpLockRedirect 3) ∧ decode 0x00000045 = .ok (.otpIsRedirectLocked 0) :=
  ⟨rfl, rfl, rfl, rfl, rfl, rfl⟩

/-- Part 2.1: BANK, RC and XI are don't-care where the command does not read them. -/
theorem test_decode_dont_care : decode 0x00000F01 = .ok .reset ∧ decode 0x00002030 = .ok (.mbRead 0 false) ∧
    decode 0x00003F25 = .ok .poll := ⟨rfl, rfl, rfl⟩

/-- Part 2.1: the holes of the map and the reserved bits. -/
theorem test_decode_illegal :
    [0x0B, 0x0F, 0x12, 0x1F, 0x26, 0x38, 0x46, 0xFF].all (fun op : Byte =>
      decode (op.setWidth 32) = .error (.unknownOpcode op)) = true ∧
    decode 0x00004000 = .error .reservedBits ∧ decode 0x80000001 = .error .reservedBits := by decide +kernel

/-- Rule R91(a): the port packs the command word lowest byte first; a command is four bytes (rule R111). -/
theorem test_decode_bytes : decodeBytes [0x32, 0x31, 0x00, 0x00, 0xEE] = .ok (.mbReadPageCrc 1 true true, [0xEE]) ∧
    decodeBytes [0x32, 0x31, 0x00] = .error .truncated ∧
    encodeBytes (.mbReadPageCrc 1 true true) = [0x32, 0x31, 0x00, 0x00] := ⟨rfl, rfl, by decide⟩

theorem test_encode : encode (.mbReadPageCrc 1 true true) = 0x00003132 ∧ encode (.spWrite 2) = 0x00000221 ∧
    encode .nop = 0 := by decide +kernel

theorem test_table_word : decodeTableWord 32 0x45 = some (.otpIsRedirectLocked 0) ∧ decodeTableWord 32 0x4000 = none ∧
    gives posOf (step (State.reset.withFetchWord 32 0x05)) none ∧
    ends (step (State.reset.withFetchWord 32 0x07)) .ok 0 := by decide +kernel

/-! ## CRC: part 1, S2, and part 2.5 -/

theorem test_crc8 : crc8Standard 0 [0x23, 0x01, 0x02, 0x03, 0x04, 0x05, 0x06] = 0x28 ∧
    crc8Standard 0 [0x31, 0x32, 0x33, 0x34, 0x35, 0x36, 0x37, 0x38, 0x39] = 0xA1 := by decide +kernel

theorem test_crc16 : crc16Standard 0 [0x01, 0x02, 0x03] = 0xA110 ∧ crc16Standard 0 [0x01, 0x02, 0x03, 0xEF, 0x5E] = 0xB001 ∧
    crc16Standard 0 [0x31, 0x32, 0x33, 0x34, 0x35, 0x36, 0x37, 0x38, 0x39] = 0xBB3D := by decide +kernel

/-- CR1, CR2 -/
theorem test_crc8_command :
    ends (exec .crc8 (st .crc8 { a1 := 8, data := [0x23, 0x01, 0x02, 0x03, 0x04, 0x05, 0x06, 0x28] })) .ok 0x80000000 ∧
    ends (exec .crc8 (st .crc8 { a1 := 7, data := [0x23, 0x01, 0x02, 0x03, 0x04, 0x05, 0x06, 0x28] })) .ok 0x28 := by decide +kernel

/-- CR9, CR10, CR12 -/
theorem test_crc16_command :
    ends (exec .crc16 (st .crc16 { a2 := 0xFFFF1234 })) .ok 0x1234 ∧
    ends (exec .crc16 (st .crc16 { a1 := 6, a2 := 1, data := [0x03, 0x48, 0x69, 0x21, 0x90, 0x19] })) .ok 0x8000B001 ∧
    poisoned (exec .crc16 (st .crc16 { a1 := 7, data := [0x03, 0x48, 0x69, 0x21, 0x90, 0x19] })) := by decide +kernel

/-! ## Bus primitives, speed and power: parts 2.2 to 2.4 -/

/-- BP14 -/
theorem test_nop : ends (exec .nop (st .nop {})) .ok 0 ∧ leaves (exec .nop (st .nop {})) [] 0 := by decide +kernel

/-- BP1, BP2 -/
theorem test_reset :
    ends (exec .reset (st .reset { ps := [true] })) .ok 1 ∧ leaves (exec .reset (st .reset { ps := [true] })) [.reset true] 0 ∧
    ends (exec .reset (st .reset { ps := [false] })) .ok 0 ∧ leaves (exec .reset (st .reset { ps := [false] })) [.reset false] 0 := by decide +kernel

/-- BP3's first step (address 23 01 02 03 04 05 06 28 of S6), and BP4 -/
theorem test_select :
    gives posOf (exec .select { st .select {} with romid0 := 0x03020123, romid1 := 0x28060504 }) (some (.address [0x55, 0x23, 0x01, 0x02, 0x03, 0x04, 0x05, 0x06, 0x28] .select)) ∧
    ends (exec .select (st .select { ps := [false] })) .ok 0 ∧ leaves (exec .select (st .select { ps := [false] })) [.reset false] 0 := by decide +kernel

/-- BP5: the last byte of a resumed select -/
theorem test_select_resume :
    gives posOf (exec .select { st .select {} with resumeEn := true, owner := some 0, resumeArmed := true, lastSel := some 0 }) (some (.address [0xA5] .select)) ∧
    ends (exec .select (at' .select (.address [0xA5] .select) { rx := [0xA5] })) .ok 1 ∧ leaves (exec .select (at' .select (.address [0xA5] .select) { rx := [0xA5] })) [.byte 0xA5 0xA5] 0x00000C00 := by decide +kernel

/-- BP7, BP8 -/
theorem test_putByte :
    ends (exec .putByte { st .putByte { a0 := 0x000001CC, rx := [0xCC] } with lastSel := some 0, resumeArmed := true }) .ok 0xCC ∧ leaves (exec .putByte { st .putByte { a0 := 0x000001CC, rx := [0xCC] } with lastSel := some 0, resumeArmed := true }) [.byte 0xCC 0xCC] 0 := by decide +kernel

/-- BP9 -/
theorem test_getByte :
    ends (exec .getByte (st .getByte { rx := [0x3C] })) .ok 0x3C ∧ leaves (exec .getByte (st .getByte { rx := [0x3C] })) [.byte 0xFF 0x3C] 0 := by decide +kernel

/-- BP10's last byte, BP11, BP12 -/
theorem test_dataBlock :
    gives (fun t => (t.result, t.data)) (exec .dataBlock (at' .dataBlock (.xfer [0xFF] [0x0F, 0x12] .block)
      { a1 := 3, rx := [0x34], data := [0x0F, 0xFF, 0xFF] })) (3, [(0, 0x0F), (1, 0x12), (2, 0x34)]) ∧
    ends (exec .dataBlock (st .dataBlock { a1 := 0x00FF0002 })) .rangeError 0 ∧
    ends (exec .dataBlock (st .dataBlock { a1 := 0x01000000 })) .ok 0 := by decide +kernel

/-- SP2, SP4, SP5 -/
theorem test_setSpeed :
    gives (fun t => (t.err, t.busstateWord, t.statusWord)) (exec .setSpeed (setVerified 0 true (st .setSpeed { a0 := 2 }))) (.ok, 2, 0x00000002) ∧
    ends (exec .setSpeed (st .setSpeed { a0 := 4 })) .rangeError 0 ∧
    ends (exec .setSpeed (st .setSpeed { a0 := 0xFFFFFFFF })) .rangeError 0 := by decide +kernel

/-- SP6 -/
theorem test_getSpeed :
    ends (exec .getSpeed { st .getSpeed {} with speed := .overdrive }) .ok 2 := by decide +kernel

/-- PW1, PW10, PW11 -/
theorem test_pwrSetDuration :
    ends (exec .pwrSetDuration (st .pwrSetDuration { a0 := 2 })) .ok 0 ∧ leaves (exec .pwrSetDuration (st .pwrSetDuration { a0 := 2 })) [] 0x00000008 ∧
    ends (exec .pwrSetDuration (st .pwrSetDuration { a0 := 6 })) .unsupportedOperation 0 ∧ leaves (exec .pwrSetDuration (st .pwrSetDuration { a0 := 6 })) [] 0 ∧
    ends (exec .pwrSetDuration (st .pwrSetDuration { a0 := 8 })) .rangeError 0 := by decide +kernel

/-- PW2, PW6, PW12, PW13 -/
theorem test_pwrStart :
    ends (exec .pwrStart { st .pwrStart { a0 := 2 } with pdur := .twoSeconds }) .ok 0 ∧ leaves (exec .pwrStart { st .pwrStart { a0 := 2 } with pdur := .twoSeconds }) [] 0x00000128 ∧
    gives (fun t => (t.hist, t.pwrActive)) (exec .pwrStart { st .pwrStart {} with pdur := .infinite, pwrActive := true }) ([.pullupEnd, .pullupStart .infinite], true) ∧
    ends (exec .pwrStart (st .pwrStart { a0 := 1 })) .unsupportedOperation 0 ∧
    ends (exec .pwrStart (st .pwrStart { a0 := 3 })) .rangeError 0 := by decide +kernel

/-- PW3: the byte after an armed start -/
theorem test_armed_byte :
    ends (exec .putByte { st .putByte { a0 := 0x44, rx := [0x44] } with
      pdur := .twoSeconds, pwrDur := .twoSeconds, pwrArmed := true }) .ok 0x44 ∧ leaves (exec .putByte { st .putByte { a0 := 0x44, rx := [0x44] } with
      pdur := .twoSeconds, pwrDur := .twoSeconds, pwrArmed := true }) [.byte 0x44 0x44, .pullupStart .twoSeconds] 0x00000148 := by decide +kernel

/-- PW4, PW14 -/
theorem test_pwrNormal :
    ends (exec .pwrNormal { st .pwrNormal {} with pdur := .twoSeconds, pwrDur := .twoSeconds, pwrActive := true }) .ok 0 ∧ leaves (exec .pwrNormal { st .pwrNormal {} with pdur := .twoSeconds, pwrDur := .twoSeconds, pwrActive := true }) [.pullupEnd] 0x00000108 ∧
    ends (exec .pwrNormal (st .pwrNormal {})) .ok 0 ∧ leaves (exec .pwrNormal (st .pwrNormal {})) [] 0 := by decide +kernel

/-! ## Scratchpad: part 2.6 -/

/-- SC1's last byte, SC2 -/
theorem test_poll :
    ends (exec .poll (at' .poll (.poll 18 .poll) { rx := [0xAA] })) .ok 0x0000AA01 ∧
    ends (exec .poll (st .poll { rx := [0x00] })) .ok 0x00000001 ∧
    ends (exec .poll (at' .poll (.poll 1 .poll) { rx := [0xFF] })) .timeout 0 := by decide +kernel

/-- SC4, SC5, SC8, and S3's status bytes A0 and 3F -/
theorem test_spErase :
    ends (exec (.spErase 0) (st (.spErase 0) {})) .unsupportedOperation 0 ∧
    ends (exec (.spErase 7) (st (.spErase 7) { a0 := 0x00010000 })) .rangeError 0 ∧
    ends (exec (.spErase 7) (st (.spErase 7) { ps := [false] })) .deviceNotFound 0 ∧
    ends (exec (.spErase 7) (at' (.spErase 7) (.xfer [0xFF] [0xC3, 0x23, 0x00] (.erase .frame)) { rx := [0xA0] })) .ok 0xA0 ∧
    ends (exec (.spErase 7) (at' (.spErase 7) (.xfer [0xFF] [0xC3, 0x23, 0x00] (.erase .frame)) { rx := [0x3F] })) .protocolError 0x3F := by decide +kernel

/-- SC6: the erase frame of TA 0x0023 -/
theorem test_spErase_frame : eraseFrame {} 0x0023 = [0xC3, 0x23, 0x00, 0xFF] := by decide +kernel

/-- SC10, SC11: the last byte of a full window -/
theorem test_spWrite :
    ends (exec (.spWrite 0) (at' (.spWrite 0)
      (.xfer [0xFF] [0x0F, 0x1C, 0x00, 0x5A, 0x5B, 0x5C, 0x5D, 0x99] (.write (.frame [0x5A, 0x5B, 0x5C, 0x5D])))
      { a0 := 0x1C, a1 := 4, rx := [0x51] })) .ok 4 ∧
    ends (exec (.spWrite 0) (at' (.spWrite 0)
      (.xfer [0xFF] [0x0F, 0x1C, 0x00, 0x5A, 0x5B, 0x5C, 0x5D, 0x99] (.write (.frame [0x5A, 0x5B, 0x5C, 0x5D])))
      { a0 := 0x1C, a1 := 4, rx := [0x50] })) .integrityError 4 := by decide +kernel

/-- The window table of part 2.6, SC12's truncation and SC13 -/
theorem test_spWrite_window :
    [(0x0000, 32, 32), (0x0000, 33, 32), (0x0005, 10, 10), (0x0005, 27, 27), (0x001C, 10, 4), (0x001F, 1, 1),
      (0x0020, 4, 4), (0xFFFF, 5, 1)].all (fun e : Word × Word × Nat =>
        spWriteLen (run (.spWrite 0) { a0 := e.1, a1 := e.2.1 }) = e.2.2) = true ∧
    writeFrame {} 0x0005 [1, 2] = [0x0F, 0x05, 0x00, 1, 2] ∧ writeFrame {} 0xFFFF [1] = [0x0F, 0xFF, 0xFF, 1, 0xFF, 0xFF] ∧
    ends (exec (.spWrite 0) (st (.spWrite 0) { a1 := 0x00FD0005 })) .rangeError 0 := by decide +kernel

/-- A read-back of one byte (TA1 1F, m = 1; CRC by rule R223 over AA 1F 00 1F AB), stored at offset 0; and with its CRC flipped,
as in SC16. -/
theorem test_spRead :
    gives (fun t => (t.result, t.data, t.spstateWord)) (exec (.spRead 0) (at' (.spRead 0)
      (.xfer [0xFF] [0xAB, 0xA9] (.read (.data [0xAA, 0x1F, 0x00, 0x1F]))) { rx := [0xBC] })) (1, [(0, 0xAB)], 0x011F001F) ∧
    gives (fun t => (t.result, t.err, t.data)) (exec (.spRead 0) (at' (.spRead 0)
      (.xfer [0xFF] [0xAB, 0xA9] (.read (.data [0xAA, 0x1F, 0x00, 0x1F]))) { rx := [0xBD] })) (0xFFFFFFFF, .ok, []) ∧
    ends (exec (.spRead 0) (st (.spRead 0) { a1 := 0x00E10000 })) .rangeError 0 := by decide +kernel

/-- The read-back table of part 2.6 -/
theorem test_spRead_length : [(0x00, 32), (0x05, 27), (0x1F, 1), (0x20, 32), (0x25, 27)].all
    (fun e : Byte × Nat => readLen e.1 = e.2) = true := by decide +kernel

/-- SC17, SC18's last poll byte, SC21's, SC22 -/
theorem test_spCopy :
    ends (exec (.spCopy 0) (st (.spCopy 0) {})) .protocolError 0 ∧
    ends (exec (.spCopy 0) (at' (.spCopy 0) (.poll 19 (.copy (.send .poll))) { rx := [0xAA] })) .ok 0x0000AA01 ∧
    ends (exec (.spCopy 0) (at' (.spCopy 0) (.poll 1 (.copy (.send .poll))) { rx := [0xFF] })) .timeout 0 ∧
    ends (exec (.spCopy 2) (st (.spCopy 2) {})) .unsupportedOperation 0 := by decide +kernel

/-- SC18's copy frame -/
theorem test_spCopy_frame : copyFrame {} 0x0005 0x0E [] = [0x55, 0x05, 0x00, 0x0E] := by decide +kernel

/-- S4: AA, 00, 3C, and FF to the end -/
theorem test_spCopyMac :
    ends (exec (.spCopyMac 2) (at' (.spCopyMac 2) (.poll 20 (.copyMac (.send .poll))) { rx := [0xAA] })) .ok 0x0000AA01 ∧
    ends (exec (.spCopyMac 2) (at' (.spCopyMac 2) (.poll 20 (.copyMac (.send .poll))) { rx := [0x00] })) .protocolError 0 ∧
    ends (exec (.spCopyMac 2) (at' (.spCopyMac 2) (.poll 19 (.copyMac (.send .poll))) { rx := [0x3C] })) .protocolError 0x3C ∧
    ends (exec (.spCopyMac 2) (at' (.spCopyMac 2) (.poll 1 (.copyMac (.send .poll))) { rx := [0xFF] })) .protectionError 0xFF := by decide +kernel

/-- SC24, SC25 -/
theorem test_spCopyMac_checks :
    ends (exec (.spCopyMac 2) (st (.spCopyMac 2) { a1 := 0x00ED0000 })) .rangeError 0 ∧
    ends (exec (.spCopyMac 0) (st (.spCopyMac 0) {})) .unsupportedOperation 0 := by decide +kernel

/-! ## Memory bank: part 2.7 -/

/-- MB1b, MB1c, MB1d, and MB2d -/
theorem test_mbRead :
    ends (exec (.mbRead 0 false) (st (.mbRead 0 false) { a0 := 120, a1 := 9 })) .rangeError 0 ∧
    ends (exec (.mbRead 0 false) (st (.mbRead 0 false) { a0 := 0xFFFFFFFF, a1 := 1 })) .rangeError 0 ∧
    ends (exec (.mbRead 0 false) (st (.mbRead 0 false) {})) .ok 0 ∧
    gives State.statusWord (exec (.mbRead 0 false)
      (setVerified 0 true (st (.mbRead 0 false) { a0 := 0x10, a1 := 4, ps := [false] }))) 0x00000102 := by decide +kernel

/-- MB2's last byte, MB2b's first -/
theorem test_mbRead_bytes :
    gives (fun t => (t.result, t.data)) (exec (.mbRead 0 false) (at' (.mbRead 0 false)
      (.xfer [0xFF] [0xF0, 0x10, 0x00, 0x11, 0x22, 0x33] (.mbRead (.frame 3))) { a0 := 0x10, a1 := 4, rx := [0x44] })) (4, [(0, 0x11), (1, 0x22), (2, 0x33), (3, 0x44)]) ∧
    gives (fun t => (posOf t, t.hist)) (exec (.mbRead 0 true)
      (setVerified 0 true (st (.mbRead 0 true) { a0 := 0x14, a1 := 0x00040004, rx := [0x55] }))) (some (.xfer [0xFF, 0xFF, 0xFF] [0x55] (.mbRead (.frame 0))), [.byte 0xFF 0x55]) := by decide +kernel

/-- MB1's read frame, MB3's page frame, MB3e's packet frame (here of four-byte pages), MB3f's lengths -/
theorem test_read_frames :
    readMemoryFrame {} (physical (Config.reference.banks.getD 0 noBank).desc 120) 8 = [0xF0, 0x78, 0x00] ++ ffs 8 ∧
    readPageFrame {} (Config.reference.banks.getD 0 noBank).desc 0 = [0xA5, 0x00, 0x00] ++ ffs 34 ∧
    packetFrame {} { smallDesc with hasPageAutoCRC := false } 1 = [0xF0, 0x04, 0x00] ++ ffs 4 ∧
    readPageFrame {} { smallDesc with pageLength := 8, extraInfoLength := 2 } 0 = [0xA5, 0x00, 0x00] ++ ffs 12 := by decide +kernel

/-- MB3c, MB3d, MB3e -/
theorem test_mbReadPageCrc :
    ends (exec (.mbReadPageCrc 0 false false) (st (.mbReadPageCrc 0 false false) { a0 := 4 })) .rangeError 0 ∧
    ends (exec (.mbReadPageCrc 0 false true) (st (.mbReadPageCrc 0 false true) { a0 := 4 })) .unsupportedOperation 0 ∧
    ends (exec (.mbReadPageCrc 2 false false) (st (.mbReadPageCrc 2 false false) {})) .unsupportedOperation 0 := by decide +kernel

/-- Rule R286's example frame A5 00 00 01 .. 08 with check bytes 1C F5 (part 2.5): its end with XI 0 on a four-byte page stores
the page only; with the last byte flipped, nothing -/
theorem test_mbReadPageCrc_end :
    gives (fun t => (t.err, t.result, t.data)) (exec (.mbReadPageCrc 4 false false) (at' (.mbReadPageCrc 4 false false)
      (.xfer [0xFF] [0xA5, 0x00, 0x00, 1, 2, 3, 4, 5, 6, 7, 8, 0x1C] (.pageCrc (.frame 3))) { rx := [0xF5] })) (.ok, 4, [(0, 1), (1, 2), (2, 3), (3, 4)]) ∧
    gives (fun t => (t.err, t.result, t.data)) (exec (.mbReadPageCrc 4 false false) (at' (.mbReadPageCrc 4 false false)
      (.xfer [0xFF] [0xA5, 0x00, 0x00, 1, 2, 3, 4, 5, 6, 7, 8, 0x1C] (.pageCrc (.frame 3))) { rx := [0xF4] })) (.integrityError, 0, []) := by decide +kernel

/-- MB6, MB7, MB7b, MB11 -/
theorem test_mbWrite :
    ends (exec (.mbWrite 0) (setBank 0 (fun b => { b with readOnly := true }) (st (.mbWrite 0) {}))) .ok 0 ∧
    ends (exec (.mbWrite 0) (setBank 0 (fun b => { b with readOnly := true }) (st (.mbWrite 0) { a1 := 1, data := [9] }))) .protectionError 0 ∧
    ends (exec (.mbWrite 0) (setBank 0 (fun b => { b with readOnly := true }) (st (.mbWrite 0) { a0 := 120, a1 := 9 }))) .rangeError 0 ∧
    ends (exec (.mbWrite 2) (st (.mbWrite 2) { a1 := 1, data := [9] })) .unsupportedOperation 0 := by decide +kernel

/-- MB4: the last poll byte of chunk 1 goes on to chunk 2; MB9: chunk 2's poll sees FF only; MB8's commit -/
theorem test_mbWrite_chunks :
    gives posOf (exec (.mbWrite 0) (at' (.mbWrite 0)
      (.poll 18 (.range { x := 0x1C, d := [1, 2, 3, 4, 5, 6, 7, 8], done := 0, result := 8 } (.copy .poll))) { rx := [0xAA] })) (some (.reset (.range { x := 0x1C, d := [1, 2, 3, 4, 5, 6, 7, 8], done := 4, result := 8 } .writeSel))) ∧
    ends (exec (.mbWrite 0) (at' (.mbWrite 0)
      (.poll 1 (.range { x := 0x1C, d := [1, 2, 3, 4, 5, 6, 7, 8], done := 4, result := 8 } (.copy .poll))) { rx := [0xFF] })) .timeout 4 ∧
    gives (fun t => (t.result, (t.bankState 6).pageCommitted)) (exec (.mbWrite 6) (at' (.mbWrite 6)
      (.poll 20 (.range { x := 3, d := [7, 7], done := 0, result := 2 } (.copy .poll))) { rx := [0xAA] })) (2, [0, 1]) := by decide +kernel

/-- MB12: the packet of page 1, MB12d: the empty packet -/
theorem test_packetBytes : packetBytes cfg 1 [0x48, 0x69, 0x21] = [0x03, 0x48, 0x69, 0x21, 0x90, 0x19] ∧
    packetBytes cfg 0 [] = [0x00, 0xFF, 0xFF] ∧ packetSeed (idle {}) 0 1 = 1 := by decide +kernel

/-- MB12c, MB12e -/
theorem test_mbWritePacket :
    ends (exec (.mbWritePacket 0) (st (.mbWritePacket 0) { a1 := 30 })) .rangeError 0 ∧
    ends (exec (.mbWritePacket 0) (setPageLocked 0 0 (st (.mbWritePacket 0) { a1 := 1, data := [5] }))) .protectionError 0 := by decide +kernel

/-- MB13d; a packet of one byte on page 1 of four-byte pages (seed 1, CRC by rule R223): its end, and with a check byte flipped
as in MB13c -/
theorem test_mbReadPacket :
    ends (exec (.mbReadPacket 0) (st (.mbReadPacket 0) { a1 := 0x00E40000 })) .rangeError 0 ∧
    gives (fun t => (t.err, t.result, t.data)) (exec (.mbReadPacket 2) (at' (.mbReadPacket 2)
      (.xfer [0xFF] [0xF0, 0x04, 0x00, 0x01, 0x77, 0xBF] (.packet (.frame 3))) { a0 := 1, rx := [0xD9] })) (.ok, 1, [(0, 0x77)]) ∧
    gives (fun t => (t.err, t.result, t.data)) (exec (.mbReadPacket 2) (at' (.mbReadPacket 2)
      (.xfer [0xFF] [0xF0, 0x04, 0x00, 0x01, 0x77, 0xBF] (.packet (.frame 3))) { a0 := 1, rx := [0xD8] })) (.integrityError, 0, []) := by decide +kernel

/-- MB14's last byte, MB14b -/
theorem test_mbCheckSpeed :
    gives (fun t => (t.err, t.result, t.statusWord)) (exec (.mbCheckSpeed 0) (at' (.mbCheckSpeed 0)
      (.address [0x28] .check) { rx := [0x28] })) (.ok, 1, 0x00010002) ∧
    gives (fun t => (t.err, t.statusWord)) (exec (.mbCheckSpeed 0)
      (setVerified 0 true (st (.mbCheckSpeed 0) { ps := [false] }))) (.deviceNotFound, 0x00000102) := by decide +kernel

/-- MB15 -/
theorem test_mbForceVerify :
    gives (fun t => (t.err, t.statusWord, t.hist)) (exec (.mbForceVerify 0) (setVerified 0 true (st (.mbForceVerify 0) {}))) (.ok, 0x00000002, []) := by decide +kernel

/-- MB7's BANKRO, MB16 -/
theorem test_mbWriteProtect :
    gives (fun t => (t.err, t.bankroWord)) (exec (.mbWriteProtect 0) (st (.mbWriteProtect 0) {})) (.ok, 1) ∧
    ends (exec (.mbWriteProtect 8) (st (.mbWriteProtect 8) {})) .rangeError 0 := by decide +kernel

/-! ## OTP: part 2.8 -/

/-- OT2's last byte, OT5's -/
theorem test_otpLock :
    gives (fun t => (t.err, t.result, (t.bankState 3).pageLocked)) (exec (.otpLock 3) (at' (.otpLock 3)
      (.xfer [0xFF] [] (.otpFrame .first)) { a0 := 1, rx := [1] })) (.ok, 1, [1]) ∧
    gives (fun t => (t.err, t.result, (t.bankState 3).pageLocked)) (exec (.otpLock 3) (at' (.otpLock 3)
      (.xfer [0xFF] [] (.otpFrame .verify)) { a0 := 1, rx := [0] })) (.verificationError, 0, []) := by decide +kernel

/-- OT3, OT8 -/
theorem test_otpIsLocked :
    ends (exec (.otpIsLocked 3) (at' (.otpIsLocked 3) (.xfer [0xFF] [] (.otpFrame .first)) { a0 := 1, rx := [1] })) .ok 1 ∧
    ends (exec (.otpIsLocked 3) (st (.otpIsLocked 3) { a0 := 4 })) .rangeError 0 := by decide +kernel

/-- OT9 (bank 0's profile has no OTP), OT7 -/
theorem test_otpLock_checks :
    ends (exec (.otpLock 0) (st (.otpLock 0) {})) .unsupportedOperation 0 ∧
    ends (exec (.otpLock 3) (setBank 3 (fun b => { b with readOnly := true }) (st (.otpLock 3) {}))) .protectionError 0 := by decide +kernel

/-- OT10: the read-back -/
theorem test_otpRedirect :
    ends (exec (.otpRedirect 3) (at' (.otpRedirect 3) (.xfer [0xFF] [] (.otpFrame .verify)) { a0 := 1, a2 := 3, rx := [3] })) .ok 3 ∧
    ends (exec (.otpRedirect 3) (st (.otpRedirect 3) { a0 := 1, a2 := 4 })) .rangeError 0 := by decide +kernel

/-- The value the profile decodes (rule R326) -/
theorem test_otpGetRedirect :
    ends (exec (.otpGetRedirect 3) (at' (.otpGetRedirect 3) (.xfer [0xFF] [] (.otpFrame .first)) { a0 := 1, rx := [3] })) .ok 3 := by decide +kernel

/-- Rule R327: the read-back of a redirect lock; a first read of 0 goes on to the write -/
theorem test_otpLockRedirect :
    gives (fun t => (t.err, t.result, (t.bankState 3).redirectLocked)) (exec (.otpLockRedirect 3) (at' (.otpLockRedirect 3)
      (.xfer [0xFF] [] (.otpFrame .verify)) { a0 := 1, rx := [1] })) (.ok, 1, [1]) ∧
    gives posOf (exec (.otpLockRedirect 3) (at' (.otpLockRedirect 3)
      (.xfer [0xFF] [] (.otpFrame .first)) { a0 := 1, rx := [0] })) (some (.reset (.otpSel .write))) := by decide +kernel

/-- Rule R328: a decode of none is IntegrityError -/
theorem test_otpIsRedirectLocked :
    ends (exec (.otpIsRedirectLocked 3) (at' (.otpIsRedirectLocked 3) (.xfer [0xFF] [] (.otpFrame .first))
      { a0 := 1, rx := [0xEE] })) .integrityError 0 := by decide +kernel

/-! ## Witnesses: for every statement with hypotheses, states and operands that meet them, for every clause -/

/-- A word access of host `h`. -/
def word (h off : Nat) (we : Bool) (w : Word := 0) : Access := { h := h, off := off, size := .four, we := we, wdata := w }

theorem starts_st (i : Instr) (g : Given) : starts (st i g) (run i g) := ⟨rfl, rfl⟩

/-- The banks of the tests are 0 to 7. -/
theorem bank_exists {i : Instr} {n : Nat} (hi : i.bank? = some n) (hn : n < 8) (b : Nat) (h : i.bank? = some b) :
    b < cfg.banks.length := by
  rw [hi] at h; cases h; exact hn

/-- A bank command of a bank that exists begins with a select when its own checks pass. -/
theorem selecting_first {i : Instr} {r : Run} {s : State} {k : Label} (hs : starts s r)
    (h : selectsFirst i r s k) : selecting i r s k := ⟨hs.1, .inl ⟨hs.2, h⟩⟩

/-- A command stands at a later select. -/
theorem selecting_later {i : Instr} {r : Run} {s : State} {k : Label} (hs : s.seq = .run { r with pos := .reset k })
    (h : standsAt i (.reset k) = true) : selecting i { r with pos := .reset k } s k := ⟨hs, .inr ⟨rfl, h⟩⟩

/-- Bank 0 is verified. -/
def verified (b : Nat) (i : Instr) (g : Given) : State := setVerified b true (st i g)

/-- A read-back of the selected device is at hand (the address is 0 after reset). -/
def readBack (i : Instr) (g : Given) : State :=
  { st i g with spValid := true, spTA := 0x001F, spES := 0x1F, lastSel := some 0, resumeArmed := true }

theorem witness_DecodeUndoesEncode :
    (Instr.mbReadPageCrc 15 true true).wf ∧ (Instr.mbRead 0 false).wf ∧ Instr.nop.wf := by decide

theorem witness_DecodeReadsTheFields : decode 0x00003F32 = .ok (.mbReadPageCrc 15 true true) ∧
    decode 0x00001030 = .ok (.mbRead 0 true) ∧ (Instr.mbRead 0 true).bank? = some 0 := ⟨rfl, rfl, rfl⟩

theorem witness_StepRunsTheDecodedCommand :
    cfg.wf ∧ decode (run .select {}).word = .ok .select ∧ (st .select {}).seq = .run (run .select {}) ∧
    { st .select {} with sched := [.controller, .timer] }.sched = .controller :: [.timer] ∧ (st .select {}).sched = [] ∧
    (at' (.spCopy 4) (.power (.copy (.send .power))) {}).pwrActive = false ∧
    decodeTableWord 32 0x3F32 = some (.mbReadPageCrc 15 true true) := by decide +kernel

theorem witness_IllegalWordEndsInItsFirstStep :
    starts (accept 0 0x00004000 (idle {}))
      { word := 0x00004000, a0 := 0, a1 := 0, a2 := 0, host := 0, pos := .start } ∧
    decode 0x00004000 = .error .reservedBits ∧ decode 0x00000046 = .error (.unknownOpcode 0x46) ∧
    { accept 0 0x00004000 (idle {}) with sched := [.controller] }.sched = .controller :: [] := ⟨⟨rfl, rfl⟩, rfl, rfl, rfl⟩

theorem witness_OnlyAlignedWordAccessesAreAccepted : (word 1 0x1FC true).h < (idle {}).cfg.nhosts ∧
    { word 1 0 true with size := .two }.size ≠ .four ∧ (word 1 0x002 true).off % 4 ≠ 0 ∧ 0x200 ≤ (word 1 0x200 true).off ∧
    (word 1 0x1FC true).off % 4 = 0 ∧ (word 1 0x1FC true).off < 0x200 := by decide +kernel

theorem witness_ReadsReturnTheRegister : (word 1 0x000 false).h < (idle {}).cfg.nhosts ∧
    (word 1 0x030 false).off % 4 = 0 ∧ (word 1 0x030 false).off = 0x030 ∧ 0x034 ≤ (word 1 0x034 false).off ∧
    (word 1 0x0FC false).off < 0x100 := by decide +kernel

theorem witness_OnlyNamedWritesHaveSideEffects :
    (∃ t, hostAccess (word 0 0x004 true 7) (idle {}) = .next t) ∧ (∃ t, hostAccess (word 0 0x1FD false) (idle {}) = .next t) ∧
    (∃ t, hostAccess (word 0 0x0FC true 7) (idle {}) = .next t) ∧
    ¬ ((word 0 0x0FC true 7).off ∈ [0x000, 0x008, 0x00C, 0x010, 0x018, 0x020, 0x024, 0x028] ∨ 0x100 ≤ (word 0 0x0FC true 7).off) :=
  ⟨⟨_, rfl⟩, ⟨_, rfl⟩, ⟨_, rfl⟩, by decide⟩

theorem witness_RegisterFields : { idle {} with owner := some 15 }.owner = some 15 ∧ (idle {}).owner = none ∧
    { idle {} with banks := List.replicate 16 (BankState.reset noBank) }.banks.length ≤ 16 := by decide +kernel

theorem witness_PlainWritesReplaceTheRegister : (word 1 0x008 true 5).h < (idle {}).cfg.nhosts ∧ (idle {}).seq = .idle ∧
    [0x008, 0x00C, 0x010, 0x018, 0x020, 0x024].all (fun off => (word 1 off true 5).off = off) := by decide +kernel

theorem witness_DataIsPackedLittleEndian : (word 1 0x1FC true 5).off = 0x100 + 4 * 63 ∧ (word 1 0x100 false).off = 0x100 + 4 * 0 ∧
    (idle {}).seq = .idle ∧
    (∀ j, j < 4 → (idle { data := [4, 3, 2, 1] }).data.get (4 * 0 + j) = some ((0x01020304 : Word).extractLsb' (8 * j) 8)) := by
  decide +kernel

theorem witness_PoisonReadsStop : (word 0 0x100 false).off = 0x100 + 4 * 0 ∧ (idle { data := [1, 2, 3] }).data.get (4 * 0 + 3) = none ∧
    starts (st .crc8 { a1 := 0x00FF0001 }) (run .crc8 { a1 := 0x00FF0001 }) ∧ (st .crc8 {}).data.get (0xFF + 0) = none ∧
    ((st (.spWrite 0) {}).prof 0).writeMode = .staged ∧ 0 < min 1 (32 - (31 : Word).toNat % 32) ∧
    ((st (.spCopyMac 2) {}).prof 2).macCopy = true ∧ (readBack (.spCopyMac 2) {}).spValid = true ∧
    isProtected 0 0 1 (st (.mbWrite 0) {}) = false ∧ 0 + 1 ≤ ((st (.mbWrite 0) {}).desc 0).size ∧
    isProtected 0 (3 * 32) (1 + 3) (st (.mbWritePacket 0) {}) = false ∧ ((st (.mbWritePacket 3) {}).prof 3).writeMode = .direct :=
  ⟨rfl, by decide, ⟨rfl, rfl⟩, rfl, rfl, by decide, rfl, rfl, by decide +kernel, by decide +kernel, by decide +kernel, rfl⟩

theorem witness_AcceptanceLatchesTheCommand : (word 1 0x000 true 3).h < (idle {}).cfg.nhosts ∧ (idle {}).seq = .idle ∧
    (idle {}).owner = none ∧ { idle {} with owner := some 1 }.owner = some (word 1 0x000 true 3).h := by decide +kernel

theorem witness_WritesWhileBusyOnlySetOverrun : (st .nop {}).seq = .run (run .nop {}) ∧
    (word 1 0x000 true).off ∈ [0x000, 0x008, 0x00C, 0x010, 0x018, 0x020, 0x024, 0x028] ∧
    (0x100 ≤ (word 1 0x100 true).off ∧ (word 1 0x1FC true).off < 0x200 ∧ (word 1 0x1FC true).off % 4 = 0) ∧
    (∃ t, eventStep (.host (word 0 0x000 true 3)) { idle {} with ovr := true } = .next t ∧ t.ovr = false) ∧
    (∃ t, eventStep .reset { idle {} with ovr := true } = .next t ∧ t.ovr = false) :=
  ⟨rfl, by decide, by decide, ⟨_, rfl, rfl⟩, ⟨_, rfl, rfl⟩⟩

theorem witness_OtherHostsCommandIsDenied : { idle {} with owner := some 0 }.owner = some 0 ∧ 0 ≠ (word 1 0x000 true 3).h ∧
    (word 1 0x000 true 3).h < (idle {}).cfg.nhosts ∧
    (∃ t, eventStep (.host (word 0 0x000 true 3)) { idle {} with denied := true } = .next t ∧ t.denied = false) :=
  ⟨rfl, by decide, by decide, ⟨_, rfl, rfl⟩⟩

theorem witness_LockAcquireAndRelease : (word 1 0x028 true 1).h < (idle {}).cfg.nhosts ∧ (word 1 0x028 true 1).wdata.getLsbD 0 = true ∧
    (word 1 0x028 true 0).wdata.getLsbD 0 = false ∧ (idle {}).owner = none ∧ { idle {} with owner := some 0 }.owner ≠ none ∧
    { idle {} with owner := some 1 }.owner = some (word 1 0x028 true 0).h ∧
    { idle {} with owner := some 0 }.owner ≠ some (word 1 0x028 true 0).h ∧ (st .nop {}).seq ≠ .idle := by decide +kernel

theorem witness_CommandCannotBeCancelled : (st .select {}).seq = .run (run .select {}) ∧
    (∃ t, eventStep (.host (word 1 0x000 true 3)) (st .select {}) = .next t) ∧ (∃ t, eventStep .timer (st .select {}) = .next t) ∧
    (∃ t, eventStep .reset (st .select {}) = .next t) := ⟨rfl, ⟨_, rfl⟩, ⟨_, rfl⟩, ⟨_, rfl⟩⟩

theorem witness_ResetRestoresEveryValue : (st .nop {}).cfg.banks[7]? = some { desc := smallDesc, prof := { eraseRequired := true } } := by
  decide +kernel

theorem witness_PowerTimerEndsAFinitePullup :
    { idle {} with pwrActive := true, pwrDur := .smartDone }.pwrActive = true ∧ (durationCode .smartDone).toNat ≤ 4 ∧
    { idle {} with pwrDur := .infinite }.pwrDur = .infinite ∧
    (at' (.spCopy 4) (.power (.copy (.send .power))) {}).seq =
      .run { run (.spCopy 4) {} with pos := .power (.copy (.send .power)) } ∧
    decode (run (.spCopy 4) {}).word = .ok (.spCopy 4) ∧ standsAt (.spCopy 4) (.power (.copy (.send .power))) = true := by
  decide +kernel

theorem witness_MemReadAndMemWriteAreExact : 255 + [(7 : Byte)].length ≤ 256 ∧ 0 < [(7 : Byte)].length ∧
    (254 : Nat) < 255 ∧ 255 + [(7 : Byte)].length ≤ 256 := by decide

theorem witness_RawBusCommandsMakeOneBusStep : starts (st .putByte { a0 := 0x1CC }) (run .putByte { a0 := 0x1CC }) :=
  ⟨rfl, rfl⟩

theorem witness_NopAndSpeedCommands : starts (st .setSpeed { a0 := 3 }) (run .setSpeed { a0 := 3 }) ∧
    Speed.hyperdrive.code.toNat = (run .setSpeed { a0 := 3 }).a0.toNat ∧ 3 < (run .setSpeed { a0 := 4 }).a0.toNat :=
  ⟨⟨rfl, rfl⟩, rfl, by decide⟩

theorem witness_PowerCommands : starts (st .pwrStart { a0 := 2 }) (run .pwrStart { a0 := 2 }) ∧
    (durationCode .infinite).toNat = (run .pwrSetDuration { a0 := 5 }).a0.toNat ∧
    [(0 : Word), 1, 2].all (fun w => (run .pwrStart { a0 := w }).a0.toNat = w.toNat) ∧
    7 < (run .pwrSetDuration { a0 := 8 }).a0.toNat ∧ 2 < (run .pwrStart { a0 := 3 }).a0.toNat :=
  ⟨⟨rfl, rfl⟩, rfl, by decide, by decide, by decide⟩

theorem witness_SelectAddressesTheDevice : starts (st .select {}) (run .select {}) ∧ (st .select {}).nextPresence = true ∧
    (st .select { ps := [false] }).nextPresence = false ∧
    (let s := { st .select {} with resumeEn := true, owner := some 1, resumeArmed := true, lastSel := some 0 }
     s.resumeEn = true ∧ s.owner ≠ none ∧ s.resumeArmed = true ∧ s.lastSel = some s.romid) ∧
    ¬ ((st .select {}).resumeEn = true) := ⟨⟨rfl, rfl⟩, by decide +kernel⟩

theorem witness_DataBlockIsFullDuplex : starts (st .dataBlock { a1 := 0x00FF0001 }) (run .dataBlock { a1 := 0x00FF0001 }) ∧
    256 < 0x0100 + 1 ∧ ((0x01000000 : Word).extractLsb' 0 16).toNat = 0 ∧ ((0x01000000 : Word).extractLsb' 16 16).toNat ≤ 256 ∧
    (memWrite 255 [9] (st .dataBlock {})).data.read 255 1 = some [9] ∧
    255 + 1 ≤ 256 ∧ (st .dataBlock {}).data.read 255 1 = none := ⟨⟨rfl, rfl⟩, by decide +kernel⟩

theorem witness_CrcCommandsLeaveTheResidue : starts (st .crc8 { a1 := 0x00FF0002 }) (run .crc8 { a1 := 0x00FF0002 }) ∧
    256 < 0xFF + 2 ∧ (st .crc8 { data := [1, 2] }).data.read 0 2 = some [1, 2] ∧
    0xFF + 1 ≤ 256 ∧ (st .crc8 { data := [1, 2] }).data.read 0xFF 1 = none := ⟨⟨rfl, rfl⟩, by decide +kernel⟩

theorem witness_CheckedBlocksPass : Config.reference.crc16 = .standard := rfl

/-- POLL_LIMIT is `n`. -/
def limit (n : Byte) (s : State) : State := { s with pollLimit := n }

theorem witness_PollIsBounded : starts (limit 2 (st .poll {})) (run .poll {}) ∧
    (let s := limit 2 (st .poll { rx := [0xFF, 0xAA] })
     1 < s.pollLimit.toNat ∧ answers 1 s = ffs 1 ∧ (busBytes (ffs 1) s).nextByte ≠ 0xFF) ∧
    (let s := limit 2 (st .poll { rx := [0xFF, 0xFF] })
     0 < s.pollLimit.toNat ∧ answers s.pollLimit.toNat s = ffs s.pollLimit.toNat) ∧
    (limit 0 (st .poll {})).pollLimit = 0 := ⟨⟨rfl, rfl⟩, by decide +kernel⟩

/-- Nine echo bytes of a full select of address 0. -/
def echo : List Byte := [0x55, 0, 0, 0, 0, 0, 0, 0, 0]

theorem witness_EraseConfirmsTheStatus : starts (st (.spErase 1) { a0 := 0xFFFF }) (run (.spErase 1) { a0 := 0xFFFF }) ∧
    1 < cfg.banks.length ∧
    (let s := limit 2 (st (.spErase 1) { a0 := 0xFFFF, rx := echo ++ [0xC3, 0xFF, 0xFF, 0x3F] })
     s.nextPresence = true ∧ (s.prof 1).writeMode = .staged ∧ (s.prof 1).eraseRequired = true ∧
     (run (.spErase 1) { a0 := 0xFFFF }).a0.toNat < 0x10000 ∧
     eraseOk (s.prof 1) ((answers 4 (selectedFor 1 s)).getD 3 0) = false) ∧
    (let s := st (.spErase 7) { rx := echo ++ [0xC3, 0, 0, 0xA0] }
     eraseOk (s.prof 7) ((answers 4 (selectedFor 7 s)).getD 3 0) = true ∧ (s.prof 7).pollAfterErase = false) ∧
    (let s := limit 2 (st (.spErase 1) { rx := echo ++ [0xC3, 0, 0, 0x5C, 0xFF, 0xAA] })
     let sent := { busBytes [0xC3, 0, 0, 0xFF] (selectedFor 1 s) with spValid := false }
     eraseOk (s.prof 1) ((answers 4 (selectedFor 1 s)).getD 3 0) = true ∧ (s.prof 1).pollAfterErase = true ∧
     1 < s.pollLimit.toNat ∧ answers 1 sent = ffs 1 ∧ (busBytes (ffs 1) sent).nextByte ≠ 0xFF) ∧
    (let s := limit 2 (st (.spErase 1) { rx := echo ++ [0xC3, 0, 0, 0x5C, 0xFF, 0xFF] })
     let sent := { busBytes [0xC3, 0, 0, 0xFF] (selectedFor 1 s) with spValid := false }
     eraseOk (s.prof 1) ((answers 4 (selectedFor 1 s)).getD 3 0) = true ∧ 0 < s.pollLimit.toNat ∧
     answers s.pollLimit.toNat sent = ffs s.pollLimit.toNat) ∧
    (limit 0 (st (.spErase 1) {})).pollLimit = 0 := ⟨⟨rfl, rfl⟩, by decide +kernel⟩

theorem witness_WriteStagesOneWindow :
    starts (st (.spWrite 0) { a0 := 0x1F, a1 := 5 }) (run (.spWrite 0) { a0 := 0x1F, a1 := 5 }) ∧
    (let s := st (.spWrite 0) { a0 := 0x1F, a1 := 5, data := [0xAB], rx := echo ++ [0x0F, 0x1F, 0x00, 0xAB, 0x8C, 0x92] }
     s.nextPresence = true ∧ (s.prof 0).writeMode = .staged ∧ min 5 (32 - 0x1F % 32) = 1 ∧ s.data.read 0 1 = some [0xAB] ∧
     0x1F % 32 + 1 = 32 ∧ crc16Fn s.cfg 0 (answers 6 (selectedFor 0 s)) = 0xB001) ∧
    (let s := st (.spWrite 0) { a0 := 0x1F, a1 := 5, data := [0xAB], rx := echo ++ [0x0F, 0x1F, 0x00, 0xAB, 0x8C, 0x93] }
     crc16Fn s.cfg 0 (answers 6 (selectedFor 0 s)) ≠ 0xB001) ∧
    ¬ (0x1E % 32 + min 1 (32 - 0x1E % 32) = 32) := ⟨⟨rfl, rfl⟩, by decide +kernel⟩

/-- The read-back of one byte AB at the end of a window: header and data with its CRC. -/
def oneBack : List Byte := [0xAA, 0x1F, 0x00, 0x1F, 0xAB, 0xA9, 0xBC]

theorem witness_ReadBackReturnsTheRestOfTheWindow :
    starts (st (.spRead 0) { a1 := 0x00E00000 }) (run (.spRead 0) { a1 := 0x00E00000 }) ∧ 0xE0 + 32 ≤ 256 ∧
    (let s := st (.spRead 0) { rx := echo ++ oneBack }
     let sel := selectedFor 0 s
     let h := answers 4 sel
     s.nextPresence = true ∧ (s.prof 0).writeMode = .staged ∧ 32 - (h.getD 1 0).toNat % 32 = 1 ∧
     crc16Fn s.cfg 0 (h ++ answers 3 (busBytes [0xAA, 0xFF, 0xFF, 0xFF] sel)) = 0xB001) ∧
    (let s := st (.spRead 0) { rx := echo ++ [0xAA, 0x1F, 0x00, 0x1F, 0xAC, 0xA9, 0xBC] }
     let sel := selectedFor 0 s
     crc16Fn s.cfg 0 (answers 4 sel ++ answers 3 (busBytes [0xAA, 0xFF, 0xFF, 0xFF] sel)) ≠ 0xB001) :=
  ⟨⟨rfl, rfl⟩, by decide +kernel⟩

theorem witness_CopyEchoesTheReadBack : starts (readBack (.spCopy 0) {}) (run (.spCopy 0) {}) ∧
    (let s := { readBack (.spCopy 0) {} with lastSel := some 1 }
     s.nextPresence = true ∧ (s.prof 0).writeMode = .staged ∧ (s.prof 0).macCopy = false ∧ s.spValid = true ∧
     s.lastSel ≠ some s.romid) ∧
    (let s := limit 2 (readBack (.spCopy 0) { rx := echo ++ [0x55, 0x1F, 0x00, 0x1F, 0xFF, 0xAA] })
     let sent := busBytes [0x55, 0x1F, 0x00, 0x1F] { selectedFor 0 s with spValid := false }
     s.lastSel = some s.romid ∧ (s.prof 0).strongPullupOnCopy = false ∧ 1 < s.pollLimit.toNat ∧
     answers 1 sent = ffs 1 ∧ (busBytes (ffs 1) sent).nextByte ≠ 0xFF) ∧
    (let s := limit 2 (readBack (.spCopy 0) { rx := echo ++ [0x55, 0x1F, 0x00, 0x1F, 0xFF, 0xFF] })
     let sent := busBytes [0x55, 0x1F, 0x00, 0x1F] { selectedFor 0 s with spValid := false }
     0 < s.pollLimit.toNat ∧ answers s.pollLimit.toNat sent = ffs s.pollLimit.toNat) ∧
    (limit 0 (readBack (.spCopy 0) {})).pollLimit = 0 := ⟨⟨rfl, rfl⟩, by decide +kernel⟩

/-- A MAC of 20 bytes. -/
def mac : List Byte := List.replicate 20 0x6D

theorem witness_MacCopyClassifiesTheStatus : starts (readBack (.spCopyMac 2) { data := mac }) (run (.spCopyMac 2) {}) ∧
    (let s := { readBack (.spCopyMac 2) { data := mac } with lastSel := some 1 }
     s.nextPresence = true ∧ (s.prof 2).writeMode = .staged ∧ (s.prof 2).macCopy = true ∧ s.spValid = true ∧
     s.data.read 0 20 = some mac ∧ s.lastSel ≠ some s.romid) ∧
    ([(0xAA : Byte), 0x55, 0x00].all fun v =>
      let s := limit 2 (readBack (.spCopyMac 2) { data := mac, rx := echo ++ [0x55, 0x1F, 0x00, 0x1F] ++ mac ++ [0xFF, v] })
      let sent := busBytes ([0x55, 0x1F, 0x00, 0x1F] ++ mac) { selectedFor 2 s with spValid := false }
      decide (s.lastSel = some s.romid ∧ (s.prof 2).strongPullupOnCopy = false ∧ 1 < s.pollLimit.toNat ∧
        answers 1 sent = ffs 1 ∧ (busBytes (ffs 1) sent).nextByte = v)) ∧
    (let s := limit 1 (readBack (.spCopyMac 2) { data := mac, rx := echo ++ [0x55, 0x1F, 0x00, 0x1F] ++ mac ++ [0xFF] })
     let sent := busBytes ([0x55, 0x1F, 0x00, 0x1F] ++ mac) { selectedFor 2 s with spValid := false }
     0 < s.pollLimit.toNat ∧ answers s.pollLimit.toNat sent = ffs s.pollLimit.toNat) ∧
    (limit 0 (readBack (.spCopyMac 2) {})).pollLimit = 0 ∧ 236 + 20 ≤ 256 := ⟨⟨rfl, rfl⟩, by decide +kernel⟩

/-- Three bytes from 001E, one of them done: the chunk at hand is the last byte of its window, and one more follows. -/
def chunk : WriteRun := { x := 0x1E, d := [1, 2, 3], done := 1, result := 3 }

/-- The three copies, each in a state in which its select comes next; the last byte of each frame; and the states of the
pull-up and of the poll after it. -/
theorem witness_CopyPowersTheDevice :
    selecting (.spCopy 4) (run (.spCopy 4) {}) (readBack (.spCopy 4) {}) (.copy (.sel [])) ∧
    selecting (.spCopyMac 5) (run (.spCopyMac 5) {}) (readBack (.spCopyMac 5) { data := mac }) (.copyMac (.sel mac)) ∧
    selecting (.mbWrite 4) { run (.mbWrite 4) {} with pos := .reset (.range chunk (.copySel 0x1F)) }
      (at' (.mbWrite 4) (.reset (.range chunk (.copySel 0x1F))) {}) (.range chunk (.copySel 0x1F)) ∧
    (let s := readBack (.spCopy 4) {}
     s.nextPresence = true ∧ s.spValid = true ∧ s.lastSel = some s.romid ∧ (s.prof 4).strongPullupOnCopy = true ∧
     [0x55, 0x1F, 0x00] ++ [0x1F] = [(s.prof 4).cmdCopySP, s.spTA.extractLsb' 0 8, s.spTA.extractLsb' 8 8, s.spES] ++ []) ∧
    (let s := readBack (.spCopyMac 5) { data := mac }
     (s.prof 5).strongPullupOnCopy = true ∧
     ([0x55, 0x1F, 0x00, 0x1F] ++ List.replicate 19 0x6D) ++ [0x6D] =
       [(s.prof 5).cmdCopySP, s.spTA.extractLsb' 0 8, s.spTA.extractLsb' 8 8, s.spES] ++ mac) ∧
    (let s := at' (.mbWrite 4) (.reset (.range chunk (.copySel 0x1F))) {}
     let ta := BitVec.ofNat 16 ((s.desc 4).startPhysicalAddress + (chunk.x + chunk.done))
     (s.prof 4).writeMode = .staged ∧
     [0x55, 0x1F, 0x00] ++ [0x1F] = [(s.prof 4).cmdCopySP, ta.extractLsb' 0 8, ta.extractLsb' 8 8, 0x1F] ++ []) ∧
    ([true, false].all fun on =>
      let t := { at' (.spCopy 4) (.power (.copy (.send .power))) {} with pwrActive := on }
      decide (t.seq = .run { run (.spCopy 4) {} with pos := .power (.copy (.send .power)) } ∧ t.pollLimit ≠ 0 ∧
        (limit 0 t).pollLimit = 0)) ∧
    ([(0xFF : Byte), 0xAA].all fun v => [1, 2].all fun left =>
      let t := at' (.mbWrite 4) (.poll left (.range chunk (.copy .poll))) { rx := [v] }
      decide (t.seq = .run { run (.mbWrite 4) {} with pos := .poll left (.range chunk (.copy .poll)) } ∧
        t.cfg = (idle {}).cfg ∧ t.nextByte = v)) := by
  refine ⟨selecting_first ⟨rfl, rfl⟩ ⟨bank_exists (n := 4) rfl (by decide), rfl, rfl, rfl, rfl⟩,
    selecting_first ⟨rfl, rfl⟩ ⟨bank_exists (n := 5) rfl (by decide), rfl, rfl, by decide, rfl, mac, by decide +kernel, rfl⟩,
    selecting_later rfl rfl, by decide +kernel⟩

theorem witness_MemoryReadStoresTheReceivedBytes :
    starts (st (.mbRead 0 false) { a0 := 127, a1 := 0x00FF0001 }) (run (.mbRead 0 false) { a0 := 127, a1 := 0x00FF0001 }) ∧
    127 + 1 ≤ ((st (.mbRead 0 false) {}).desc 0).size ∧ 0xFF + 1 ≤ 256 ∧
    ((verified 0 (.mbRead 0 true) { a1 := 1 }).bankState 0).verified = true ∧
    ((st (.mbRead 0 true) { a1 := 1 }).bankState 0).verified = false ∧ (st (.mbRead 0 false) {}).nextPresence = true ∧
    ((0x01000000 : Word).extractLsb' 0 16).toNat = 0 := ⟨⟨rfl, rfl⟩, by decide +kernel⟩

theorem witness_PageReadChecksTheCrc :
    starts (st (.mbReadPageCrc 4 false true) { a0 := 3, a1 := 0x00FB0000 }) (run (.mbReadPageCrc 4 false true) { a0 := 3, a1 := 0x00FB0000 }) ∧
    (let d := (st (.mbReadPageCrc 4 false true) {}).desc 4
     d.hasPageAutoCRC = true ∧ d.hasExtraInfo = true ∧ 3 < d.numberPages ∧ 0xFB + d.pageLength + 1 ≤ 256) ∧
    (let s := verified 4 (.mbReadPageCrc 4 true true) { rx := [1, 2, 3, 4, 5, 0xF1, 0x44] }
     (s.bankState 4).verified = true ∧ crc16Fn s.cfg 0 (answers 7 s) = 0xB001) ∧
    (let s := st (.mbReadPageCrc 4 true true) { a0 := 1, rx := echo ++ [0xA5, 4, 0, 1, 2, 3, 4, 5, 0x7E, 0xC3] }
     (s.bankState 4).verified = false ∧ s.nextPresence = true ∧ crc16Fn s.cfg 0 (answers 10 (selectedFor 4 s)) = 0xB001) ∧
    (let s := st (.mbReadPageCrc 4 false true) { a0 := 1, rx := echo ++ [0xA5, 4, 0, 1, 2, 3, 4, 5, 0x7E, 0xC2] }
     crc16Fn s.cfg 0 (answers 10 (selectedFor 4 s)) ≠ 0xB001) := ⟨⟨rfl, rfl⟩, by decide +kernel⟩

theorem witness_PacketReadChecksThePacket :
    starts (st (.mbReadPacket 2) { a0 := 1, a1 := 0x00FF0000 }) (run (.mbReadPacket 2) { a0 := 1, a1 := 0x00FF0000 }) ∧
    (let s := st (.mbReadPacket 2) { a0 := 1, a1 := 0x00FF0000, rx := echo ++ [0xF0, 4, 0, 1, 0x77, 0xBF, 0xD9] }
     let g := ((answers 7 (selectedFor 2 s)).drop 3).take 4
     s.nextPresence = true ∧ 1 < (s.desc 2).numberPages ∧ 0xFF + (s.desc 2).maxPacketDataLength ≤ 256 ∧
     (s.desc 2).hasPageAutoCRC = false ∧ (g.getD 0 0).toNat = 1 ∧ packetSeed s 2 1 = 1 ∧
     crc16Fn s.cfg 1 (g.take 4) = 0xB001) ∧
    (let s := st (.mbReadPacket 2) { a0 := 1, a1 := 0x00FF0000, rx := echo ++ [0xF0, 4, 0, 2, 0x77, 0xBF, 0xD9] }
     let g := ((answers 7 (selectedFor 2 s)).drop 3).take 4
     ¬ (g.getD 0 0).toNat ≤ (s.desc 2).maxPacketDataLength) := ⟨⟨rfl, rfl⟩, by decide +kernel⟩

theorem witness_StagedWriteRunsTheProtocol :
    starts (st (.mbWrite 0) { a0 := 0x1F, a1 := 1, data := [0xAB] }) (run (.mbWrite 0) { a0 := 0x1F, a1 := 1 }) ∧
    (let s := limit 2 (st (.mbWrite 0) { a0 := 0x1F, a1 := 1, data := [0xAB]
                                         rx := echo ++ [0x0F, 0x1F, 0x00, 0xAB, 0x8C, 0x92] ++ echo ++ oneBack ++ echo ++
                                           [0x55, 0x1F, 0x00, 0x1F, 0xFF, 0xAA] })
     let s1 := selectedFor 0 s
     let s2 := { busBytes [0x0F, 0x1F, 0x00, 0xAB, 0xFF, 0xFF] s1 with spValid := false, spTA := 0x001F }
     let s3 := selectedFor 0 s2
     let h := answers 4 s3
     let s4 := busBytes [0xAA, 0xFF, 0xFF, 0xFF] s3
     let t := answers 3 s4
     let s5 := { busBytes (ffs 3) s4 with spTA := 0x001F, spES := h.getD 3 0, spValid := true }
     let s7 := busBytes [0x55, 0x1F, 0x00, h.getD 3 0] { selectedFor 0 s5 with spValid := false }
     (s.prof 0).writeMode = .staged ∧ (s.prof 0).macCopy = false ∧ (s.prof 0).eraseRequired = false ∧
     (s.prof 0).strongPullupOnCopy = false ∧ s.data.read 0 1 = some [0xAB] ∧ isProtected 0 0x1F 1 s = false ∧
     0x1F % 32 + 1 = 32 ∧ 0x1F + 1 ≤ (s.desc 0).size ∧
     s.nextPresence = true ∧ s2.nextPresence = true ∧ s5.nextPresence = true ∧ crc16Fn s.cfg 0 (answers 6 s1) = 0xB001 ∧
     crc16Fn s.cfg 0 (h ++ t) = 0xB001 ∧ h.getD 2 0 ++ h.getD 1 0 = (0x001F : Half) ∧ t.take 1 = [0xAB] ∧
     1 < s.pollLimit.toNat ∧ answers 1 s7 = ffs 1 ∧ (busBytes (ffs 1) s7).nextByte ≠ 0xFF) := ⟨⟨rfl, rfl⟩, by decide +kernel⟩

/-- The clause of MB_WRITE_PACKET: the empty packet of page 1 of bank 6 (address 4, seed 1) is 00 3E 3F, and completes no
window; the read-back of 28 bytes is 00 3E 3F and 25 bytes FF, with its CRC. -/
theorem witness_StagedWriteRunsTheProtocol_packet :
    starts (st (.mbWritePacket 6) { a0 := 1 }) (run (.mbWritePacket 6) { a0 := 1 }) ∧
    (let back : List Byte := [0xAA, 0x04, 0x00, 0x06, 0x00, 0x3E, 0x3F] ++ ffs 25
     let c := ~~~ crc16Standard 0 back
     let s := limit 2 (st (.mbWritePacket 6) { a0 := 1
                                               rx := echo ++ [0x0F, 0x04, 0x00, 0x00, 0x3E, 0x3F] ++ echo ++ back ++
                                                 [c.extractLsb' 0 8, c.extractLsb' 8 8] ++ echo ++
                                                 [0x55, 0x04, 0x00, 0x06, 0xFF, 0xAA] })
     let s1 := selectedFor 6 s
     let s2 := { busBytes [0x0F, 0x04, 0x00, 0x00, 0x3E, 0x3F] s1 with spValid := false, spTA := 0x0004 }
     let s3 := selectedFor 6 s2
     let h := answers 4 s3
     let s4 := busBytes [0xAA, 0xFF, 0xFF, 0xFF] s3
     let t := answers 30 s4
     let s5 := { busBytes (ffs 30) s4 with spTA := 0x0004, spES := h.getD 3 0, spValid := true }
     let s7 := busBytes [0x55, 0x04, 0x00, h.getD 3 0] { selectedFor 6 s5 with spValid := false }
     (s.prof 6).writeMode = .staged ∧ (s.prof 6).macCopy = false ∧ (s.prof 6).eraseRequired = false ∧
     (s.prof 6).strongPullupOnCopy = false ∧ s.data.read 0 0 = some [] ∧ isProtected 6 4 3 s = false ∧
     packetBytes s.cfg (packetSeed s 6 1) [] = [0x00, 0x3E, 0x3F] ∧ ¬ (4 % 32 + 3 = 32) ∧ 1 < (s.desc 6).numberPages ∧
     s.nextPresence = true ∧ s2.nextPresence = true ∧ s5.nextPresence = true ∧
     crc16Fn s.cfg 0 (h ++ t) = 0xB001 ∧ h.getD 2 0 ++ h.getD 1 0 = (0x0004 : Half) ∧ t.take 3 = [0x00, 0x3E, 0x3F] ∧
     1 < s.pollLimit.toNat ∧ answers 1 s7 = ffs 1 ∧ (busBytes (ffs 1) s7).nextByte ≠ 0xFF) := ⟨⟨rfl, rfl⟩, by decide +kernel⟩

/-- The stages of a chunk, each with its ends: the erase of bank 1 (which polls) and of bank 7, the write of a chunk that fills
its window and of one that does not, and the read-back. -/
theorem witness_StagedWriteRunsTheProtocol_stages :
    (let w : WriteRun := { x := 4, d := [1, 2], done := 1, result := 2 }
     let sel : ChunkAt → List Byte → State := fun a rx => at' (.mbWrite 1) (.reset (.range w a)) { rx := echo ++ rx }
     selecting (.mbWrite 1) { run (.mbWrite 1) {} with pos := .reset (.range w .eraseSel) } (sel .eraseSel []) (.range w .eraseSel) ∧
     selecting (.mbWrite 1) { run (.mbWrite 1) {} with pos := .reset (.range w .writeSel) } (sel .writeSel []) (.range w .writeSel) ∧
     selecting (.mbWrite 1) { run (.mbWrite 1) {} with pos := .reset (.range w .readSel) } (sel .readSel []) (.range w .readSel)) ∧
    ([(0x3F : Byte), 0xA0].all fun status =>
      let w : WriteRun := { x := 4, d := [1, 2], done := 1, result := 2 }
      let s := at' (.mbWrite 7) (.reset (.range w .eraseSel)) { rx := echo ++ [0xC3, 5, 0, status] }
      decide (s.nextPresence = true ∧ (s.prof 7).pollAfterErase = false ∧
        eraseOk (s.prof 7) ((answers 4 (selectedFor 7 s)).getD 3 0) = decide (status = 0xA0))) ∧
    ([(0xAA : Byte), 0xFF].all fun last =>
      let w : WriteRun := { x := 4, d := [1, 2], done := 1, result := 2 }
      let s := limit 2 (at' (.mbWrite 1) (.reset (.range w .eraseSel)) { rx := echo ++ [0xC3, 5, 0, 0xA0, 0xFF, last] })
      let sent := { busBytes [0xC3, 5, 0, 0xFF] (selectedFor 1 s) with spValid := false }
      decide ((s.prof 1).pollAfterErase = true ∧ eraseOk (s.prof 1) ((answers 4 (selectedFor 1 s)).getD 3 0) = true ∧
        1 < s.pollLimit.toNat ∧ answers 1 sent = ffs 1 ∧ (busBytes (ffs 1) sent).nextByte = last ∧
        (limit 0 s).pollLimit = 0)) ∧
    ([(0x92 : Byte), 0x93].all fun crc =>
      let w : WriteRun := { x := 0x1F, d := [0xAB, 1], done := 0, result := 2 }
      let s := at' (.mbWrite 0) (.reset (.range w .writeSel)) { rx := echo ++ [0x0F, 0x1F, 0x00, 0xAB, 0x8C, crc] }
      decide (0x1F % 32 + min (2 - 0) (32 - 0x1F % 32) = 32 ∧
        (crc16Fn s.cfg 0 (answers 6 (selectedFor 0 s)) = 0xB001 ↔ crc = 0x92))) ∧
    ([(0xBC : Byte), 0xBD].all fun crc =>
      let w : WriteRun := { x := 0x1F, d := [0xAB, 1], done := 0, result := 2 }
      let s := at' (.mbWrite 0) (.reset (.range w .readSel)) { rx := echo ++ oneBack.dropLast ++ [crc] }
      let h := answers 4 (selectedFor 0 s)
      let t := answers 3 (busBytes [0xAA, 0xFF, 0xFF, 0xFF] (selectedFor 0 s))
      decide (h.getD 2 0 ++ h.getD 1 0 = (0x001F : Half) ∧ t.take 1 = [0xAB] ∧
        (crc16Fn s.cfg 0 (h ++ t) = 0xB001 ↔ crc = 0xBC))) :=
  ⟨⟨selecting_later rfl rfl, selecting_later rfl rfl, selecting_later rfl rfl⟩, by decide +kernel⟩

theorem witness_DirectWriteSendsTheProfilesFrame :
    starts (st (.mbWrite 3) { a0 := 4, a1 := 1, data := [0x77] }) (run (.mbWrite 3) { a0 := 4, a1 := 1 }) ∧
    (let s := st (.mbWrite 3) { a0 := 4, a1 := 1, data := [0x77], rx := echo ++ [0xD0, 0xAA] }
     let tx := directFrame (s.prof 3) 0x0004 [0x77]
     s.nextPresence = true ∧ (s.prof 3).writeMode = .direct ∧ s.data.read 0 1 = some [0x77] ∧
     4 % (s.desc 3).pageLength + 1 ≤ (s.desc 3).pageLength ∧ isProtected 3 4 1 s = false ∧ tx = [0xD0, 0x77] ∧
     directOk (s.prof 3) tx (answers tx.length (selectedFor 3 s)) = true ∧ 4 + 1 ≤ (s.desc 3).size) ∧
    (let s := st (.mbWrite 3) { a0 := 4, a1 := 1, data := [0x77], rx := echo ++ [0xD0, 0x00] }
     directOk (s.prof 3) [0xD0, 0x77] (answers 2 (selectedFor 3 s)) = false) ∧
    (let s := st (.mbWritePacket 3) { a0 := 1 }
     packetBytes s.cfg (packetSeed s 3 1) [] = [0x00, 0x3E, 0x3F] ∧ directFrame (s.prof 3) 0x0004 [0x00, 0x3E, 0x3F] = [0xD1] ∧
     4 % (s.desc 3).pageLength + 3 ≤ (s.desc 3).pageLength ∧ isProtected 3 4 3 s = false ∧ 1 < (s.desc 3).numberPages) :=
  ⟨⟨rfl, rfl⟩, by decide +kernel⟩

/-- Bytes 3 and 4 of bank 3, the last of page 0 and the first of page 1: the first chunk goes on, the second ends the range;
each accepted and not. -/
theorem witness_DirectWriteSendsTheProfilesFrame_chunks :
    (let w : WriteRun := { x := 3, d := [0x77, 0x77], done := 1, result := 2 }
     selecting (.mbWrite 3) { run (.mbWrite 3) {} with pos := .reset (.range w .directSel) }
       (at' (.mbWrite 3) (.reset (.range w .directSel)) {}) (.range w .directSel)) ∧
    ([0, 1].all fun done => [(0xAA : Byte), 0x00].all fun v =>
      let w : WriteRun := { x := 3, d := [0x77, 0x77], done := done, result := 2 }
      let s := at' (.mbWrite 3) (.reset (.range w .directSel)) { rx := echo ++ [0xD0, v] }
      let n := min (w.d.length - w.done) ((s.desc 3).pageLength - (w.x + w.done) % (s.desc 3).pageLength)
      let tx := directFrame (s.prof 3) (BitVec.ofNat 16 ((s.desc 3).startPhysicalAddress + (w.x + w.done)))
        ((w.d.drop w.done).take n)
      decide (s.nextPresence = true ∧ (s.prof 3).writeMode = .direct ∧ (w.done + n < w.d.length ↔ done = 0) ∧
        tx = [0xD0, 0x77] ∧ directOk (s.prof 3) tx (answers tx.length (selectedFor 3 s)) = decide (v = 0xAA))) :=
  ⟨selecting_later rfl rfl, by decide +kernel⟩

theorem witness_ChunksAreCountedOneByOne :
    (let w : WriteRun := { x := 0x1C, d := [1, 2, 3, 4, 5, 6, 7, 8], done := 0, result := 8 }
     let s := at' (.mbWrite 0) (.poll 2 (.range w (.copy .poll))) { rx := [0xAA] }
     s.seq = .run { run (.mbWrite 0) {} with pos := .poll 2 (.range w (.copy .poll)) } ∧ (s.prof 0).writeMode = .staged ∧
     s.nextByte ≠ 0xFF ∧ min (8 - 0) (32 - 0x1C % 32) = 4 ∧ 0 + 4 < w.d.length) ∧
    (let w : WriteRun := { x := 0x1C, d := [1, 2, 3, 4], done := 0, result := 4 }
     let s := at' (.mbWrite 0) (.poll 1 (.range w (.copy .poll))) { rx := [0xFF] }
     s.nextByte = 0xFF ∧ w.d.length ≤ 0 + 4) := by decide +kernel

theorem witness_ChunksAreCountedOneByOne_copy :
    (let w : WriteRun := { x := 0x1F, d := [0xAB, 1], done := 0, result := 2 }
     let s := at' (.mbWrite 0) (.reset (.range w (.copySel 0x1F))) {}
     selecting (.mbWrite 0) { run (.mbWrite 0) {} with pos := .reset (.range w (.copySel 0x1F)) } s (.range w (.copySel 0x1F)) ∧
     s.nextPresence = true ∧ (s.prof 0).strongPullupOnCopy = false ∧ s.pollLimit ≠ 0 ∧ (limit 0 s).pollLimit = 0) :=
  ⟨selecting_later rfl rfl, by decide +kernel⟩

theorem witness_OnlyWriteOnceBanksRecordPages : 6 < (idle {}).banks.length ∧ ((idle {}).desc 6).writeOnce = true ∧
    ((idle {}).desc 0).writeOnce = false := by decide +kernel

theorem witness_BankStateCommands : starts (st (.mbCheckSpeed 7) {}) (run (.mbCheckSpeed 7) {}) ∧ 7 < cfg.banks.length ∧
    (st (.mbCheckSpeed 7) {}).nextPresence = true ∧ (st (.mbCheckSpeed 7) { ps := [false] }).nextPresence = false ∧
    (st (.mbForceVerify 15) {}).cfg.banks.length ≤ 15 := ⟨⟨rfl, rfl⟩, by decide +kernel⟩

theorem witness_OtpQueriesReturnTheFlag : starts (st (.otpIsLocked 3) { a0 := 1 }) (run (.otpIsLocked 3) { a0 := 1 }) ∧
    (let s := st (.otpIsLocked 3) { a0 := 1 }
     s.nextPresence = true ∧ 1 < (s.desc 3).numberPages ∧ (s.prof 3).otpSupported.contains .lockRead = true ∧
     (s.prof 3).otpSupported.contains .redirectRead = true ∧ (s.prof 3).otpSupported.contains .redirectLockRead = true) :=
  ⟨⟨rfl, rfl⟩, by decide +kernel⟩

/-- Each outcome of the first read, of the write and of the read-back. -/
theorem witness_OtpLocksAreReadBack : starts (st (.otpLock 3) { a0 := 1 }) (run (.otpLock 3) { a0 := 1 }) ∧
    ([([(0xEE : Byte)], (none : Option Half)), ([1], some 1), ([0], some 0)].all fun e =>
      let s := st (.otpLock 3) { a0 := 1, rx := echo ++ e.1 }
      decide ((s.bankState 3).readOnly = false ∧ s.nextPresence = true ∧
        otpDecode (s.prof 3) .lockRead (answers 1 (selectedFor 3 s)) = e.2)) ∧
    (let s := st (.otpLock 3) { a0 := 1, rx := echo ++ [0] ++ echo ++ [0xEE] }
     let s1 := busBytes [0x10] (selectedFor 3 s)
     s1.nextPresence = true ∧ otpDecode (s.prof 3) .lockWrite (answers 1 (selectedFor 3 s1)) = none) ∧
    ([([(0xEE : Byte)], (none : Option Half)), ([1], some 1), ([0], some 0)].all fun e =>
      let s := st (.otpLockRedirect 3) { a0 := 1, rx := echo ++ [0] ++ echo ++ [0] ++ echo ++ e.1 }
      let s1 := busBytes [0x14] (selectedFor 3 s)
      let s2 := busBytes [0x15] (selectedFor 3 s1)
      decide (otpDecode (s.prof 3) .redirectLockRead (answers 1 (selectedFor 3 s)) = some 0 ∧
        otpDecode (s.prof 3) .redirectLockWrite (answers 1 (selectedFor 3 s1)) ≠ none ∧ s2.nextPresence = true ∧
        otpDecode (s.prof 3) .redirectLockRead (answers 1 (selectedFor 3 s2)) = e.2)) := ⟨⟨rfl, rfl⟩, by decide +kernel⟩

theorem witness_OtpRedirectIsReadBack :
    starts (st (.otpRedirect 3) { a0 := 1, a2 := 3 }) (run (.otpRedirect 3) { a0 := 1, a2 := 3 }) ∧
    (let s := st (.otpRedirect 3) { a0 := 1, a2 := 3, rx := echo ++ [0xEE] }
     (s.bankState 3).readOnly = false ∧ 1 ∉ (s.bankState 3).redirectLocked ∧ 3 < (s.desc 3).numberPages ∧
     otpDecode (s.prof 3) .redirectWrite (answers 1 (selectedFor 3 s)) = none) ∧
    ([([(0xEE : Byte)], (none : Option Half)), ([3], some 3), ([2], some 2)].all fun e =>
      let s := st (.otpRedirect 3) { a0 := 1, a2 := 3, rx := echo ++ [0] ++ echo ++ e.1 }
      let s1 := busBytes [0x13] (selectedFor 3 s)
      decide (otpDecode (s.prof 3) .redirectWrite (answers 1 (selectedFor 3 s)) ≠ none ∧ s1.nextPresence = true ∧
        otpDecode (s.prof 3) .redirectRead (answers 1 (selectedFor 3 s1)) = e.2)) := ⟨⟨rfl, rfl⟩, by decide +kernel⟩

theorem witness_BankIsCheckedFirst : starts (st (.mbRead 8 true) {}) (run (.mbRead 8 true) {}) ∧
    (Instr.mbRead 8 true).bank? = some 8 ∧ (st (.mbRead 8 true) {}).cfg.banks.length ≤ 8 := ⟨⟨rfl, rfl⟩, by decide +kernel⟩

theorem witness_NoPresenceIsDeviceNotFound :
    selecting (.spErase 1) (run (.spErase 1) { a0 := 0xFFFF }) (st (.spErase 1) { a0 := 0xFFFF, ps := [false] }) (.erase .sel) ∧
    selecting (.mbRead 0 true) (run (.mbRead 0 true) { a0 := 127, a1 := 1 })
      (st (.mbRead 0 true) { a0 := 127, a1 := 1, ps := [false] }) (.mbRead .sel) ∧
    selecting (.mbWrite 1) (run (.mbWrite 1) { a0 := 15, a1 := 1 })
      (st (.mbWrite 1) { a0 := 15, a1 := 1, ps := [false], data := [9] })
      (.range { x := 15, d := [9], done := 0, result := 1 } .eraseSel) ∧
    selecting (.otpIsLocked 3) (run (.otpIsLocked 3) { a0 := 3 }) (st (.otpIsLocked 3) { a0 := 3, ps := [false] })
      (.otpSel .first) ∧
    (let w : WriteRun := { x := 0, d := [1, 2], done := 1, result := 2 }
     selecting (.mbWrite 0) { run (.mbWrite 0) {} with pos := .reset (.range w .readSel) }
       (at' (.mbWrite 0) (.reset (.range w .readSel)) { ps := [false] }) (.range w .readSel)) ∧
    selecting (.otpLock 3) { run (.otpLock 3) {} with pos := .reset (.otpSel .verify) }
      (at' (.otpLock 3) (.reset (.otpSel .verify)) { ps := [false] }) (.otpSel .verify) ∧
    (Instr.otpLock 3).bank? = some 3 ∧ (st (.spErase 1) { ps := [false] }).nextPresence = false := by
  refine ⟨selecting_first ⟨rfl, rfl⟩ ⟨bank_exists (n := 1) rfl (by decide), ?_⟩, selecting_first ⟨rfl, rfl⟩ ⟨bank_exists (n := 0) rfl (by decide), ?_⟩,
    selecting_first ⟨rfl, rfl⟩ ⟨bank_exists (n := 1) rfl (by decide), ?_⟩, selecting_first ⟨rfl, rfl⟩ ⟨bank_exists (n := 3) rfl (by decide), ?_⟩,
    selecting_later rfl rfl, selecting_later rfl rfl, rfl, rfl⟩
  · exact ⟨rfl, rfl, by decide, rfl⟩
  · exact ⟨by decide +kernel, by decide, by decide, .inr rfl, rfl⟩
  · exact ⟨.inr rfl, by decide +kernel, by decide, by decide, by decide +kernel, [9], rfl, rfl⟩
  · exact ⟨by decide +kernel, by decide +kernel, rfl⟩

theorem witness_ScratchpadChecks : starts (st (.spWrite 0) { a0 := 0x10000 }) (run (.spWrite 0) { a0 := 0x10000 }) ∧
    (let s := st (.spWrite 0) {}
     (s.prof 3).writeMode = .direct ∧ (s.prof 0).eraseRequired = false ∧ (s.prof 1).eraseRequired = true ∧
     (s.prof 1).writeMode = .staged ∧ 0x10000 ≤ (0x10000 : Word).toNat ∧ ((0 : Word).extractLsb' 0 16).toNat = 0 ∧
     256 < 255 + min 2 (32 - (0 : Word).toNat % 32) ∧ 256 < 225 + 32 ∧ (s.prof 2).macCopy = true ∧
     (s.prof 0).macCopy = false ∧ s.spValid = false ∧ 256 < 237 + 20 ∧ 236 + 20 ≤ 256) := ⟨⟨rfl, rfl⟩, by decide +kernel⟩

theorem witness_MemoryBankChecks : starts (st (.mbWrite 0) { a0 := 128, a1 := 1 }) (run (.mbWrite 0) { a0 := 128, a1 := 1 }) ∧
    (let s := st (.mbWrite 0) {}
     (s.desc 0).size < 128 + 1 ∧ 256 < 256 + 1 ∧ (s.prof 2).writeMode = .staged ∧ (s.prof 2).macCopy = true ∧
     (s.prof 3).writeMode = .direct ∧ (s.prof 0).macCopy = false ∧ (s.desc 0).numberPages ≤ 4 ∧
     (s.desc 0).maxPacketDataLength < 30 ∧ 128 ≤ (s.desc 0).size ∧ (s.desc 2).hasPageAutoCRC = false ∧
     (s.desc 0).hasExtraInfo = false ∧ (s.desc 0).hasPageAutoCRC = true ∧ 256 < 252 + (s.desc 4).pageLength + 1 ∧
     256 < 256 + (s.desc 4).maxPacketDataLength) := ⟨⟨rfl, rfl⟩, by decide +kernel⟩

theorem witness_ProtectedPagesAreNotWritten : starts (st (.mbWrite 6) { a0 := 3, a1 := 2 }) (run (.mbWrite 6) { a0 := 3, a1 := 2 }) ∧
    (let s := setBank 6 (fun b => { b with pageCommitted := [1] }) (st (.mbWrite 6) {})
     (s.prof 6).macCopy = false ∧ (s.desc 6).writeOnce = true ∧ 1 ∈ (s.bankState 6).pageCommitted ∧
     3 / (s.desc 6).pageLength ≤ 1 ∧ 1 ≤ (3 + 2 - 1) / (s.desc 6).pageLength ∧ 3 + 2 ≤ (s.desc 6).size ∧
     4 / (s.desc 6).pageLength ≤ 1 ∧ 1 ≤ (4 + (1 + 3) - 1) / (s.desc 6).pageLength) ∧
    (setBank 0 (fun b => { b with readOnly := true }) (idle {}) |>.bankState 0).readOnly = true ∧
    3 ∈ ((setPageLocked 0 3 (idle {})).bankState 0).pageLocked := ⟨⟨rfl, rfl⟩, by decide +kernel⟩

theorem witness_OtpChecks : starts (st (.otpRedirect 3) { a0 := 4, a2 := 4 }) (run (.otpRedirect 3) { a0 := 4, a2 := 4 }) ∧
    (let s := st (.otpRedirect 3) {}
     OtpKind.lockWrite ∉ (s.prof 0).otpSupported ∧ (∀ k ∈ [OtpKind.lockWrite, .lockRead], k ∈ (s.prof 3).otpSupported) ∧
     OtpKind.redirectLockWrite ∈ (s.prof 3).otpSupported ∧ OtpKind.redirectLockRead ∈ (s.prof 3).otpSupported ∧
     OtpKind.redirectWrite ∈ (s.prof 3).otpSupported ∧ OtpKind.redirectRead ∈ (s.prof 3).otpSupported ∧
     (s.desc 3).numberPages ≤ 4 ∧ 3 < (s.desc 3).numberPages) ∧
    (setBank 3 (fun b => { b with readOnly := true }) (idle {}) |>.bankState 3).readOnly = true ∧
    2 ∈ ((setRedirectLocked 3 2 (idle {})).bankState 3).redirectLocked := ⟨⟨rfl, rfl⟩, by decide +kernel⟩

theorem witness_EveryCommandAnswersANextState : (st .crc8 {}).seq = .run (run .crc8 {}) ∧ standsAt .crc8 .start = true ∧
    (∀ a, a < 256 → (idle { data := List.replicate 256 1 }).data.get a ≠ none) ∧
    (∀ t, exec .crc8 (st .crc8 { a1 := 1 }) ≠ .next t) ∧ standsAt .select (.address [1] .select) = true :=
  ⟨rfl, rfl, by decide +kernel, (fun _ h => by cases h), rfl⟩

theorem witness_OneBusStepPerControllerStep : ∃ t, exec .putByte (st .putByte {}) = .next t := ⟨_, rfl⟩

theorem witness_DataIsWrittenOnlyAtAnOkEnd : ∃ t, exec .dataBlock (at' .dataBlock (.xfer [0xFF] [] .block) { a1 := 1, rx := [7] }) =
    .next t ∧ t.data ≠ (at' .dataBlock (.xfer [0xFF] [] .block) { a1 := 1, rx := [7] }).data :=
  ⟨_, rfl, by decide +kernel⟩

theorem witness_CommandsWriteOnlyTheirState :
    gives (fun t => t.speed) (exec .setSpeed (st .setSpeed { a0 := 3 })) .hyperdrive ∧
    gives (fun t => t.pdur) (exec .pwrSetDuration (st .pwrSetDuration { a0 := 5 })) .infinite ∧
    gives (fun t => (t.bankState 7).readOnly) (exec (.mbWriteProtect 7) (st (.mbWriteProtect 7) {})) true ∧
    gives (fun t => (t.bankState 3).pageLocked) (exec (.otpLock 3) (at' (.otpLock 3)
      (.xfer [0xFF] [] (.otpFrame .first)) { a0 := 1, rx := [1] })) [1] ∧
    gives (fun t => (t.bankState 3).redirectLocked) (exec (.otpLockRedirect 3) (at' (.otpLockRedirect 3)
      (.xfer [0xFF] [] (.otpFrame .first)) { a0 := 1, rx := [1] })) [1] ∧
    gives (fun t => (t.bankState 6).pageCommitted) (exec (.mbWrite 6) (at' (.mbWrite 6)
      (.poll 20 (.range { x := 3, d := [7], done := 0, result := 1 } (.copy .poll))) { rx := [0xAA] })) [0] := by decide +kernel

theorem witness_ProtectionLastsUntilReset : (∃ t, eventStep (.host (word 0 0x008 true 3)) (setPageLocked 0 3 (idle {})) = .next t) ∧
    (∃ t, eventStep .controller (setPageLocked 0 3 (st .nop {})) = .next t) ∧
    3 ∈ ((setPageLocked 0 3 (idle {})).bankState 0).pageLocked ∧ 0 < (setPageLocked 0 3 (idle {})).banks.length :=
  ⟨⟨_, rfl⟩, ⟨_, rfl⟩, by decide +kernel⟩

theorem witness_InvariantHoldsAtReset : cfg.wf ∧ Config.reference.wf := by decide +kernel

/-- The invariant holds while a command is in flight, and a step is taken from there. -/
theorem witness_EveryStepKeepsTheInvariant : Inv (st .nop {}) ∧ ∃ t, step (st .nop {}) = .next t := by
  refine ⟨⟨by decide +kernel, rfl, by decide +kernel, by decide +kernel, rfl, rfl, ?_, ?_⟩, _, rfl⟩
  · intro h hh; cases hh
  · intro r hr
    cases hr
    exact ⟨rfl, rfl, by decide +kernel, rfl⟩

end Sys2Proof.Tests
end

/-! PROOFS. DATA after a `MemWrite`; then the invariant: it holds at reset, every elementary update of a
controller step and of a host access keeps it, and so every step of every agent does. -/

namespace Sys2Proof.Machine

/-! ## DATA -/

/-- Settles O22, from the laws of the DATA buffer: a byte inside, below and above the written range. -/
theorem memReadAndMemWriteAreExact : Obligations.MemReadAndMemWriteAreExact := by
  intro s off d hfit
  have hin (j : Nat) (hj : j < d.length) : (memWrite off d s).data.get (off + j) = some d[j] :=
    Memory.get_write_at _ _ _ hj (show off + j < 256 by omega)
  refine ⟨hin, fun a ha => ?_, Memory.read_eq_some.mpr ⟨rfl, hin⟩, ?_, rfl⟩
  · rcases ha with hbelow | habove
    · exact Memory.get_write_below _ _ _ hbelow
    · exact Memory.get_write_above _ _ _ habove
  · rw [Memory.read_eq_some]
    exact and_iff_right rfl

/-! ## The invariant at reset -/

/-- The invariant at reset: the page sets and the trace are empty, and nothing is tracked, held or in flight. -/
theorem inv_resetWith {c : Config} (hc : c.wf = true) : Inv (State.resetWith c) where
  cfg_wf := hc
  data_wf := rfl
  banks_len := List.length_map _
  banks_wf := by
    intro bs hbs
    obtain ⟨b, -, rfl⟩ := List.mem_map.mp hbs
    rfl
  pullup := rfl
  resume := rfl
  owner_host := nofun
  in_flight := nofun

/-- Settles O59. -/
theorem invariantHoldsAtReset : Obligations.InvariantHoldsAtReset := fun _ => inv_resetWith

/-! ## The updates of a controller step -/

section
variable {s t : State}

/-- What a trace says of the pull-up after one more event (rule R198). -/
theorem pullupTrace_concat {h : List BusEvent} {on : Bool} (e : BusEvent) (hh : pullupTrace h = some on) :
    pullupTrace (h ++ [e]) = pullupAfter on e := by
  rw [pullupTrace_append _ _ hh]
  rfl

/-- A strong pull-up that is on may end (rule R198). -/
theorem inv_endPullup (h : Inv s) : Inv (endPullup s) := by
  unfold endPullup
  split
  · next hon => exact { h with pullup := (pullupTrace_concat .pullupEnd h.pullup).trans (by rw [hon]; rfl) }
  · exact h

/-- A strong pull-up may start where none is on (rule R198). -/
theorem inv_startPullup (h : Inv s) (hoff : s.pwrActive = false) : Inv (startPullup s) :=
  { h with pullup := (pullupTrace_concat (.pullupStart s.pwrDur) h.pullup).trans (by rw [hoff]; rfl) }

/-- A bus step may come where no strong pull-up is on (rule R198). -/
theorem inv_note_busStep {e : BusEvent} (h : Inv s) (hoff : s.pwrActive = false) (he : e.isBusStep = true) :
    Inv (note e s) :=
  have hstep : pullupAfter false e = some false := by
    cases e with
    | reset p => rfl
    | byte tx rx => rfl
    | pullupStart d => cases he
    | pullupEnd => cases he
  { h with
    pullup := by
      change pullupTrace (s.hist ++ [e]) = some s.pwrActive
      rw [pullupTrace_concat e h.pullup, hoff, hstep] }

theorem inv_busReset (h : Inv s) : Inv (busReset s) :=
  { inv_note_busStep (e := .reset s.nextPresence) (inv_endPullup h) (endPullup_sets s).1 rfl with }

theorem inv_busByte (h : Inv s) (tx : Byte) : Inv (busByte tx s) := by
  have hoff : (endPullup s).pwrActive = false := (endPullup_sets s).1
  have hsent : Inv (note (.byte tx s.nextByte) (byteTaken (endPullup s))) :=
    { inv_note_busStep (e := .byte tx s.nextByte) (inv_endPullup h) hoff rfl with }
  unfold busByte
  dsimp only
  split
  · exact inv_startPullup hsent hoff
  · exact hsent

theorem inv_timerStep (h : Inv s) : Inv (timerStep s) := by
  unfold timerStep
  split
  · exact inv_endPullup h
  · exact h

theorem inv_dropSelection (h : Inv s) : Inv (dropSelection s) := { h with resume := rfl }

theorem inv_noteSelected (h : Inv s) : Inv (noteSelected s) := { h with resume := rfl }

/-- The end of a command leaves none in flight (rule R145). -/
theorem inv_finish (c : ErrCode) (v : Word) (h : Inv s) : Inv (finish c v s) := { h with in_flight := nofun }

/-- A failed command leaves none in flight (rule R146). -/
theorem inv_raise (e : ErrCode) (v : Word) (h : Inv s) : Inv (raise e v s) := { h with in_flight := nofun }

theorem inv_memWrite (off : Nat) (d : List Byte) (h : Inv s) : Inv (memWrite off d s) :=
  { h with data_wf := Memory.wf_write h.data_wf off d }

/-- A write of one bank that keeps its page sets in canonical form. -/
theorem inv_setBank (b : Nat) {f : BankState → BankState} (hf : ∀ x : BankState, x.wf = true → (f x).wf = true)
    (h : Inv s) : Inv (setBank b f s) :=
  { h with
    banks_len := (List.length_modify ..).trans h.banks_len
    banks_wf := by
      intro x hx
      obtain ⟨n, hn, rfl⟩ := List.getElem_of_mem hx
      simp only [setBank_sets, List.getElem_modify]
      rw [setBank_sets, List.length_modify] at hn
      split
      · exact hf _ (h.banks_wf _ (List.getElem_mem hn))
      · exact h.banks_wf _ (List.getElem_mem hn) }

theorem bankState_wf_iff (b : BankState) : b.wf = true ↔
    risingPages b.pageLocked = true ∧ risingPages b.pageCommitted = true ∧ risingPages b.redirectLocked = true := by
  rw [BankState.wf, Bool.and_eq_true, Bool.and_eq_true, and_assoc]

theorem inv_setPageLocked (b p : Nat) (h : Inv s) : Inv (setPageLocked b p s) :=
  inv_setBank b (fun x hx => by
    obtain ⟨hl, hc, hr⟩ := (bankState_wf_iff x).mp hx
    exact (bankState_wf_iff _).mpr ⟨risingPages_insertPage p _ hl, hc, hr⟩) h

theorem inv_setRedirectLocked (b p : Nat) (h : Inv s) : Inv (setRedirectLocked b p s) :=
  inv_setBank b (fun x hx => by
    obtain ⟨hl, hc, hr⟩ := (bankState_wf_iff x).mp hx
    exact (bankState_wf_iff _).mpr ⟨hl, hc, risingPages_insertPage p _ hr⟩) h

theorem inv_commitPages (b x n : Nat) (h : Inv s) : Inv (commitPages b x n s) := by
  unfold commitPages
  split
  · refine inv_setBank b (fun y hy => ?_) h
    obtain ⟨hl, hc, hr⟩ := (bankState_wf_iff y).mp hy
    exact (bankState_wf_iff _).mpr ⟨hl, risingPages_foldl_insertPage _ _ hc, hr⟩
  · exact h

/-- SET_SPEED's write of every bank (rule R193). -/
theorem inv_setSpeed (m : Speed) (h : Inv s) :
    Inv { s with speed := m, banks := s.banks.map fun bs => { bs with verified := false } } :=
  { h with
    banks_len := (List.length_map _).trans h.banks_len
    banks_wf := by
      intro x hx
      obtain ⟨y, hy, rfl⟩ := List.mem_map.mp hx
      exact h.banks_wf y hy }

/-! ## Placed commands -/

/-- Before its first step any word is placed, an illegal one too (rule R147). -/
theorem placed_of_start {r : Run} (hp : r.pos = .start) : placed r := by
  unfold placed
  split
  · rw [hp]; rfl
  · exact hp

theorem placed_iff {r : Run} {i : Instr} (hd : decode r.word = .ok i) : placed r ↔ standsAt i r.pos = true := by
  rw [placed, hd]

/-! ## The controller -/

/-- Along a controller step of the command `r`: the invariant, and `r` still in flight. -/
structure InvDuring (r : Run) (s : State) : Prop where
  inv : Inv s
  running : s.seq = .run r

/-- The command in flight goes on to a position of its own. -/
theorem inv_stand {r : Run} {i : Instr} {p : Pos} (hd : decode r.word = .ok i) (hp : standsAt i p = true)
    (h : InvDuring r s) : Inv (stand r p s) :=
  { h.inv with
    in_flight := by
      intro q hq
      cases hq
      obtain ⟨hdone, herr, hhost, -⟩ := h.inv.in_flight r h.running
      exact ⟨hdone, herr, hhost, (placed_iff (r := { r with pos := p }) hd).mpr hp⟩ }

/-- Every elementary update of a controller step keeps the invariant. -/
theorem stepClosed_inv {r : Run} {i : Instr} (hd : decode r.word = .ok i) : StepClosed i r (InvDuring r) Inv where
  stay _ h := h.inv
  stand _ _ h hp := inv_stand hd hp h
  finish c v _ h := inv_finish c v h.inv
  raise e v _ h := inv_raise e v h.inv
  finishData _ v off d _ _ h := inv_finish .ok v (inv_memWrite off d h.inv)
  dropSelection _ h := ⟨inv_dropSelection h.inv, h.running⟩
  noteSelected _ h := ⟨inv_noteSelected h.inv, h.running⟩
  verified b _ _ _ h := ⟨inv_setBank b (fun _ hx => hx) h.inv, h.running⟩
  scratch _ _ _ _ h := ⟨{ h.inv with }, h.running⟩
  arm _ _ h := ⟨{ h.inv with }, h.running⟩
  speed _ m _ h := ⟨inv_setSpeed m h.inv, h.running⟩
  pdur _ _ _ h := ⟨{ h.inv with }, h.running⟩
  pwrNow _ s h := ⟨inv_startPullup { inv_endPullup h.inv with } (endPullup_sets s).1, by simpa using h.running⟩
  pwrNext _ _ h := ⟨{ h.inv with }, h.running⟩
  pwrNormal _ _ h := ⟨{ inv_endPullup h.inv with }, by simpa using h.running⟩
  protect b _ _ h := ⟨inv_setBank b (fun _ hx => hx) h.inv, h.running⟩
  lock b _ p _ h := ⟨inv_setPageLocked b p h.inv, h.running⟩
  lockRedirect b _ p _ h := ⟨inv_setRedirectLocked b p h.inv, h.running⟩
  commit b _ x n s h := ⟨inv_commitPages b x n h.inv, by unfold commitPages; split <;> exact h.running⟩

/-- The bus steps that a controller step may begin with keep the invariant and the command in flight. -/
theorem busClosed_inv {r : Run} (h : InvDuring r s) : BusClosed (InvDuring r) s where
  self := h
  reset := ⟨inv_busReset h.inv, by simpa using h.running⟩
  byte tx := ⟨inv_busByte h.inv tx, by simpa using h.running⟩
  rawReset := ⟨inv_busReset (inv_dropSelection h.inv), by simpa using h.running⟩
  rawByte tx := ⟨inv_busByte (inv_dropSelection h.inv) tx, by simpa using h.running⟩

theorem inv_controllerStep (h : Inv s) (hstep : controllerStep s = .next t) : Inv t := by
  rcases controllerStep_next hstep with rfl | ⟨r, i, hrun, hd, hexec⟩ | ⟨rfl, -⟩
  · exact h
  · exact exec_closed (stepClosed_inv hd) hrun (busClosed_inv ⟨h, hrun⟩) hexec
  · exact inv_raise _ _ h

/-! ## The host port and the reset input -/

/-- An accepted command starts, for a host that exists (rule R141). -/
theorem inv_accept {a : Nat} (w : Word) (ha : a < s.cfg.nhosts) (h : Inv s) : Inv (accept a w s) :=
  { h with
    in_flight := by
      intro r hr
      cases hr
      exact ⟨rfl, rfl, ha, placed_of_start rfl⟩ }

theorem inv_writeReg {a off : Nat} {w : Word} (ha : a < s.cfg.nhosts) (h : Inv s) : Inv (writeReg a off w s) :=
  writeReg_closed (P := Inv) h
    (hovr := fun _ => { h with })
    (haccept := fun _ _ _ => inv_accept w ha h)
    (hdenied := fun _ => { h with })
    (harg0 := { h with }) (harg1 := { h with }) (harg2 := { h with })
    (hconfig := { h with }) (hrom0 := { h with }) (hrom1 := { h with })
    (hacquire := fun _ => { h with owner_host := fun _ ho => Option.some.inj ho ▸ ha })
    (hrelease := inv_dropSelection { h with owner_host := nofun })
    (hdata := inv_memWrite _ _ h)

theorem inv_hostAccess {a : Access} (h : Inv s) (hstep : hostAccess a s = .next t) : Inv t := by
  obtain ⟨ha, ⟨resp, rfl⟩ | ⟨-, -, rfl⟩⟩ := hostAccess_next hstep
  · exact { h with }
  · exact { inv_writeReg ha h with }

theorem inv_resetInput (h : Inv s) : Inv (resetInput s) := { inv_resetWith h.cfg_wf with }

/-! ## Every step -/

theorem inv_eventStep {e : Event} (h : Inv s) (hstep : eventStep e s = .next t) : Inv t := by
  cases e with
  | host a => exact inv_hostAccess h hstep
  | controller => exact inv_controllerStep h hstep
  | timer => cases hstep; exact inv_timerStep h
  | reset => cases hstep; exact inv_resetInput h

theorem inv_unscheduledStep (h : Inv s) (hstep : unscheduledStep s = .next t) : Inv t := by
  unfold unscheduledStep at hstep
  split at hstep
  · exact inv_controllerStep h hstep
  · cases hstep; exact inv_timerStep h

end

/-- Settles O60, agent by agent: a step is that of the event scheduled first, or an unscheduled one. -/
theorem everyStepKeepsTheInvariant : Obligations.EveryStepKeepsTheInvariant := by
  intro s t h hstep
  unfold step at hstep
  split at hstep
  · split at hstep
    · exact inv_unscheduledStep h hstep
    · next e rest _ =>
      have hpopped : Inv { s with sched := rest } := { h with }
      exact inv_eventStep hpopped hstep
  · cases hstep

end Sys2Proof.Machine

/-! PROOFS. The state as a host sees it and as the commands leave it: what a read of a register answers, the registers
field by field, and the reset input; then the frame of every command, and that no step of an agent lifts a protection. -/

namespace Sys2Proof.Machine

/-! ## What a read answers -/

/-- A reserved offset below DATA reads 0 (rule R30). -/
theorem readReg_reserved {s : State} {off : Nat} (hlow : 0x034 ≤ off) (hhigh : off < 0x100) :
    readReg s off = some 0 := by
  unfold readReg
  split
  case h_14 => exact if_pos hhigh
  all_goals omega

/-- Settles O7: an accepted read answers what `readReg` gives at its offset. -/
theorem readsReturnTheRegister : Obligations.ReadsReturnTheRegister := by
  intro a s hhost hsize hread halign
  have hanswer {v : Word} (hbelow : a.off < 0x100) (hv : readReg s a.off = some v) :
      hostAccess a s = .next (respond a { rdata := v, err := false } s) :=
    hostAccess_read hhost (access_ok hsize halign (by omega)) hread hv
  refine ⟨?_, fun hlow hhigh => hanswer hhigh (readReg_reserved hlow hhigh)⟩
  simp only [List.forall_mem_cons, List.not_mem_nil, false_imp_iff, implies_true, and_true]
  refine ⟨?_, ?_, ?_, ?_, ?_, ?_, ?_, ?_, ?_, ?_, ?_, ?_, ?_⟩ <;>
    exact fun hoff => hanswer (by omega) (by rw [hoff]; rfl)

/-! ## The fields of the registers -/

section
variable {m n pos lo k : Nat}

/-- A field reads as the value placed there. -/
theorem extract_field_self (v : BitVec m) (h : pos + m ≤ 32) : (field v pos).extractLsb' pos m = v := by
  apply BitVec.eq_of_getLsbD_eq
  intro k hk
  rw [BitVec.getLsbD_extractLsb', getLsbD_field]
  simp [hk, show pos + k < 32 by omega]

/-- A field is 0 above its bits. -/
theorem getLsbD_field_above (v : BitVec m) (h : pos + m ≤ k) : (field v pos).getLsbD k = false := by
  rw [getLsbD_field, BitVec.getLsbD_of_ge v _ (by omega), Bool.and_false]

theorem getLsbD_bit_above (b : Bool) (h : pos < k) : (bit b pos).getLsbD k = false := getLsbD_field_above _ h

/-- A field is 0 outside its bits. -/
theorem extract_field_apart (v : BitVec m) (h : pos + m ≤ lo ∨ lo + n ≤ pos) :
    (field v pos).extractLsb' lo n = 0#n := by
  apply BitVec.eq_of_getLsbD_eq
  intro k hk
  rw [BitVec.getLsbD_extractLsb', getLsbD_field, BitVec.getLsbD_zero]
  rcases h with habove | hbelow
  · rw [BitVec.getLsbD_of_ge v _ (by omega)]; simp
  · simp [show ¬ pos ≤ lo + k by omega]

/-- A one-bit field is 0 at every other bit. -/
theorem extract_bit_apart (b : Bool) (h : pos + 1 ≤ lo ∨ lo + n ≤ pos) : (bit b pos).extractLsb' lo n = 0#n :=
  extract_field_apart _ h

/-- The bits of the banks are 0 below bank 0's (rules R32, R41). -/
theorem extract_bankBits_below (f : BankState → Bool) (l : List BankState) (h : lo + n ≤ pos) :
    (bankBits f pos l).extractLsb' lo n = 0#n := by
  apply BitVec.eq_of_getLsbD_eq
  intro k hk
  rw [BitVec.getLsbD_extractLsb', getLsbD_bankBits, BitVec.getLsbD_zero]
  simp [show ¬ pos ≤ lo + k by omega]

end

section
variable (s : State)

/-- BUSY while a command is in flight (rule R32). -/
theorem busy_eq_decide : s.busy = decide (s.seq ≠ .idle) := by
  rw [State.busy, Bool.eq_iff_iff]
  simp

/-- STATUS below its bank bits (rule R32). -/
theorem statusWord_fields :
    s.statusWord.getLsbD 0 = s.busy ∧ s.statusWord.getLsbD 1 = s.done ∧ s.statusWord.getLsbD 2 = s.ovr ∧
    s.statusWord.getLsbD 3 = s.denied ∧ s.statusWord.getLsbD 4 = s.presence ∧
    s.statusWord.getLsbD 5 = s.owner.isSome ∧ s.statusWord.extractLsb' 6 2 = 0 ∧
    s.statusWord.extractLsb' 8 4 = s.err.code ∧ s.statusWord.extractLsb' 12 4 = 0 := by
  simp [-BitVec.getLsbD_eq_getElem, State.statusWord, BitVec.extractLsb'_or, getLsbD_bit, getLsbD_field,
    getLsbD_bankBits, extract_field_self, extract_field_apart, extract_bit_apart, extract_bankBits_below]

/-- CONFIG (rule R36). -/
theorem configWord_fields :
    s.configWord.getLsbD 0 = s.resumeEn ∧ s.configWord.extractLsb' 1 7 = 0 ∧
    s.configWord.extractLsb' 8 8 = s.pollLimit ∧ s.configWord.extractLsb' 16 16 = 0 := by
  simp [-BitVec.getLsbD_eq_getElem, State.configWord, BitVec.extractLsb'_or, getLsbD_bit, getLsbD_field,
    extract_field_self, extract_field_apart, extract_bit_apart]

/-- SPSTATE (rule R37). -/
theorem spstateWord_fields :
    s.spstateWord.extractLsb' 0 16 = s.spTA ∧ s.spstateWord.extractLsb' 16 8 = s.spES ∧
    s.spstateWord.getLsbD 24 = s.spValid ∧ s.spstateWord.extractLsb' 25 7 = 0 := by
  simp [-BitVec.getLsbD_eq_getElem, State.spstateWord, BitVec.extractLsb'_or, getLsbD_bit, getLsbD_field,
    extract_field_self, extract_field_apart, extract_bit_apart]

/-- LOCK while a host holds it (rule R39). -/
theorem lockWord_fields {h : Nat} (ho : s.owner = some h) :
    s.lockWord.getLsbD 0 = true ∧ s.lockWord.extractLsb' 1 7 = 0 ∧
    s.lockWord.extractLsb' 8 4 = BitVec.ofNat 4 h ∧ s.lockWord.extractLsb' 12 20 = 0 := by
  simp [State.lockWord, ho, BitVec.extractLsb'_or, getLsbD_bit, extract_field_self, extract_field_apart,
    extract_bit_apart]

/-- BUSSTATE (rule R40). -/
theorem busstateWord_fields :
    s.busstateWord.extractLsb' 0 2 = s.speed.code ∧ s.busstateWord.extractLsb' 2 3 = durationCode s.pdur ∧
    s.busstateWord.getLsbD 5 = s.pwrArmed ∧ s.busstateWord.getLsbD 6 = s.pwrActive ∧
    s.busstateWord.extractLsb' 7 3 = durationCode s.pwrDur ∧ s.busstateWord.getLsbD 10 = s.resumeArmed ∧
    s.busstateWord.getLsbD 11 = s.lastSel.isSome ∧ s.busstateWord.extractLsb' 12 20 = 0 := by
  simp [-BitVec.getLsbD_eq_getElem, State.busstateWord, BitVec.extractLsb'_or, getLsbD_bit, getLsbD_field,
    extract_field_self, extract_field_apart, extract_bit_apart]

/-- STATUS bit 16 + b is bank b's verified flag (rule R32). -/
theorem statusWord_bank {b : Nat} (hb : b < 16) :
    s.statusWord.getLsbD (16 + b) = (s.banks[b]?.map (·.verified)).getD false := by
  simp (disch := omega) only [State.statusWord, BitVec.getLsbD_or, getLsbD_bit_above, getLsbD_field_above,
    getLsbD_bankBits]
  simp [show 16 + b < 32 by omega]

/-- BANKRO bit b is bank b's readOnly flag (rule R41). -/
theorem bankroWord_bank {b : Nat} (hb : b < 32) :
    s.bankroWord.getLsbD b = (s.banks[b]?.map (·.readOnly)).getD false := by
  rw [State.bankroWord, getLsbD_bankBits]
  simp [hb]

end

/-- Settles O9, register by register. -/
theorem registerFields : Obligations.RegisterFields := by
  refine ⟨fun s => ⟨?_, configWord_fields s, spstateWord_fields s, ?_, fun h ho _ => lockWord_fields s ho,
    busstateWord_fields s, fun _ b => ⟨statusWord_bank s, bankroWord_bank s⟩⟩, rfl, rfl, rfl⟩
  · rw [← busy_eq_decide]
    exact statusWord_fields s
  · intro hnone
    rw [State.lockWord, hnone]

/-! ## The reset input -/

/-- Settles O18: the reset state under the configuration, and its three words under the reference one. -/
theorem resetRestoresEveryValue : Obligations.ResetRestoresEveryValue := by
  refine ⟨fun s => ⟨resetInput s, rfl, rfl, rfl, rfl, rfl, rfl, rfl, rfl, rfl, rfl, rfl, rfl, rfl, rfl, rfl, rfl, rfl,
    rfl, rfl, rfl, rfl, rfl, rfl, rfl, rfl, List.length_map _, ?_, fun _ => rfl, rfl, rfl, rfl, rfl⟩, rfl, rfl, rfl⟩
  intro b bank hbank
  change (s.cfg.banks.map BankState.reset)[b]? = some (BankState.reset bank)
  rw [List.getElem?_map, hbank]
  rfl

/-! ## The frame of every command -/

section
variable {i : Instr} {s t u : State} {b : Nat}

/-- What no command writes: the registers of the hosts, OVR and DENIED, LOCK, the configuration, the schedule, the port
record and the number of banks (rules R31, R34, R391). -/
def hostSide (s : State) : (Word × Word × Word × Bool × Byte × Word × Word) × (Bool × Bool × Option Nat) ×
    Config × List Event × List (Access × Response) × Nat :=
  ((s.arg0, s.arg1, s.arg2, s.resumeEn, s.pollLimit, s.romid0, s.romid1), (s.ovr, s.denied, s.owner),
    s.cfg, s.sched, s.portLog, s.banks.length)

theorem hostSide_setBank (b : Nat) (g : BankState → BankState) (s : State) : hostSide (setBank b g s) = hostSide s := by
  simp [hostSide]

/-- On the way of a step of command `i` from `s`: what no command writes, and what one command alone writes, as in `s`. -/
structure WritesOnlyItsState (i : Instr) (s u : State) : Prop where
  host : hostSide u = hostSide s
  speed : i ≠ .setSpeed → u.speed = s.speed
  pdur : i ≠ .pwrSetDuration → u.pdur = s.pdur

theorem writesOnlyItsState_setBank (b : Nat) (g : BankState → BankState) (h : WritesOnlyItsState i s u) :
    WritesOnlyItsState i s (setBank b g u) :=
  { h with host := (hostSide_setBank b g u).trans h.host }

theorem writesOnlyItsState_commitPages (b x n : Nat) (h : WritesOnlyItsState i s u) :
    WritesOnlyItsState i s (commitPages b x n u) := by
  obtain ⟨g, -, -, heq | heq⟩ := commitPages_cases b x n u <;> rw [heq]
  · exact h
  · exact writesOnlyItsState_setBank b g h

theorem writesOnlyItsState_endPullup (h : WritesOnlyItsState i s u) : WritesOnlyItsState i s (endPullup u) where
  host := by simpa [hostSide] using h.host
  speed := by simpa using h.speed
  pdur := by simpa using h.pdur

theorem writesOnlyItsState_busReset (h : WritesOnlyItsState i s u) : WritesOnlyItsState i s (busReset u) :=
  { writesOnlyItsState_endPullup h with }

theorem writesOnlyItsState_busByte (tx : Byte) (h : WritesOnlyItsState i s u) :
    WritesOnlyItsState i s (busByte tx u) where
  host := by simpa [hostSide] using h.host
  speed := by simpa using h.speed
  pdur := by simpa using h.pdur

/-- Every elementary update of a controller step but SET_SPEED's and PWR_SET_DURATION's keeps SPEED and PDUR. -/
theorem stepClosed_writesOnlyItsState (r : Run) :
    StepClosed i r (WritesOnlyItsState i s) (WritesOnlyItsState i s) where
  stay _ h := h
  stand _ _ h _ := { h with }
  finish _ _ _ h := { h with }
  raise _ _ _ h := { h with }
  finishData _ _ _ _ _ _ h := { h with }
  dropSelection _ h := { h with }
  noteSelected _ h := { h with }
  verified b _ _ _ h := writesOnlyItsState_setBank b _ h
  scratch _ _ _ _ h := { h with }
  arm _ _ h := { h with }
  speed hi _ u h :=
    { h with
      host := by simpa [hostSide] using h.host
      speed := fun hne => absurd hi hne }
  pdur hi _ _ h := { h with pdur := fun hne => absurd hi hne }
  pwrNow _ _ h := { writesOnlyItsState_endPullup h with }
  pwrNext _ _ h := { h with }
  pwrNormal _ _ h := { writesOnlyItsState_endPullup h with }
  protect b _ _ h := writesOnlyItsState_setBank b _ h
  lock b _ _ _ h := writesOnlyItsState_setBank b _ h
  lockRedirect b _ _ _ h := writesOnlyItsState_setBank b _ h
  commit b _ x n _ h := writesOnlyItsState_commitPages b x n h

theorem exec_writesOnlyItsState (h : exec i s = .next t) : WritesOnlyItsState i s t := by
  obtain ⟨r, hrun⟩ := exec_next_run h
  have hself : WritesOnlyItsState i s s := ⟨rfl, fun _ => rfl, fun _ => rfl⟩
  have hdropped : WritesOnlyItsState i s (dropSelection s) := { hself with }
  exact exec_closed (stepClosed_writesOnlyItsState r) hrun
    { self := hself
      reset := writesOnlyItsState_busReset hself
      byte := fun tx => writesOnlyItsState_busByte tx hself
      rawReset := writesOnlyItsState_busReset hdropped
      rawByte := fun tx => writesOnlyItsState_busByte tx hdropped } h

/-- A command leaves every bank but its own as it is, SET_SPEED apart (rules R152, R193). -/
theorem exec_otherBank (h : exec i s = .next t) (hsp : i ≠ .setSpeed) (hb : i.bank? ≠ some b) :
    t.bankState b = s.bankState b := by
  refine exec_keepsBank id b h ?_ (fun hi => absurd hi hsp) ?_ ?_ ?_ ?_
  · rintro c hc rfl; exact absurd hc hb
  · rintro c rfl rfl; exact absurd rfl hb
  · rintro c rfl rfl; exact absurd rfl hb
  · rintro c rfl rfl; exact absurd rfl hb
  · rintro c (rfl | rfl) rfl <;> exact absurd rfl hb

theorem exec_readOnly (h : exec i s = .next t) (hi : i ≠ .mbWriteProtect b) :
    (t.bankState b).readOnly = (s.bankState b).readOnly := by
  refine exec_keepsBank (·.readOnly) b h (fun _ _ _ _ _ => rfl) (fun _ _ _ => rfl) ?_ (fun _ _ _ _ _ => rfl)
    (fun _ _ _ _ _ => rfl) (fun _ _ _ _ _ => rfl)
  rintro c rfl rfl
  exact absurd rfl hi

theorem exec_pageLocked (h : exec i s = .next t) (hi : i ≠ .otpLock b) :
    (t.bankState b).pageLocked = (s.bankState b).pageLocked := by
  refine exec_keepsBank (·.pageLocked) b h (fun _ _ _ _ _ => rfl) (fun _ _ _ => rfl) (fun _ _ _ _ _ => rfl) ?_
    (fun _ _ _ _ _ => rfl) (fun _ _ _ _ _ => rfl)
  rintro c rfl rfl
  exact absurd rfl hi

theorem exec_redirectLocked (h : exec i s = .next t) (hi : i ≠ .otpLockRedirect b) :
    (t.bankState b).redirectLocked = (s.bankState b).redirectLocked := by
  refine exec_keepsBank (·.redirectLocked) b h (fun _ _ _ _ _ => rfl) (fun _ _ _ => rfl) (fun _ _ _ _ _ => rfl)
    (fun _ _ _ _ _ => rfl) ?_ (fun _ _ _ _ _ => rfl)
  rintro c rfl rfl
  exact absurd rfl hi

theorem exec_pageCommitted (h : exec i s = .next t) (hi : ¬ (i = .mbWrite b ∨ i = .mbWritePacket b)) :
    (t.bankState b).pageCommitted = (s.bankState b).pageCommitted := by
  refine exec_keepsBank (·.pageCommitted) b h (fun _ _ _ _ _ => rfl) (fun _ _ _ => rfl) (fun _ _ _ _ _ => rfl)
    (fun _ _ _ _ _ => rfl) (fun _ _ _ _ _ => rfl) ?_
  rintro c hc rfl
  exact absurd hc hi

/-- Settles O57. -/
theorem commandsWriteOnlyTheirState : Obligations.CommandsWriteOnlyTheirState := by
  intro i s t h
  obtain ⟨hhost, hspeed, hpdur⟩ := exec_writesOnlyItsState h
  refine ⟨?_, fun hne => of_not_not (hne ∘ hspeed), fun hne => of_not_not (hne ∘ hpdur), ?_,
    fun b hne => of_not_not (hne ∘ exec_readOnly h), fun b hne => of_not_not (hne ∘ exec_pageLocked h),
    fun b hne => of_not_not (hne ∘ exec_redirectLocked h), fun b hne => of_not_not (hne ∘ exec_pageCommitted h)⟩
  · simpa [hostSide, and_assoc] using hhost
  · intro b hne
    by_contra hother
    obtain ⟨hsp, hb⟩ := not_or.mp hother
    exact hne (exec_otherBank h hsp hb)

end

/-! ## Protection -/

section
variable {i : Instr} {x y z : BankState} {s t u : State}

/-- Every protection of the bank `x` stands in `y` (rules R41, R284). -/
def KeepsProtection (x y : BankState) : Prop :=
  (x.readOnly = true → y.readOnly = true) ∧ x.pageLocked ⊆ y.pageLocked ∧ x.pageCommitted ⊆ y.pageCommitted ∧
    x.redirectLocked ⊆ y.redirectLocked

theorem keepsProtection_refl (x : BankState) : KeepsProtection x x :=
  ⟨id, List.Subset.refl _, List.Subset.refl _, List.Subset.refl _⟩

theorem KeepsProtection.trans (hxy : KeepsProtection x y) (hyz : KeepsProtection y z) : KeepsProtection x z := by
  obtain ⟨hro, hlk, hcm, hrl⟩ := hxy
  obtain ⟨hro', hlk', hcm', hrl'⟩ := hyz
  exact ⟨hro' ∘ hro, List.Subset.trans hlk hlk', List.Subset.trans hcm hcm', List.Subset.trans hrl hrl'⟩

theorem subset_insertPage (p : Nat) (l : List Nat) : l ⊆ insertPage p l := fun _ hq => mem_insertPage.mpr (.inr hq)

/-- Every protection of every bank of `s` stands in `u`. -/
def ProtectionLasts (s u : State) : Prop := ∀ b, KeepsProtection (s.bankState b) (u.bankState b)

theorem protectionLasts_of_banks (h : ProtectionLasts s t) (hb : u.banks = t.banks) : ProtectionLasts s u := fun b => by
  rw [bankState_congr hb]
  exact h b

/-- A write of one bank that lifts none of its protections. -/
theorem protectionLasts_setBank (c : Nat) {g : BankState → BankState} (hg : ∀ x, KeepsProtection x (g x))
    (h : ProtectionLasts s u) : ProtectionLasts s (setBank c g u) := by
  intro b
  by_cases hc : b = c
  · subst hc
    rcases Nat.lt_or_ge b u.banks.length with hlt | hge
    · rw [bankState_setBank _ _ hlt]
      exact (h b).trans (hg _)
    · rw [bankState_setBank_none _ _ hge]
      exact h b
  · rw [bankState_setBank_other _ _ hc]
    exact h b

theorem protectionLasts_commitPages (b x n : Nat) (h : ProtectionLasts s u) :
    ProtectionLasts s (commitPages b x n u) := by
  obtain ⟨g, hg, hmem, heq | heq⟩ := commitPages_cases b x n u <;> rw [heq]
  · exact h
  · refine protectionLasts_setBank b (fun y => ?_) h
    rw [hg y]
    exact ⟨id, List.Subset.refl _, hmem y, List.Subset.refl _⟩

/-- No elementary update of a controller step lifts a protection. -/
theorem stepClosed_protectionLasts (r : Run) : StepClosed i r (ProtectionLasts s) (ProtectionLasts s) where
  stay _ h := h
  stand _ _ h _ := h
  finish _ _ _ h := h
  raise _ _ _ h := h
  finishData _ _ _ _ _ _ h := h
  dropSelection _ h := h
  noteSelected _ h := h
  verified b _ _ _ h := protectionLasts_setBank b keepsProtection_refl h
  scratch _ _ _ _ h := h
  arm _ _ h := h
  speed _ m u h b := by
    rw [apply_bankState_setSpeed (KeepsProtection (s.bankState b)) b m u (fun _ _ => rfl)]
    exact h b
  pdur _ _ _ h := h
  pwrNow _ _ h := protectionLasts_of_banks h (by simp)
  pwrNext _ _ h := h
  pwrNormal _ _ h := protectionLasts_of_banks h (by simp)
  protect b _ _ h :=
    protectionLasts_setBank b (fun _ => ⟨fun _ => rfl, List.Subset.refl _, List.Subset.refl _, List.Subset.refl _⟩) h
  lock b _ p _ h :=
    protectionLasts_setBank b (fun _ => ⟨id, subset_insertPage p _, List.Subset.refl _, List.Subset.refl _⟩) h
  lockRedirect b _ p _ h :=
    protectionLasts_setBank b (fun _ => ⟨id, List.Subset.refl _, List.Subset.refl _, subset_insertPage p _⟩) h
  commit b _ x n _ h := protectionLasts_commitPages b x n h

theorem protectionLasts_controllerStep (hstep : controllerStep s = .next t) : ProtectionLasts s t := by
  have hself : ProtectionLasts s s := fun _ => keepsProtection_refl _
  rcases controllerStep_next hstep with rfl | ⟨r, i, hrun, -, hexec⟩ | ⟨rfl, -⟩
  · exact hself
  · exact exec_closed (stepClosed_protectionLasts r) hrun
      { self := hself
        reset := protectionLasts_of_banks hself (by simp)
        byte := fun _ => protectionLasts_of_banks hself (by simp)
        rawReset := protectionLasts_of_banks hself (by simp)
        rawByte := fun _ => protectionLasts_of_banks hself (by simp) } hexec
  · exact hself

theorem hostAccess_banks {a : Access} (hstep : hostAccess a s = .next t) : t.banks = s.banks := by
  obtain ⟨-, ⟨resp, rfl⟩ | ⟨-, -, rfl⟩⟩ := hostAccess_next hstep <;> simp

/-- Only the reset input lifts a protection (rules R41, R392). -/
theorem protectionLasts_eventStep {e : Event} (hstep : eventStep e s = .next t) (he : e ≠ .reset) :
    ProtectionLasts s t := by
  have hself : ProtectionLasts s s := fun _ => keepsProtection_refl _
  cases e with
  | host a => exact protectionLasts_of_banks hself (hostAccess_banks hstep)
  | controller => exact protectionLasts_controllerStep hstep
  | timer => cases hstep; exact protectionLasts_of_banks hself (by simp)
  | reset => exact absurd rfl he

end

/-- Settles O58, from the four records of one bank. -/
theorem protectionLastsUntilReset : Obligations.ProtectionLastsUntilReset := by
  intro e s t b page hstep he _
  obtain ⟨hro, hlk, hcm, hrl⟩ := protectionLasts_eventStep hstep he b
  exact ⟨hro, (hlk ·), (hcm ·), (hrl ·)⟩

end Sys2Proof.Machine

/-! PROOFS. The host port and DATA: which accesses are answered and what an accepted write does at each offset; then
PoisonRead, and that a command writes DATA only in the step that ends it with OK. -/

namespace Sys2Proof.Machine

/-! ## The answers of the host port -/

section
variable {a : Access} {s t : State} {h off : Nat} {w : Word}

theorem access_ok_iff : a.ok = true ↔ a.size = .four ∧ a.off % 4 = 0 ∧ a.off < 0x200 := by
  simp [Access.ok, and_assoc]

theorem access_not_ok (hbad : a.size ≠ .four ∨ a.off % 4 ≠ 0 ∨ 0x200 ≤ a.off) : a.ok = false := by
  rw [← Bool.not_eq_true, access_ok_iff, not_and_or, not_and_or, not_lt]
  exact hbad

/-- An accepted write is answered with no error, over what `writeReg` makes of the state. -/
theorem hostAccess_write_becomes (hhost : a.h < s.cfg.nhosts) (hok : a.ok = true) (hwrite : a.we = true)
    (ht : writeReg a.h a.off a.wdata s = t) :
    ∃ v, hostAccess a s = .next { t with portLog := s.portLog ++ [(a, { rdata := v, err := false })] } := by
  refine ⟨writeRdata s, ?_⟩
  rw [hostAccess_write hhost hok hwrite, respond, writeReg_portLog, ht]

/-- Settles O6: of the accepted accesses only a read of DATA may stop the model. -/
theorem onlyAlignedWordAccessesAreAccepted : Obligations.OnlyAlignedWordAccessesAreAccepted := by
  intro a s hhost
  refine ⟨fun hbad => hostAccess_bad hhost (access_not_ok hbad), fun hsize halign hbelow => ?_⟩
  have hok : a.ok = true := access_ok hsize halign hbelow
  cases hwe : a.we with
  | true =>
    obtain ⟨v, hv⟩ := hostAccess_write_becomes hhost hok hwe rfl
    exact .inl ⟨v, _, hv, rfl⟩
  | false =>
    cases hv : readReg s a.off with
    | some v => exact .inl ⟨v, _, hostAccess_read hhost hok hwe hv, rfl⟩
    | none =>
      refine .inr ⟨?_, rfl, hostAccess_poison hhost hok hwe hv⟩
      by_contra hlow
      obtain ⟨v, hsome⟩ := readReg_below (s := s) (not_le.mp hlow)
      rw [hv] at hsome
      cases hsome

/-! ## Accesses with no effect -/

/-- Read-only registers and reserved offsets ignore a write (rules R30, R83). -/
theorem writeReg_readOnly
    (hoff : ¬ (off ∈ [0x000, 0x008, 0x00C, 0x010, 0x018, 0x020, 0x024, 0x028] ∨ 0x100 ≤ off)) :
    writeReg h off w s = s := by
  obtain ⟨hnamed, hbelow⟩ := not_or.mp hoff
  unfold writeReg
  split
  case h_2 | h_6 | h_8 | h_12 | h_13 => rfl
  case h_14 => exact if_pos (not_le.mp hbelow)
  all_goals exact absurd (by decide) hnamed

/-- No register shows the record of the answers (rule R81). -/
theorem readReg_respond (a : Access) (resp : Response) (s : State) (off : Nat) :
    readReg (respond a resp s) off = readReg s off := rfl

/-- Settles O8, by the three answers of an access: rejected, an ignored write, a read. -/
theorem onlyNamedWritesHaveSideEffects : Obligations.OnlyNamedWritesHaveSideEffects := by
  intro a s t hstep heffect
  obtain ⟨hhost, -⟩ := hostAccess_next hstep
  suffices ∃ resp again, hostAccess a s = .next (respond a resp s) ∧
      hostAccess a (respond a resp s) = .next (respond a again (respond a resp s)) ∧
      again.err = resp.err ∧ (a.we = false ∨ resp.err = true → again = resp) by
    obtain ⟨resp, again, hresp, hagain, hsame⟩ := this
    obtain rfl : respond a resp s = t := Host.Outcome.next.inj (hresp.symm.trans hstep)
    exact ⟨resp, again, rfl, hagain, hsame⟩
  cases hok : a.ok with
  | false => exact ⟨_, _, hostAccess_bad hhost hok, hostAccess_bad hhost hok, rfl, fun _ => rfl⟩
  | true =>
    rcases Bool.eq_false_or_eq_true a.we with hwrite | hread
    · have hignored (u : State) (hu : a.h < u.cfg.nhosts) :
          hostAccess a u = .next (respond a { rdata := writeRdata u, err := false } u) := by
        rw [hostAccess_write hu hok hwrite, writeReg_readOnly (heffect.resolve_left (by simp [hwrite]))]
      exact ⟨_, _, hignored s hhost, hignored _ hhost, rfl, by simp [hwrite]⟩
    · cases hv : readReg s a.off with
      | some v =>
        have hv' : readReg (respond a { rdata := v, err := false } s) a.off = some v :=
          (readReg_respond a _ s a.off).trans hv
        exact ⟨_, _, hostAccess_read hhost hok hread hv, hostAccess_read hhost hok hread hv', rfl, fun _ => rfl⟩
      | none =>
        rw [hostAccess_poison hhost hok hread hv] at hstep
        cases hstep

/-! ## Writes to the plain registers and to LOCK -/

theorem busy_of_idle (hidle : s.seq = .idle) : s.busy = false := by simp [busy_eq_decide, hidle]

theorem busy_of_not_idle (hrun : s.seq ≠ .idle) : s.busy = true := by simp [busy_eq_decide, hrun]

theorem writePlain_idle (set : State → State) (hidle : s.seq = .idle) : writePlain set s = set s := by
  simp [writePlain, busy_of_idle hidle]

/-- Settles O10, offset by offset. -/
theorem plainWritesReplaceTheRegister : Obligations.PlainWritesReplaceTheRegister := by
  intro a s hhost hsize hwrite hidle becomes
  have plain {set : State → State} (halign : a.off % 4 = 0) (hbelow : a.off < 0x200)
      (hreg : writeReg a.h a.off a.wdata s = writePlain set s) : becomes (set s) :=
    hostAccess_write_becomes hhost (access_ok hsize halign hbelow) hwrite (hreg.trans (writePlain_idle set hidle))
  refine ⟨?_, ?_, ?_, ?_, ?_, ?_⟩ <;>
    exact fun hoff => plain (by omega) (by omega) (by rw [hoff]; rfl)

theorem writeLock_busy (hrun : s.seq ≠ .idle) : writeLock h w s = overrun s := by
  simp [writeLock, busy_of_not_idle hrun]

/-- LOCK is given to the writer when nobody holds it (rule R100). -/
theorem writeLock_acquire (hidle : s.seq = .idle) (hset : w.getLsbD 0 = true) :
    writeLock h w s = if s.owner = none then { s with owner := some h } else s := by
  unfold writeLock
  rw [if_neg (ne_true_of_eq_false (busy_of_idle hidle)), if_pos hset]
  cases s.owner <;> rfl

/-- LOCK is released by its owner alone (rule R101). -/
theorem writeLock_release (hidle : s.seq = .idle) (hclear : w.getLsbD 0 = false) :
    writeLock h w s = if s.owner = some h then dropSelection { s with owner := none } else s := by
  unfold writeLock
  rw [if_neg (ne_true_of_eq_false (busy_of_idle hidle)), if_neg (ne_true_of_eq_false hclear)]

/-- Settles O16, from what a write to LOCK does. -/
theorem lockAcquireAndRelease : Obligations.LockAcquireAndRelease := by
  intro a s hhost hsize hoff hwrite becomes
  have hok : a.ok = true := access_ok hsize (by omega) (by omega)
  have locked {t : State} (ht : writeLock a.h a.wdata s = t) : becomes t :=
    hostAccess_write_becomes hhost hok hwrite (by rw [hoff]; exact ht)
  refine ⟨?_, ?_, ?_, ?_, ?_⟩
  · exact fun hidle hset hfree => locked ((writeLock_acquire hidle hset).trans (if_pos hfree))
  · exact fun hidle hset hheld => locked ((writeLock_acquire hidle hset).trans (if_neg hheld))
  · exact fun hidle hclear howner => locked ((writeLock_release hidle hclear).trans (if_pos howner))
  · exact fun hidle hclear hother => locked ((writeLock_release hidle hclear).trans (if_neg hother))
  · exact fun hrun => locked (writeLock_busy hrun)

/-! ## A host word of DATA -/

/-- Byte `j` of a host word, the lowest byte first (rule R84). -/
theorem getElem_wordBytes (w : Word) {j : Nat} (hj : j < 4) : (wordBytes w)[j] = w.extractLsb' (8 * j) 8 := by
  interval_cases j <;> rfl

theorem dataWord_eq_some (hread : s.data.read off 4 = some (wordBytes w)) : dataWord s off = some w := by
  rw [dataWord, hread]
  exact congrArg some (wordOfBytes_extract w)

theorem dataWord_eq_none (hpoison : s.data.read off 4 = none) : dataWord s off = none := by
  rw [dataWord, hpoison]

/-- Settles O11: a word write is the `MemWrite` of its four bytes, a word read their `MemRead`. -/
theorem dataIsPackedLittleEndian : Obligations.DataIsPackedLittleEndian := by
  intro a s k hhost hsize hk hoff
  have hok : a.ok = true := access_ok hsize (by omega) (by omega)
  have hdata : 0x100 ≤ a.off := by omega
  have hword : a.off - 0x100 = 4 * k := by omega
  constructor
  · intro hwrite hidle
    have hreg : writeReg a.h a.off a.wdata s = memWrite (4 * k) (wordBytes a.wdata) s := by
      rw [writeReg_data hdata, writePlain_idle _ hidle, hword]
    obtain ⟨v, hv⟩ := hostAccess_write_becomes hhost hok hwrite hreg
    refine ⟨_, v, hv, rfl, fun j hj => ?_, fun i hi => ?_⟩
    · exact (Memory.get_write_at _ _ (wordBytes a.wdata) hj (show 4 * k + j < 256 by omega)).trans
        (congrArg some (getElem_wordBytes _ hj))
    · rcases hi with hbelow | habove
      · exact Memory.get_write_below _ _ _ hbelow
      · exact Memory.get_write_above _ _ _ habove
  · intro hread w hbytes
    refine hostAccess_read hhost hok hread ?_
    rw [readReg_data hdata, hword]
    refine dataWord_eq_some (Memory.read_eq_some.mpr ⟨rfl, fun j hj => ?_⟩)
    rw [getElem_wordBytes w hj]
    exact hbytes j hj

end

/-! ## PoisonRead -/

section
variable {r : Run} {s : State} {b off n : Nat}

theorem withRead_poison (hpoison : s.data.read off n = none) (k : List Byte → Result) :
    withRead off n s k = .fault .poisonRead := by
  rw [withRead, hpoison]

theorem bankChecked_exists (hb : b < s.cfg.banks.length) (k : Result) : bankChecked b s k = k := if_pos hb

theorem dataBlockStart_poison (hfit : r.argOff + r.argLen ≤ Config.bufSize) (hlen : r.argLen ≠ 0)
    (hpoison : s.data.read r.argOff r.argLen = none) : dataBlockStart r s = .fault .poisonRead := by
  rw [dataBlockStart, if_neg (Nat.not_lt.mpr hfit), if_neg hlen, withRead_poison hpoison]

theorem crc8Start_poison (hfit : r.argOff + r.argLen ≤ Config.bufSize)
    (hpoison : s.data.read r.argOff r.argLen = none) : crc8Start r s = .fault .poisonRead := by
  rw [crc8Start, if_neg (Nat.not_lt.mpr hfit), withRead_poison hpoison]

theorem crc16Start_poison (hfit : r.argOff + r.argLen ≤ Config.bufSize)
    (hpoison : s.data.read r.argOff r.argLen = none) : crc16Start r s = .fault .poisonRead := by
  rw [crc16Start, if_neg (Nat.not_lt.mpr hfit), withRead_poison hpoison]

/-- The truncated length of SP_WRITE in ARG0's terms (rule R243). -/
theorem spWriteLen_eq (r : Run) : spWriteLen r = min r.argLen (32 - r.a0.toNat % 32) := by
  rw [spWriteLen, room_argTA]

theorem spWriteStart_poison (hb : b < s.cfg.banks.length) (hmode : (s.prof b).writeMode = .staged)
    (hta : r.argTAFits = true) (hlen : r.argLen ≠ 0) (hfit : r.argOff + spWriteLen r ≤ Config.bufSize)
    (hpoison : s.data.read r.argOff (spWriteLen r) = none) : spWriteStart b r s = .fault .poisonRead := by
  rw [spWriteStart, bankChecked_exists hb, if_neg (not_not.mpr hmode), if_neg (by simp [hta]), if_neg hlen,
    if_neg (Nat.not_lt.mpr hfit), withRead_poison hpoison]

theorem spCopyMacStart_poison (hb : b < s.cfg.banks.length) (hmode : (s.prof b).writeMode = .staged)
    (hmac : (s.prof b).macCopy = true) (hfit : r.argOff + 20 ≤ Config.bufSize) (hvalid : s.spValid = true)
    (hpoison : s.data.read r.argOff 20 = none) : spCopyMacStart b r s = .fault .poisonRead := by
  rw [spCopyMacStart, bankChecked_exists hb, if_neg (by simp [hmode, hmac]), if_neg (Nat.not_lt.mpr hfit),
    if_neg (by simp [hvalid]), withRead_poison hpoison]

theorem mbWriteStart_poison (hb : b < s.cfg.banks.length) (hmac : needsMac (s.prof b) = false)
    (hsize : r.argA0 + r.argLen ≤ (s.desc b).size) (hfit : r.argOff + r.argLen ≤ Config.bufSize)
    (hlen : r.argLen ≠ 0) (hprot : isProtected b r.argA0 r.argLen s = false)
    (hpoison : s.data.read r.argOff r.argLen = none) : mbWriteStart b r s = .fault .poisonRead := by
  rw [mbWriteStart, bankChecked_exists hb, if_neg (ne_true_of_eq_false hmac), if_neg (Nat.not_lt.mpr hsize),
    if_neg (Nat.not_lt.mpr hfit), if_neg hlen, if_neg (ne_true_of_eq_false hprot), withRead_poison hpoison]

theorem mbWritePacketStart_poison (hb : b < s.cfg.banks.length) (hmac : needsMac (s.prof b) = false)
    (hpage : r.argA0 < (s.desc b).numberPages) (hlen : r.argLen ≤ (s.desc b).maxPacketDataLength)
    (hfit : r.argOff + r.argLen ≤ Config.bufSize)
    (hprot : isProtected b (r.argA0 * (s.desc b).pageLength) (r.argLen + 3) s = false)
    (hpoison : s.data.read r.argOff r.argLen = none) : mbWritePacketStart b r s = .fault .poisonRead := by
  dsimp only [mbWritePacketStart]
  rw [bankChecked_exists hb, if_neg (ne_true_of_eq_false hmac), if_neg (Nat.not_le.mpr hpage),
    if_neg (Nat.not_lt.mpr hlen), if_neg (Nat.not_lt.mpr hfit), if_neg (ne_true_of_eq_false hprot), withRead_poison hpoison]

end

/-- Settles O12: a `MemRead` over a poison byte fails, in a host read and in the first step of each command that reads
DATA. -/
theorem poisonReadsStop : Obligations.PoisonReadsStop := by
  refine ⟨fun _ => rfl, ?_, ?_⟩
  · intro a s k j hhost hsize hk hoff hread hj hbyte
    refine hostAccess_poison hhost (access_ok hsize (by omega) (by omega)) hread ?_
    rw [readReg_data (by omega), show a.off - 0x100 = 4 * k by omega]
    exact dataWord_eq_none (Memory.read_eq_none.mpr ⟨j, hj, hbyte⟩)
  · intro s r b j hstart len off p hbyte
    have hpoison {n : Nat} (hj : j < n) : s.data.read r.argOff n = none := Memory.read_eq_none.mpr ⟨j, hj, hbyte⟩
    have hfirst {i : Instr} (hi : startOf i r s = .fault .poisonRead) : exec i s = .fault .poisonRead :=
      (exec_start i hstart).trans hi
    refine ⟨fun hj hfit => ⟨?_, ?_, ?_⟩, ?_, ?_, fun hb hmode hj hfit => ⟨?_, ?_⟩⟩
    · exact hfirst (dataBlockStart_poison hfit (Nat.ne_zero_of_lt hj) (hpoison hj))
    · exact hfirst (crc8Start_poison hfit (hpoison hj))
    · exact hfirst (crc16Start_poison hfit (hpoison hj))
    · intro hb hmode hta hj hfit
      refine hfirst (spWriteStart_poison hb hmode ((argTAFits_iff r).mpr hta)
        (Nat.ne_zero_of_lt (lt_min_iff.mp hj).1) ?_ (hpoison ?_)) <;> rwa [spWriteLen_eq]
    · exact fun hb hmode hmac hvalid hj hfit =>
        hfirst (spCopyMacStart_poison hb hmode hmac hfit hvalid (hpoison hj))
    · exact fun hsize hprot => hfirst (mbWriteStart_poison hb (needsMac_eq_false hmode) hsize hfit
        (Nat.ne_zero_of_lt hj) hprot (hpoison hj))
    · exact fun hpage hlen hprot => hfirst (mbWritePacketStart_poison hb (needsMac_eq_false hmode) hpage hlen hfit
        hprot (hpoison hj))

/-! ## DATA is written at an OK end only -/

theorem commitPages_data (b x n : Nat) (s : State) : (commitPages b x n s).data = s.data := by
  obtain ⟨g, -, -, heq | heq⟩ := commitPages_cases b x n s
  · rw [heq]
  · rw [heq]; rfl

/-- The end of a step of command `i` in which received bytes may have been stored (rule R88). -/
structure StoredAtOkEnd (i : Instr) (t : State) : Prop where
  idle : t.seq = .idle
  ok : t.err = .ok
  writes : writesData i = true
  result : ∀ b, i = .spRead b → t.result ≠ 0xFFFFFFFF

/-- Every elementary update of a controller step but the `MemWrite` at an OK end keeps DATA. -/
theorem stepClosed_data (i : Instr) (r : Run) (s : State) :
    StepClosed i r (fun u => u.data = s.data) (fun t => t.data = s.data ∨ StoredAtOkEnd i t) where
  stay _ h := .inl h
  stand _ _ h _ := .inl h
  finish _ _ _ h := .inl h
  raise _ _ _ h := .inl h
  finishData hi _ _ _ _ hv _ := .inr ⟨rfl, rfl, hi, hv⟩
  dropSelection _ h := h
  noteSelected _ h := h
  verified _ _ _ _ h := h
  scratch _ _ _ _ h := h
  arm _ _ h := h
  speed _ _ _ h := h
  pdur _ _ _ h := h
  pwrNow _ _ h := by simpa using h
  pwrNext _ _ h := h
  pwrNormal _ _ h := by simpa using h
  protect _ _ _ h := h
  lock _ _ _ _ h := h
  lockRedirect _ _ _ _ h := h
  commit b _ x n u h := (commitPages_data b x n u).trans h

/-- The bus steps keep DATA. -/
theorem busClosed_data (s : State) : BusClosed (fun u => u.data = s.data) s := by
  constructor <;> simp

/-- Settles O56, from the one update of a controller step that writes DATA. -/
theorem dataIsWrittenOnlyAtAnOkEnd : Obligations.DataIsWrittenOnlyAtAnOkEnd := by
  intro i s t hexec hchanged
  obtain ⟨r, hrun⟩ := exec_next_run hexec
  obtain ⟨hidle, hok, hwrites, hresult⟩ :=
    (exec_closed (stepClosed_data i r s) hrun (busClosed_data s) hexec).resolve_left hchanged
  refine ⟨hidle, hok, ?_⟩
  cases i with
  | dataBlock => exact .inl rfl
  | spRead b => exact .inr (.inl ⟨b, rfl, hresult b rfl⟩)
  | mbRead b rc => exact .inr (.inr (.inl ⟨b, rc, rfl⟩))
  | mbReadPageCrc b rc xi => exact .inr (.inr (.inr (.inl ⟨b, rc, xi, rfl⟩)))
  | mbReadPacket b => exact .inr (.inr (.inr (.inr ⟨b, rfl⟩)))
  | _ => cases hwrites

end Sys2Proof.Machine

/-! PROOFS. The command word: the decoder undoes the encoder, and which words are commands with which fields. -/

namespace Sys2Proof

/-! ## The decoder undoes the encoder -/

theorem decode_eq_ok_iff {w : Word} {i : Instr} :
    decode w = .ok i ↔
      cmdReserved w = 0 ∧ opcodeMap (cmdOp w) (cmdBank w) (cmdRc w) (cmdXi w) = some i := by
  unfold decode
  split
  next hres => exact ⟨nofun, fun h => absurd h.1 hres⟩
  next hres =>
    rw [and_iff_right (not_not.mp hres)]
    split
    next j hmap => rw [hmap, Except.ok.injEq, Option.some.injEq]
    next hmap => rw [hmap]; exact ⟨nofun, nofun⟩

/-- The opcode map takes the fields of a command back to it, row by row of the table. -/
theorem opcodeMap_fields (i : Instr) : opcodeMap i.opcode (i.bank?.getD 0) i.rcBit i.xiBit = some i := by
  cases i <;> rfl

theorem decode_encode {i : Instr} (hwf : i.wf = true) : decode (encode i) = .ok i := by
  rw [decode_eq_ok_iff, encode_op, encode_bank i hwf, encode_rc, encode_xi]
  exact ⟨encode_reserved i, opcodeMap_fields i⟩

/-- The host port packs the bytes in the order in which `encodeBytes` lists them (rule R91(a)). -/
theorem decodeBytes_extract (w : Word) (rest : List Byte) :
    decodeBytes ([w.extractLsb' 0 8, w.extractLsb' 8 8, w.extractLsb' 16 8, w.extractLsb' 24 8] ++ rest) =
      (decode w).map fun i => (i, rest) :=
  congrArg (fun v => (decode v).map fun i => (i, rest)) (wordOfBytes_extract w)

theorem decodeTableWord_toNat {w : Word} {i : Instr} (hdec : decode w = .ok i) :
    decodeTableWord 32 w.toNat = some i := by
  rw [decodeTableWord, Nat.mod_eq_of_lt w.isLt, BitVec.ofNat_toNat, BitVec.setWidth_eq, hdec]

/-- Settles O1: the fields of the encoded word are those of the command, and the opcode map takes them back to it. -/
theorem decodeUndoesEncode : Obligations.DecodeUndoesEncode := by
  intro i hwf
  have hdec : decode (encode i) = .ok i := decode_encode hwf
  refine ⟨hdec, fun rest => ?_, decodeTableWord_toNat hdec⟩
  rw [encodeBytes, decodeBytes_extract, hdec]
  rfl

/-! ## The words that are commands, and their fields -/

/-- The opcodes of the map of rule R112. -/
def IsOpcode (op : Nat) : Prop :=
  op ≤ 0x0A ∨ op = 0x10 ∨ op = 0x11 ∨ (0x20 ≤ op ∧ op ≤ 0x25) ∨ (0x30 ≤ op ∧ op ≤ 0x37) ∨ (0x40 ≤ op ∧ op ≤ 0x45)

/-- Each field that the command reads has the given value (rule R110). -/
structure Instr.ReadsFields (i : Instr) (op : Byte) (bank : Nat) (rc xi : Bool) : Prop where
  opcode : i.opcode = op
  bank : ∀ b, i.bank? = some b → b = bank
  mbRead : ∀ b c, i = .mbRead b c → c = rc
  mbReadPageCrc : ∀ b c x, i = .mbReadPageCrc b c x → c = rc ∧ x = xi

theorem Instr.opcode_isOpcode (i : Instr) : IsOpcode i.opcode.toNat := by
  cases i <;> simp [Instr.opcode, IsOpcode]

section
variable {op : Byte} {bank : Nat} {rc xi : Bool}

/-- The opcode map answers a command made of the fields it is given, row by row of the table. -/
theorem opcodeMap_readsFields {i : Instr} (h : opcodeMap op bank rc xi = some i) : i.ReadsFields op bank rc xi := by
  unfold opcodeMap at h
  split at h <;> cases h
  all_goals
    next hop =>
      exact {
        opcode := BitVec.eq_of_toNat_eq hop.symm
        bank := by simp [Instr.bank?]
        mbRead := by simp
        mbReadPageCrc := by simp }

theorem opcodeMap_eq_none (h : opcodeMap op bank rc xi = none) : ¬ IsOpcode op.toNat := by
  unfold opcodeMap at h
  split at h
  case h_34 => simp only [imp_false, IsOpcode] at *; omega
  all_goals cases h

theorem exists_opcodeMap_iff : (∃ i, opcodeMap op bank rc xi = some i) ↔ IsOpcode op.toNat := by
  constructor
  · rintro ⟨i, hmap⟩
    rw [← (opcodeMap_readsFields hmap).opcode]
    exact i.opcode_isOpcode
  · intro hop
    exact Option.ne_none_iff_exists'.mp fun hnone => opcodeMap_eq_none hnone hop

end

/-- The bits of the mask of every row of the table: OP and the reserved bits. -/
theorem getLsbD_tableMask : ∀ k < 32, (0xFFFFC0FF : Word).getLsbD k = (decide (k < 8) || decide (14 ≤ k)) := by decide

/-- Under the table's mask a word without reserved bits is its opcode (rule R117). -/
theorem and_tableMask {w : Word} (hres : cmdReserved w = 0) : w &&& 0xFFFFC0FF = (cmdOp w).setWidth 32 := by
  apply BitVec.eq_of_getLsbD_eq
  intro k hk
  have hop : ((cmdOp w).setWidth 32).getLsbD k = (decide (k < 8) && w.getLsbD k) := by
    simp [cmdOp, hk]
  have hhigh : 14 ≤ k → w.getLsbD k = false := by
    intro hge
    have hbit : (cmdReserved w).getLsbD (k - 14) = w.getLsbD k := by
      simp [cmdReserved, show k - 14 < 18 by omega, Nat.add_sub_cancel' hge]
    rw [← hbit, hres]
    exact BitVec.getLsbD_zero
  rw [BitVec.getLsbD_and, getLsbD_tableMask k hk, hop]
  by_cases hge : 14 ≤ k
  · simp [hhigh hge]
  · simp [hge, Bool.and_comm]

/-- Settles O3: the opcode map says which words are commands, and answers a command made of the fields it is given. -/
theorem decodeReadsTheFields : Obligations.DecodeReadsTheFields := by
  intro w
  refine ⟨?_, fun i hdec => ?_⟩
  · simp only [decode_eq_ok_iff, exists_and_left, exists_opcodeMap_iff]
    rfl
  · obtain ⟨hres, hmap⟩ := decode_eq_ok_iff.mp hdec
    obtain ⟨hop, hbank, hread, hpage⟩ := opcodeMap_readsFields hmap
    exact ⟨hop, (and_tableMask hres).trans (by rw [hop]), hbank, hread, hpage⟩

/-- Settles O2: the decoder computes each of the words. -/
theorem opcodeMapWords : Obligations.OpcodeMapWords := ⟨rfl, rfl, rfl, rfl, rfl, rfl, rfl, rfl, rfl⟩

end Sys2Proof

/-! PROOFS. The life of a command: its acceptance and the writes that are ignored, the step of the controller, the bus steps
and the end of a command, and what holds of every command: how it answers, how it selects, what it appends to the trace. -/

namespace Sys2Proof.Machine

/-! ## Acceptance and ignored writes -/

section
variable {a : Access} {e : Event} {r : Run} {s t u : State} {h off : Nat} {w : Word}

theorem writeCmd_busy (hrun : s.seq ≠ .idle) : writeCmd h w s = overrun s := by
  rw [writeCmd, if_pos (busy_of_not_idle hrun)]

/-- The owner, or any host while LOCK is not held, is let through (rule R141). -/
theorem writeCmd_accepted (hidle : s.seq = .idle) (howner : s.owner = none ∨ s.owner = some h) :
    writeCmd h w s = accept h w s := by
  rw [writeCmd, if_neg (ne_true_of_eq_false (busy_of_idle hidle)), if_pos howner]

/-- Another host is denied (rule R143). -/
theorem writeCmd_denied {g : Nat} (hidle : s.seq = .idle) (howner : s.owner = some g) (hother : g ≠ h) :
    writeCmd h w s = { s with denied := true } := by
  rw [writeCmd, if_neg (ne_true_of_eq_false (busy_of_idle hidle)), if_neg (by simp [howner, hother])]

theorem writePlain_busy (set : State → State) (hrun : s.seq ≠ .idle) : writePlain set s = overrun s := by
  rw [writePlain, if_pos (busy_of_not_idle hrun)]

/-- While a command is in flight a write to any register with an effect, or to DATA, is ignored (rule R142). -/
theorem writeReg_busy (hrun : s.seq ≠ .idle)
    (hoff : off ∈ [0x000, 0x008, 0x00C, 0x010, 0x018, 0x020, 0x024, 0x028] ∨ 0x100 ≤ off) :
    writeReg h off w s = overrun s := by
  rcases hoff with hnamed | hdata
  · unfold writeReg
    split
    case h_1 => exact writeCmd_busy hrun
    case h_3 | h_4 | h_5 | h_7 | h_9 | h_10 => exact writePlain_busy _ hrun
    case h_11 => exact writeLock_busy hrun
    case h_14 => simp_all
    all_goals exact absurd hnamed (by decide)
  · rw [writeReg_data hdata, writePlain_busy _ hrun]

theorem hostAccess_cmd_becomes (hhost : a.h < s.cfg.nhosts) (hsize : a.size = .four) (hoff : a.off = 0x000)
    (hwrite : a.we = true) (ht : writeCmd a.h a.wdata s = t) :
    ∃ v, hostAccess a s = .next { t with portLog := s.portLog ++ [(a, { rdata := v, err := false })] } :=
  hostAccess_write_becomes hhost (access_ok hsize (by omega) (by omega)) hwrite (by rw [hoff]; exact ht)

/-- Settles O13. -/
theorem acceptanceLatchesTheCommand : Obligations.AcceptanceLatchesTheCommand := by
  intro a s hhost hsize hoff hwrite hidle howner
  obtain ⟨v, hv⟩ := hostAccess_cmd_becomes hhost hsize hoff hwrite (writeCmd_accepted hidle howner)
  exact ⟨_, v, hv, busy_of_not_idle nofun, rfl⟩

/-! ## OVR and DENIED last until the next acceptance -/

/-- The marks of ignored writes, OVR and DENIED, that are set in `s` are set in `u`. -/
structure MarksLast (s u : State) : Prop where
  ovr : s.ovr = true → u.ovr = true
  denied : s.denied = true → u.denied = true

theorem marksLast_of_eq (hovr : u.ovr = s.ovr) (hdenied : u.denied = s.denied) : MarksLast s u :=
  ⟨hovr.trans, hdenied.trans⟩

/-- An accepted write keeps the marks unless it is the acceptance of a command. -/
theorem marksLast_writeReg (h off : Nat) (w : Word) (s : State) :
    (off = 0 ∧ s.seq = .idle ∧ ∃ r, (writeReg h off w s).seq = .run r) ∨ MarksLast s (writeReg h off w s) :=
  have hself : MarksLast s s := ⟨id, id⟩
  writeReg_closed (P := fun u => (off = 0 ∧ s.seq = .idle ∧ ∃ r, u.seq = .run r) ∨ MarksLast s u) (.inr hself)
    (hovr := fun _ => .inr ⟨fun _ => rfl, id⟩)
    (haccept := fun hoff hidle _ => .inl ⟨hoff, by simpa [busy_eq_decide] using hidle, _, rfl⟩)
    (hdenied := fun _ => .inr ⟨id, fun _ => rfl⟩)
    (harg0 := .inr { hself with }) (harg1 := .inr { hself with }) (harg2 := .inr { hself with })
    (hconfig := .inr { hself with }) (hrom0 := .inr { hself with }) (hrom1 := .inr { hself with })
    (hacquire := fun _ => .inr { hself with }) (hrelease := .inr { hself with })
    (hdata := .inr (marksLast_of_eq (by simp) (by simp)))

theorem marksLast_controllerStep (hstep : controllerStep s = .next t) : MarksLast s t := by
  rcases controllerStep_next hstep with rfl | ⟨r, i, -, -, hexec⟩ | ⟨rfl, -⟩
  · exact ⟨id, id⟩
  · have hhost := (exec_writesOnlyItsState hexec).host
    simp only [hostSide, Prod.mk.injEq] at hhost
    obtain ⟨-, ⟨hovr, hdenied, -⟩, -⟩ := hhost
    exact marksLast_of_eq hovr hdenied
  · exact ⟨id, id⟩

/-- The only event that takes back a mark, but for the reset input, is the acceptance of a command. -/
theorem marksLast_eventStep (hstep : eventStep e s = .next t) :
    (e = .reset ∨ ∃ a r, e = .host a ∧ a.off = 0x000 ∧ a.we = true ∧ s.seq = .idle ∧ t.seq = .run r) ∨
    MarksLast s t := by
  cases e with
  | host a =>
    obtain ⟨-, ⟨resp, rfl⟩ | ⟨-, hwrite, rfl⟩⟩ := hostAccess_next hstep
    · exact .inr ⟨id, id⟩
    · rcases marksLast_writeReg a.h a.off a.wdata s with ⟨hoff, hidle, r, hrun⟩ | hlast
      · exact .inl (.inr ⟨a, r, rfl, hoff, hwrite, hidle, hrun⟩)
      · exact .inr { hlast with }
  | controller => exact .inr (marksLast_controllerStep hstep)
  | timer =>
    cases hstep
    exact .inr (marksLast_of_eq (by simp) (by simp))
  | reset => exact .inl (.inl rfl)

/-- Settles O14, from what a write does while a command is in flight and from what takes OVR back. -/
theorem writesWhileBusyOnlySetOverrun : Obligations.WritesWhileBusyOnlySetOverrun := by
  refine ⟨fun a s r hhost hsize hwrite hrun hoff => ?_, fun e s t hstep hset hclear => ?_⟩
  · have hok : a.ok = true := by
      rcases hoff with hnamed | ⟨-, hbelow, halign⟩
      · simp only [List.mem_cons, List.not_mem_nil, or_false] at hnamed
        exact access_ok hsize (by omega) (by omega)
      · exact access_ok hsize halign hbelow
    exact hostAccess_write_becomes hhost hok hwrite (writeReg_busy (by simp [hrun]) (hoff.imp_right And.left))
  · refine (marksLast_eventStep hstep).resolve_right fun hlast => ?_
    simp [hlast.ovr hset] at hclear

/-- Settles O15, from what a write to CMD by another host does and from what takes DENIED back. -/
theorem otherHostsCommandIsDenied : Obligations.OtherHostsCommandIsDenied := by
  refine ⟨fun a s g hhost hsize hoff hwrite hidle howner hother => ?_, fun e s t hstep hset hclear => ?_⟩
  · exact hostAccess_cmd_becomes hhost hsize hoff hwrite (writeCmd_denied hidle howner hother)
  · refine (marksLast_eventStep hstep).resolve_right fun hlast => ?_
    simp [hlast.denied hset] at hclear

/-! ## The command in flight -/

/-- No write of a host touches the command in flight (rules R142, R158). -/
theorem writeReg_seq (hrun : s.seq = .run r) : (writeReg h off w s).seq = .run r :=
  writeReg_closed (P := fun u => u.seq = .run r) hrun
    (hovr := fun _ => hrun)
    (haccept := fun _ hidle _ => by simp [busy_eq_decide, hrun] at hidle)
    (hdenied := fun _ => hrun)
    (harg0 := hrun) (harg1 := hrun) (harg2 := hrun) (hconfig := hrun) (hrom0 := hrun) (hrom1 := hrun)
    (hacquire := fun _ => hrun) (hrelease := hrun) (hdata := by simpa using hrun)

theorem hostAccess_seq (hrun : s.seq = .run r) (hstep : hostAccess a s = .next t) : t.seq = .run r := by
  obtain ⟨-, ⟨resp, rfl⟩ | ⟨-, -, rfl⟩⟩ := hostAccess_next hstep
  · exact hrun
  · exact writeReg_seq hrun

/-- Settles O17, event by event. -/
theorem commandCannotBeCancelled : Obligations.CommandCannotBeCancelled := by
  intro e s t r hrun hstep
  cases e with
  | host a => exact ⟨fun _ _ => hostAccess_seq hrun hstep, nofun⟩
  | controller => exact ⟨fun hne => absurd rfl hne, nofun⟩
  | timer => cases hstep; exact ⟨fun _ _ => by simpa using hrun, nofun⟩
  | reset => cases hstep; exact ⟨fun _ hne => absurd rfl hne, fun _ => rfl⟩

end

/-! ## The step of the controller -/

section
variable {i : Instr} {r : Run} {s : State}

theorem step_scheduled {e : Event} {rest : List Event} (hcfg : s.cfg.wf = true) (hsched : s.sched = e :: rest) :
    step s = eventStep e { s with sched := rest } := by
  simp only [step, hcfg, if_true, hsched]

/-- With nothing scheduled the controller goes first (log entry 3). -/
theorem step_unscheduled (hcfg : s.cfg.wf = true) (hsched : s.sched = []) (hon : controllerEnabled s = true) :
    step s = controllerStep s := by
  simp only [step, hcfg, if_true, hsched, unscheduledStep, hon]

theorem decodeTableWord_eq_some {n w : Nat} (h : decodeTableWord n w = some i) :
    decode (BitVec.ofNat 32 (w % 2 ^ n)) = .ok i := by
  unfold decodeTableWord at h
  split at h
  · next j hj => rw [hj, Option.some.inj h]
  · cases h

/-- Settles O4, for the scheduled step, the unscheduled one, and the word put in flight. -/
theorem stepRunsTheDecodedCommand : Obligations.StepRunsTheDecodedCommand := by
  refine ⟨fun s rest r i hcfg hrun hdec hpower => ⟨fun hsched => ?_, fun hsched => ?_⟩, fun s n w i hcfg hword => ?_⟩
  · rw [step_scheduled hcfg hsched]
    exact controllerStep_run (r := r) hrun hpower hdec
  · rw [step_unscheduled hcfg hsched (controllerEnabled_of hrun hpower), controllerStep_run hrun hpower hdec]
  · rw [step_scheduled (s := s.withFetchWord n w) hcfg rfl]
    exact controllerStep_run rfl nofun (decodeTableWord_eq_some hword)

/-- An illegal word ends in its first step (rule R147). -/
theorem controllerStep_illegal {e : DecodeError} (hrun : s.seq = .run r) (hpos : r.pos = .start)
    (hdec : decode r.word = .error e) : controllerStep s = .next (raise .illegalCommand 0 s) := by
  rw [controllerStep, if_pos (controllerEnabled_of hrun (by simp [hpos])), hrun]
  simp only [hdec]

/-- Settles O5. -/
theorem illegalWordEndsInItsFirstStep : Obligations.IllegalWordEndsInItsFirstStep := by
  intro s r e rest hcfg hstart hdec hsched
  obtain ⟨hrun, hpos⟩ := hstart
  rw [step_scheduled hcfg hsched]
  exact controllerStep_illegal (r := r) hrun hpos hdec

end

/-! ## Bus steps and the end of a command -/

/-- Settles O19, by whether a pull-up is on and whether one is armed. -/
theorem busStepsAndTheStrongPullup : Obligations.BusStepsAndTheStrongPullup := by
  intro s tx ended
  constructor
  · cases hactive : s.pwrActive <;> simp [ended, hactive, busReset, endPullup, note, presenceTaken]
  · cases hactive : s.pwrActive <;> cases harmed : s.pwrArmed <;>
      simp [ended, hactive, harmed, busByte, endPullup, startPullup, note, byteTaken]

/-- Settles O21: both ends are these updates. -/
theorem endOfACommand : Obligations.EndOfACommand := fun _ _ _ => ⟨rfl, rfl, busy_of_idle rfl, busy_of_idle rfl⟩

/-! ## The checks of BANK -/

section
variable {i : Instr} {b : Nat} {r : Run} {s : State}

/-- The first step of a command that reads BANK is its BANK check and what follows it (rule R148). -/
theorem startOf_bankChecked (hb : i.bank? = some b) (r : Run) (s : State) :
    ∃ rest, startOf i r s = bankChecked b s rest := by
  cases i <;> cases hb <;> exact ⟨_, rfl⟩

/-- Settles O48: no check comes before that of BANK. -/
theorem bankIsCheckedFirst : Obligations.BankIsCheckedFirst := by
  intro i s r b hstart hb hmissing
  obtain ⟨rest, hrest⟩ := startOf_bankChecked hb r s
  rw [exec_start i hstart, hrest, bankChecked, if_neg (Nat.not_lt.mpr hmissing)]

end

/-! ## Every command answers a next state or PoisonRead -/

/-- The commands that read DATA (rule R87). -/
def readsData : Instr → Bool
  | .dataBlock => true
  | .crc8 => true
  | .crc16 => true
  | .spWrite _ => true
  | .spCopyMac _ => true
  | .mbWrite _ => true
  | .mbWritePacket _ => true
  | _ => false

/-- What a step of command `i` from `s` may answer: a next state, or PoisonRead where it reads DATA and a byte
of DATA holds no value. -/
inductive NextOrPoison (i : Instr) (s : State) : Result → Prop
  | next (t : State) : NextOrPoison i s (.next t)
  | poison (hreads : readsData i = true) (a : Nat) (ha : a < 256) (hbyte : s.data.get a = none) :
    NextOrPoison i s (.fault .poisonRead)

namespace NextOrPoison
variable {i : Instr} {b off n : Nat} {r : Run} {s : State} {x y : Result}

theorem ite {c : Prop} [Decidable c] (hx : NextOrPoison i s x) (hy : ¬ c → NextOrPoison i s y) :
    NextOrPoison i s (if c then x else y) := by
  split
  · exact hx
  · next hc => exact hy hc

theorem bankChecked (hx : NextOrPoison i s x) : NextOrPoison i s (Machine.bankChecked b s x) := by
  unfold Machine.bankChecked
  exact ite hx fun _ => next _

/-- A `MemRead` inside the buffer answers its bytes or meets a byte that holds no value (rule R87). -/
theorem withRead {k : List Byte → Result} (hreads : readsData i = true) (hfit : ¬ Config.bufSize < off + n)
    (hk : ∀ d, NextOrPoison i s (k d)) : NextOrPoison i s (Machine.withRead off n s k) := by
  cases hd : s.data.read off n with
  | some d => rw [Machine.withRead, hd]; exact hk d
  | none =>
    obtain ⟨j, hj, hbyte⟩ := Memory.read_eq_none.mp hd
    rw [withRead_poison hd]
    exact poison hreads (off + j) (by rw [Config.bufSize] at hfit; omega) hbyte

theorem otpChecked {kinds : List OtpKind} (hx : NextOrPoison i s x) : NextOrPoison i s (Machine.otpChecked b kinds r s x) :=
  bankChecked (ite (next _) fun _ => ite (next _) fun _ => hx)

theorem beginRange (w : WriteRun) : NextOrPoison i s (Machine.beginRange r b w s) := by
  rw [beginRange_eq]
  exact next _

end NextOrPoison

section
variable {i : Instr} {r : Run} {s : State}

/-- The first step of every command, check by check. -/
theorem nextOrPoison_startOf (i : Instr) (r : Run) (s : State) : NextOrPoison i s (startOf i r s) := by
  cases i with
  | dataBlock => exact .ite (.next _) fun hfit => .ite (.next _) fun _ => .withRead rfl hfit fun _ => .next _
  | setSpeed =>
    change NextOrPoison _ s (setSpeedStart r s)
    unfold setSpeedStart
    split
    · exact .next _
    · exact .next _
  | pwrSetDuration =>
    change NextOrPoison _ s (pwrSetDurationStart r s)
    unfold pwrSetDurationStart
    split
    · exact .next _
    · exact .ite (.next _) fun _ => .next _
  | pwrStart => exact .ite (.next _) fun _ => .ite (.next _) fun _ => .ite (.next _) fun _ => .next _
  | crc8 => exact .ite (.next _) fun hfit => .withRead rfl hfit fun _ => .next _
  | crc16 => exact .ite (.next _) fun hfit => .withRead rfl hfit fun _ => .next _
  | spErase b => exact .bankChecked (.ite (.next _) fun _ => .ite (.next _) fun _ => .next _)
  | spWrite b =>
    exact .bankChecked (.ite (.next _) fun _ => .ite (.next _) fun _ => .ite (.next _) fun _ => .ite (.next _) fun hfit =>
      .withRead rfl hfit fun _ => .next _)
  | spRead b => exact .bankChecked (.ite (.next _) fun _ => .ite (.next _) fun _ => .next _)
  | spCopy b => exact .bankChecked (.ite (.next _) fun _ => .ite (.next _) fun _ => .next _)
  | spCopyMac b =>
    exact .bankChecked (.ite (.next _) fun _ => .ite (.next _) fun hfit => .ite (.next _) fun _ =>
      .withRead rfl hfit fun _ => .next _)
  | poll => exact .ite (.next _) fun _ => .next _
  | mbRead b rc =>
    exact .bankChecked (.ite (.next _) fun _ => .ite (.next _) fun _ => .ite (.next _) fun _ => .ite (.next _) fun _ =>
      .next _)
  | mbWrite b =>
    exact .bankChecked (.ite (.next _) fun _ => .ite (.next _) fun _ => .ite (.next _) fun hfit => .ite (.next _) fun _ =>
      .ite (.next _) fun _ => .withRead rfl hfit fun _ => .beginRange _)
  | mbReadPageCrc b rc xi =>
    exact .bankChecked (.ite (.next _) fun _ => .ite (.next _) fun _ => .ite (.next _) fun _ => .ite (.next _) fun _ =>
      .ite (.next _) fun _ => .next _)
  | mbReadPacket b => exact .bankChecked (.ite (.next _) fun _ => .ite (.next _) fun _ => .next _)
  | mbWritePacket b =>
    exact .bankChecked (.ite (.next _) fun _ => .ite (.next _) fun _ => .ite (.next _) fun _ => .ite (.next _) fun hfit =>
      .ite (.next _) fun _ => .withRead rfl hfit fun _ => .beginRange _)
  | mbCheckSpeed b => exact .bankChecked (.next _)
  | mbForceVerify b => exact .bankChecked (.next _)
  | mbWriteProtect b => exact .bankChecked (.next _)
  | otpLock b => exact .otpChecked (.ite (.next _) fun _ => .next _)
  | otpIsLocked b => exact .otpChecked (.next _)
  | otpRedirect b => exact .otpChecked (.ite (.next _) fun _ => .ite (.next _) fun _ => .next _)
  | otpGetRedirect b => exact .otpChecked (.next _)
  | otpLockRedirect b => exact .otpChecked (.ite (.next _) fun _ => .next _)
  | otpIsRedirectLocked b => exact .otpChecked (.next _)
  | _ => exact .next _

/-- A step of a command at a position of its own: past the start it answers a next state, at the start what its first
step answers. -/
theorem exec_nextOrPoison (hrun : s.seq = .run r) (hpos : standsAt i r.pos = true) :
    (∃ t, exec i s = .next t) ∨ (r.pos = .start ∧ NextOrPoison i s (exec i s)) := by
  by_cases hstart : r.pos = .start
  · rw [exec_start i ⟨hrun, hstart⟩]
    exact .inr ⟨hstart, nextOrPoison_startOf i r s⟩
  · exact .inl ⟨_, exec_go hrun hstart hpos⟩

theorem readsData_cases (h : readsData i = true) :
    i = .dataBlock ∨ i = .crc8 ∨ i = .crc16 ∨ (∃ b, i = .spWrite b) ∨ (∃ b, i = .spCopyMac b) ∨
      (∃ b, i = .mbWrite b) ∨ (∃ b, i = .mbWritePacket b) := by
  unfold readsData at h
  split at h
  case h_8 => cases h
  all_goals simp

/-- Settles O54, by what the step can answer. -/
theorem everyCommandAnswersANextState : Obligations.EveryCommandAnswersANextState := by
  intro i s r hrun hpos
  rcases exec_nextOrPoison hrun hpos with ⟨t, ht⟩ | ⟨hstart, hanswers⟩
  · exact ⟨fun _ => ⟨t, ht⟩, fun hnone => absurd ht (hnone t)⟩
  · generalize exec i s = x at hanswers
    cases hanswers with
    | next t => exact ⟨fun _ => ⟨t, rfl⟩, fun hnone => absurd rfl (hnone t)⟩
    | poison hreads a ha hbyte =>
      refine ⟨fun hvalues => ?_, fun _ => ⟨rfl, readsData_cases hreads⟩⟩
      exact absurd hbyte (hvalues.resolve_left (not_not.mpr hstart) a ha)

end

/-! ## The trace -/

section
variable {i : Instr} {r : Run} {s t u v : State}

/-- The trace of `u` is that of `s` and new events, at most one of them a bus step. -/
def OneBusStep (s u : State) : Prop := ∃ new, u.hist = s.hist ++ new ∧ busSteps new ≤ 1

/-- An update that appends no bus step, but perhaps the start or the end of a strong pull-up. -/
theorem OneBusStep.append (h : OneBusStep s u) (quiet : List BusEvent) (hq : busSteps quiet = 0)
    (hv : v.hist = u.hist ++ quiet) : OneBusStep s v := by
  obtain ⟨new, hu, hone⟩ := h
  exact ⟨new ++ quiet, by rw [hv, hu, List.append_assoc], by rw [busSteps_append]; omega⟩

theorem OneBusStep.congr (h : OneBusStep s u) (hv : v.hist = u.hist) : OneBusStep s v :=
  h.append [] rfl (by rw [hv, List.append_nil])

theorem OneBusStep.endPullup (h : OneBusStep s u) : OneBusStep s (Machine.endPullup u) := by
  unfold Machine.endPullup
  split
  · exact h.append [.pullupEnd] rfl rfl
  · exact h

theorem OneBusStep.startPullup (h : OneBusStep s u) : OneBusStep s (Machine.startPullup u) :=
  h.append [.pullupStart u.pwrDur] rfl rfl

theorem busSteps_resetEvents (s : State) : busSteps (resetEvents s) = 1 := by
  rw [resetEvents, busSteps_append]
  split <;> rfl

theorem busSteps_byteEvents (tx : Byte) (s : State) : busSteps (byteEvents tx s) = 1 := by
  rw [byteEvents, busSteps_append, busSteps_append]
  split <;> split <;> rfl

theorem commitPages_hist (b x n : Nat) (s : State) : (commitPages b x n s).hist = s.hist := by
  obtain ⟨g, -, -, heq | heq⟩ := commitPages_cases b x n s
  · rw [heq]
  · rw [heq]; rfl

/-- No elementary update of a controller step but a bus step appends one. -/
theorem stepClosed_oneBusStep (i : Instr) (r : Run) (s : State) : StepClosed i r (OneBusStep s) (OneBusStep s) where
  stay _ h := h
  stand _ _ h _ := h.congr rfl
  finish _ _ _ h := h.congr rfl
  raise _ _ _ h := h.congr rfl
  finishData _ _ _ _ _ _ h := h.congr rfl
  dropSelection _ h := h.congr rfl
  noteSelected _ h := h.congr rfl
  verified _ _ _ _ h := h.congr rfl
  scratch _ _ _ _ h := h.congr rfl
  arm _ _ h := h.congr rfl
  speed _ _ _ h := h.congr rfl
  pdur _ _ _ h := h.congr rfl
  pwrNow _ _ h := .startPullup (by exact h.endPullup.congr rfl)
  pwrNext _ _ h := h.congr rfl
  pwrNormal _ _ h := h.endPullup.congr rfl
  protect _ _ _ h := h.congr rfl
  lock _ _ _ _ h := h.congr rfl
  lockRedirect _ _ _ _ h := h.congr rfl
  commit b _ x n u h := h.congr (commitPages_hist b x n u)

/-- The one bus step a controller step may begin with. -/
theorem busClosed_oneBusStep (s : State) : BusClosed (OneBusStep s) s where
  self := ⟨[], (List.append_nil _).symm, by decide⟩
  reset := ⟨resetEvents s, by simp, (busSteps_resetEvents s).le⟩
  byte tx := ⟨byteEvents tx s, by simp, (busSteps_byteEvents tx s).le⟩
  rawReset := ⟨resetEvents (dropSelection s), by simp, (busSteps_resetEvents _).le⟩
  rawByte tx := ⟨byteEvents tx (dropSelection s), by simp, (busSteps_byteEvents tx _).le⟩

/-- Settles O55. -/
theorem oneBusStepPerControllerStep : Obligations.OneBusStepPerControllerStep := by
  intro i s t hexec
  obtain ⟨r, hrun⟩ := exec_next_run hexec
  exact exec_closed (stepClosed_oneBusStep i r s) hrun (busClosed_oneBusStep s) hexec

end

/-! ## Selecting a device -/

section
variable {i : Instr} {b : Nat} {r : Run} {k : Label} {s : State}

/-- RESULT of a command whose select found no device: 0, or the bytes done of a memory-bank write (rule R288). -/
def missedResult : Label → Word
  | .range w _ => count w.done
  | _ => 0

theorem missedResult_eq_zero (hk : ∀ w a, k ≠ .range w a) : missedResult k = 0 := by
  unfold missedResult
  split
  · exact absurd rfl (hk _ _)
  · rfl

/-- What follows the select of a bank command that found no device is DeviceNotFound (rule R152), row by
row of `owns`. -/
theorem goOf_notFound (hb : i.bank? = some b) (ho : owns i k = true) (hk : k.prim = .select) (r : Run) (u : State) :
    goOf i r k (.selected false) u = raise .deviceNotFound (missedResult k) (setVerified b false u) := by
  unfold owns at ho
  split at ho
  case h_27 => cases ho
  all_goals cases hb
  case h_14 | h_15 | h_17 | h_19 | h_21 | h_23 | h_25 => rfl
  case h_16 | h_18 | h_20 | h_22 | h_24 | h_26 => cases hk
  case h_7 a | h_8 a =>
    cases a with
    | sel mac => rfl
    | send c => cases c <;> cases hk
  case h_12 a | h_13 a =>
    cases a
    case eraseSel | writeSel | readSel | copySel | directSel => rfl
    case copy c => cases c <;> cases hk
    all_goals cases hk
  all_goals
    next a =>
      cases a
      case sel => rfl
      all_goals cases hk

/-- The step of a select that finds no device, wherever it stands in the command (rule R150). -/
theorem exec_selecting_missed (h : selecting i r s k) (hp : s.nextPresence = false) :
    exec i s = .next (goOf i r k (.selected false) (dropSelection (busReset s))) := by
  rw [exec_selecting h]
  simp [advance, hp]

/-- Settles O49. -/
theorem noPresenceIsDeviceNotFound : Obligations.NoPresenceIsDeviceNotFound := by
  intro i s r b k hsel hb hp
  have hk := selecting_standsAt hsel
  simp only [standsAt, Bool.and_eq_true, beq_iff_eq] at hk
  obtain ⟨howns, hprim⟩ := hk
  have hmissed : exec i s = .next (raise .deviceNotFound (missedResult k) (missedFor b s)) := by
    rw [exec_selecting_missed hsel hp, goOf_notFound hb howns hprim, missedFor]
  refine ⟨?_, fun hno => ?_⟩
  · rintro w a rfl
    exact hmissed
  · rw [hmissed, missedResult_eq_zero hno]

/-- Resume is used under the four conditions of rule R151. -/
theorem usesResume_iff (s : State) : usesResume s = true ↔
    s.resumeEn = true ∧ s.owner ≠ none ∧ s.resumeArmed = true ∧ s.lastSel = some s.romid := by
  simp [usesResume, Option.isSome_iff_ne_none, and_assoc]

theorem selectBytes_resume (h : usesResume s = true) : selectBytes s = [s.cfg.resumeCmd] := if_pos h

theorem selectBytes_address (h : ¬ usesResume s = true) : selectBytes s = s.cfg.matchRomCmd :: addrBytes s.romid :=
  if_neg h

theorem selectedState_eq (s : State) : selectedState s =
    { busBytes (selectBytes s) (busReset s) with
      spValid := s.spValid && decide (s.lastSel = some s.romid)
      lastSel := some s.romid
      resumeArmed := true } := by
  have hsame : (s.lastSel == some s.romid) = decide (s.lastSel = some s.romid) := by rw [Bool.eq_iff_iff]; simp
  have hromid : (busReset s).romid = s.romid := by simp [State.romid]
  simp [selectedState, noteSelected, hromid, hsame]

theorem selecting_select (hstart : starts s r) : selecting .select r s .select :=
  ⟨hstart.1, .inl ⟨hstart.2, nofun, rfl⟩⟩

/-- SELECT runs the select sequence and ends (rule R181). -/
theorem run_select_found (hstart : starts s r) (hp : s.nextPresence = true) :
    controllerRun .select (selectSteps s) s = .next (finish .ok 1 (selectedState s)) := by
  obtain ⟨p, hrun⟩ := run_selecting (selecting_select hstart) hp
  exact hrun

/-- Settles O26. -/
theorem selectAddressesTheDevice : Obligations.SelectAddressesTheDevice := by
  refine ⟨rfl, ?_⟩
  intro s r hstart resume address found
  refine ⟨fun hp hresume => ?_, fun hp hfull => ?_, fun hp => ?_, fun _ => ?_⟩
  · have hbytes := selectBytes_resume ((usesResume_iff s).mpr hresume)
    have hrun := run_select_found hstart hp
    rwa [selectedState_eq, selectSteps, hbytes] at hrun
  · have hbytes := selectBytes_address (mt (usesResume_iff s).mp hfull)
    have hrun := run_select_found hstart hp
    rw [selectedState_eq, selectSteps, hbytes, addrBytes_romid] at hrun
    exact hrun
  · exact exec_selecting_missed (selecting_select hstart) hp
  · exact ⟨selectedState_eq s, rfl⟩

end

end Sys2Proof.Machine

/-! PROOFS. The bus primitive commands: DATABLOCK, the raw bus commands, the speed commands, power delivery; and the power
timer with the hold at `PowerWait`. -/

namespace Sys2Proof.Machine

/-! ## DATABLOCK -/

section
variable {r : Run} {s : State}

theorem dataBlockStart_outOfRange (hout : Config.bufSize < r.argOff + r.argLen) :
    dataBlockStart r s = .next (raise .rangeError 0 s) := if_pos hout

theorem dataBlockStart_empty (hfit : r.argOff + r.argLen ≤ Config.bufSize) (hlen : r.argLen = 0) :
    dataBlockStart r s = .next (finish .ok 0 s) := by
  rw [dataBlockStart, if_neg (Nat.not_lt.mpr hfit), if_pos hlen]

theorem dataBlockStart_sends {tx : List Byte} (hfit : r.argOff + r.argLen ≤ Config.bufSize) (hlen : r.argLen ≠ 0)
    (hread : s.data.read r.argOff r.argLen = some tx) :
    dataBlockStart r s = .next (advance r (dataBlockGo r) (.xfer tx [] .block) (dropSelection s)) := by
  rw [dataBlockStart, if_neg (Nat.not_lt.mpr hfit), if_neg hlen, withRead, hread]

/-- The whole transfer of DATABLOCK and its end (rule R184). -/
theorem run_dataBlock {tx : List Byte} (hstart : starts s r) (hfit : r.argOff + r.argLen ≤ Config.bufSize)
    (hlen : r.argLen ≠ 0) (hread : s.data.read r.argOff r.argLen = some tx) :
    controllerRun .dataBlock r.argLen s = .next (finish .ok (count r.argLen)
      (memWrite r.argOff (answers r.argLen s) (busBytes tx (dropSelection s)))) := by
  have hcount : tx.length = r.argLen := (Memory.read_eq_some.mp hread).1
  have htx : tx ≠ [] := List.ne_nil_of_length_pos (by omega)
  have hstand : stand r .start (dropSelection s) = dropSelection s := by
    rw [← dropSelection_stand, stand_start hstart.1 hstart.2]
  have hfirst : exec .dataBlock s = .next (advance r (goOf .dataBlock r) (.xfer tx [] .block) (dropSelection s)) :=
    (exec_start .dataBlock hstart).trans (dataBlockStart_sends hfit hlen hread)
  obtain ⟨p, hrun⟩ := run_xfer_first rfl hstand htx hfirst
  have hanswers : answers r.argLen (dropSelection s) = answers r.argLen s := answers_congr rfl rfl
  rw [hcount, hanswers] at hrun
  exact hrun

/-- Settles O27: the three ways the first step ends, and the transfer. -/
theorem dataBlockIsFullDuplex : Obligations.DataBlockIsFullDuplex := by
  refine ⟨rfl, ?_⟩
  intro s r hstart len off
  have hfirst : exec .dataBlock s = dataBlockStart r s := exec_start .dataBlock hstart
  refine ⟨fun hout => ?_, fun hlen hoff => ?_, fun hlen hfit hpoison => ?_, fun tx hlen hfit hread => ?_⟩
  · exact hfirst.trans (dataBlockStart_outOfRange hout)
  · have hfit : off + len ≤ Config.bufSize := by rw [hlen]; exact hoff
    exact hfirst.trans (dataBlockStart_empty hfit hlen)
  · exact hfirst.trans (dataBlockStart_poison hfit hlen.ne' hpoison)
  · exact run_dataBlock hstart hfit hlen.ne' hread

end

/-! ## The raw bus commands -/

/-- Settles O23: each command's first step is its whole meaning. -/
theorem rawBusCommandsMakeOneBusStep : Obligations.RawBusCommandsMakeOneBusStep := by
  refine ⟨rfl, rfl, rfl, ?_⟩
  intro s r hstart raw
  refine ⟨?_, exec_start .putByte hstart, exec_start .getByte hstart⟩
  rw [← bit_zero]
  exact exec_start .reset hstart

/-! ## The speed commands -/

/-- Settles O24, by the codes of rule R44. -/
theorem nopAndSpeedCommands : Obligations.NopAndSpeedCommands := by
  refine ⟨rfl, rfl, rfl, ?_⟩
  intro s r hstart
  refine ⟨exec_start .nop hstart, exec_start .getSpeed hstart, fun m hm => ?_, fun habove => ?_⟩
  · have hcode : speedOfCode r.argA0 = some m := by rw [Run.argA0, ← hm, speedOfCode_code]
    rw [exec_start .setSpeed hstart, startOf, setSpeedStart, hcode]
  · rw [exec_start .setSpeed hstart, startOf, setSpeedStart, Run.argA0, speedOfCode_above habove]

/-! ## Power delivery -/

/-- The durations that PWR_SET_DURATION takes are codes 0 to 5 (rules R45, R196). -/
theorem durationCode_le_five_iff (d : Duration) :
    (durationCode d).toNat ≤ 5 ↔ ¬ (d = .currentDetect ∨ d = .eprom) := by
  cases d <;> decide

/-- The end of an active pull-up and its event; nothing with none on (rule R149). -/
theorem endPullup_eq (s : State) : endPullup s =
    { s with pwrActive := false, hist := s.hist ++ (if s.pwrActive then [.pullupEnd] else []) } := by
  cases hactive : s.pwrActive
  · have hkept : endPullup s = s := if_neg (by simp [hactive])
    rw [hkept, if_neg Bool.false_ne_true, List.append_nil, ← hactive]
  · simp [endPullup, hactive, note]

section
variable {r : Run} {s : State}

theorem pwrSetDurationStart_allowed {d : Duration} (hd : (durationCode d).toNat = r.a0.toNat) (hle : r.a0.toNat ≤ 5) :
    pwrSetDurationStart r s = .next (finish .ok 0 { s with pdur := d }) := by
  have hallowed := (durationCode_le_five_iff d).mp (hd ▸ hle)
  rw [pwrSetDurationStart, Run.argA0, ← hd, durationOfCode_code]
  exact if_neg hallowed

theorem pwrSetDurationStart_refused {d : Duration} (hd : (durationCode d).toNat = r.a0.toNat)
    (hrefused : d = .currentDetect ∨ d = .eprom) :
    pwrSetDurationStart r s = .next (raise .unsupportedOperation 0 s) := by
  rw [pwrSetDurationStart, Run.argA0, ← hd, durationOfCode_code]
  exact if_pos hrefused

theorem pwrSetDurationStart_above (h : 7 < r.a0.toNat) : pwrSetDurationStart r s = .next (raise .rangeError 0 s) := by
  rw [pwrSetDurationStart, Run.argA0, durationOfCode_above h]

end

/-- Settles O25, by the argument of each command. -/
theorem powerCommands : Obligations.PowerCommands := by
  refine ⟨rfl, rfl, rfl, ?_⟩
  intro s r hstart ended
  have hset : exec .pwrSetDuration s = pwrSetDurationStart r s := exec_start .pwrSetDuration hstart
  have hpwr : exec .pwrStart s = pwrStartStart r s := exec_start .pwrStart hstart
  have hended : endPullup s = { s with pwrActive := false, hist := s.hist ++ ended } := endPullup_eq s
  refine ⟨fun d hd hle => ?_, fun hrefused => ?_, fun habove => ?_, fun hnow => ?_, fun hnext => ?_, fun hone => ?_,
    fun habove => ?_, ?_⟩
  · exact hset.trans (pwrSetDurationStart_allowed hd hle)
  · rcases hrefused with h6 | h7
    · exact hset.trans (pwrSetDurationStart_refused (d := .currentDetect) h6.symm (.inl rfl))
    · exact hset.trans (pwrSetDurationStart_refused (d := .eprom) h7.symm (.inr rfl))
  · exact hset.trans (pwrSetDurationStart_above habove)
  · simp [hpwr, pwrStartStart, Run.argA0, hnow, hended, startPullup, note]
  · simp [hpwr, pwrStartStart, Run.argA0, hnext]
  · simp [hpwr, pwrStartStart, Run.argA0, hone]
  · rw [hpwr, pwrStartStart, Run.argA0, if_pos habove]
  · rw [exec_start .pwrNormal hstart]
    dsimp only [startOf]
    rw [hended]

/-! ## The power timer and `PowerWait` -/

section
variable {i : Instr} {r : Run} {k : Label} {s : State}

/-- The power timer has a step exactly while a pull-up of duration code 0 to 4 is on (rule R199). -/
theorem timerEnabled_iff : timerEnabled s = true ↔ s.pwrActive = true ∧ (durationCode s.pwrDur).toNat ≤ 4 := by
  simp [timerEnabled, endsByItself]

/-- The power waits of the commands are those of a copy with the strong pull-up (rule R247), row by row of
`Label.prim`. -/
theorem label_of_power (hk : k.prim = .power) :
    k = .copy (.send .power) ∨ k = .copyMac (.send .power) ∨ ∃ w, k = .range w (.copy .power) := by
  have hcopy : ∀ c : CopyAt, c.prim = .power → c = .power := by intro c; cases c <;> simp [CopyAt.prim]
  unfold Label.prim at hk
  split at hk
  case h_13 c => simp [hcopy c hk]
  case h_15 c => simp [hcopy c hk]
  case h_31 w c => simp [hcopy c hk]
  all_goals cases hk

theorem startPoll_hist {f : State → State} (hf : (f s).hist = s.hist) : (startPoll r k f s).hist = s.hist := by
  unfold startPoll
  split
  · exact hf
  · rfl

/-- What follows a power wait begins a poll, or with POLL_LIMIT 0 ends as a poll that saw nothing (rules R240, R247):
neither makes a bus event. -/
theorem goOf_powered_hist (ho : owns i k = true) (hk : k.prim = .power) :
    (goOf i r k .powered s).hist = s.hist := by
  obtain rfl | rfl | ⟨w, rfl⟩ := label_of_power hk
  · cases i <;> cases ho
    exact startPoll_hist rfl
  · cases i <;> cases ho
    exact startPoll_hist rfl
  · cases i <;> cases ho
    all_goals exact startPoll_hist rfl

/-- At `PowerWait` with the pull-up on the controller has no step (rule R199). -/
theorem controllerStep_held (hrun : s.seq = .run r) (hpos : r.pos = .power k) (hon : s.pwrActive = true) :
    controllerStep s = .next s := by
  have hoff : controllerEnabled s = false := by simp [controllerEnabled, hrun, hpos, hon]
  rw [controllerStep, if_neg (ne_true_of_eq_false hoff)]

theorem controllerStep_powered (hrun : s.seq = .run r) (hpos : r.pos = .power k) (hoff : s.pwrActive = false)
    (hdec : decode r.word = .ok i) (hstand : standsAt i (.power k) = true) :
    controllerStep s = .next (goOf i r k .powered s) := by
  rw [controllerStep_run hrun (fun _ => hoff) hdec, exec_go hrun (by simp [hpos]) (by rw [hpos]; exact hstand), hpos]
  simp [advance, hoff]

/-- Settles O20: the timer by whether it has a step, the controller at `PowerWait` by whether the pull-up is on. -/
theorem powerTimerEndsAFinitePullup : Obligations.PowerTimerEndsAFinitePullup := by
  intro s
  refine ⟨fun hon hfinite => ?_, fun hnone => ?_, fun r k hrun hpos hon => ?_, fun r k i hrun hpos hoff hdec hstand => ?_⟩
  · have hstep : timerStep s = endPullup s := if_pos (timerEnabled_iff.mpr ⟨hon, hfinite⟩)
    rw [eventStep, hstep, endPullup_eq, if_pos hon]
  · have hidle : ¬ timerEnabled s = true := by
      rw [timerEnabled_iff]
      rintro ⟨hon, hfinite⟩
      rcases hnone with hoff | hinf
      · exact absurd hon (by simp [hoff])
      · exact absurd hfinite (by rw [hinf]; decide)
    rw [eventStep, timerStep, if_neg hidle]
  · exact controllerStep_held hrun hpos hon
  · refine ⟨_, controllerStep_powered hrun hpos hoff hdec hstand, ?_⟩
    simp only [standsAt, Bool.and_eq_true, beq_iff_eq] at hstand
    obtain ⟨howns, hprim⟩ := hstand
    exact goOf_powered_hist howns hprim

end

end Sys2Proof.Machine

/-! PROOFS. The CRC functions on a block with its check bytes, and the two CRC commands. -/

namespace Sys2Proof.Machine

/-! ## CRC8: a byte folded into itself leaves 0 -/

theorem crc8Standard_append (seed : Byte) (d e : List Byte) :
    crc8Standard seed (d ++ e) = crc8Standard (crc8Standard seed d) e := by
  induction d generalizing seed with
  | nil => rfl
  | cons v d ih => exact ih _

/-- On the register's own value no round mixes in the polynomial: all that is left is the shift. -/
theorem crc8Rounds_self (n : Nat) (c : Byte) : crc8Rounds n c c = c >>> n := by
  induction n generalizing c with
  | zero => simp [crc8Rounds]
  | succ n ih =>
    have hround : crc8Rounds (n + 1) c c = crc8Rounds n (c >>> 1) (c >>> 1) := by simp [crc8Rounds]
    rw [hround, ih, ← BitVec.shiftRight_add, Nat.add_comm]

/-- Data with its CRC8 has residue 0 (rule R222), from every seed. -/
theorem crc8Standard_checked (seed : Byte) (d : List Byte) :
    crc8Standard seed (d ++ [crc8Standard seed d]) = 0 := by
  rw [crc8Standard_append, crc8Standard, crc8Standard, crc8Rounds_self]
  exact BitVec.ushiftRight_eq_zero (Nat.le_refl 8)

/-! ## CRC16: the rounds are linear -/

theorem crc16Standard_append (seed : Half) (d e : List Byte) :
    crc16Standard seed (d ++ e) = crc16Standard (crc16Standard seed d) e := by
  induction d generalizing seed with
  | nil => rfl
  | cons v d ih => exact ih _

/-- What a round adds to the shift: the polynomial where a 1 bit falls out. -/
theorem crc16Rounds_succ (n : Nat) (c : Half) :
    crc16Rounds (n + 1) c = crc16Rounds n (c >>> 1 ^^^ if c.getLsbD 0 then 0xA001 else 0) := by
  rw [crc16Rounds]
  cases c.getLsbD 0 <;> simp

theorem crc16Rounds_xor (n : Nat) (a b : Half) :
    crc16Rounds n (a ^^^ b) = crc16Rounds n a ^^^ crc16Rounds n b := by
  induction n generalizing a b with
  | zero => rfl
  | succ n ih =>
    have hpoly (x y : Bool) : (if x.xor y then 0xA001 else 0 : Half) =
        (if x then 0xA001 else 0) ^^^ (if y then 0xA001 else 0) := by
      cases x <;> cases y <;> rfl
    simp only [crc16Rounds_succ, BitVec.getLsbD_xor, BitVec.ushiftRight_xor_distrib, hpoly, ← ih]
    congr 1
    ac_rfl

/-- While only 0 bits fall out, the rounds are the shift. -/
theorem crc16Rounds_eq_shift (n : Nat) (c : Half) (hlow : ∀ j < n, c.getLsbD j = false) :
    crc16Rounds n c = c >>> n := by
  induction n generalizing c with
  | zero => simp [crc16Rounds]
  | succ n ih =>
    have hshift : ∀ j < n, (c >>> 1).getLsbD j = false := fun j hj => by
      rw [BitVec.getLsbD_ushiftRight]
      exact hlow _ (by omega)
    rw [crc16Rounds, hlow 0 n.succ_pos, if_neg Bool.false_ne_true, ih _ hshift, ← BitVec.shiftRight_add, Nat.add_comm]

/-- A byte in the high half of the register is shifted down whole. -/
theorem crc16Rounds_high (v : Byte) : crc16Rounds 8 (v.setWidth 16 <<< 8) = v.setWidth 16 := by
  rw [crc16Rounds_eq_shift]
  · apply BitVec.eq_of_getLsbD_eq
    intro j hj
    have hbyte (hbit : v.getLsbD j = true) : 8 + j < 16 := Nat.add_lt_add_left (BitVec.lt_of_getLsbD hbit) 8
    simpa using fun _ => hbyte
  · intro j hj
    simp [hj]

/-! ## CRC16: the check bytes -/

theorem lo_not (c : Half) : lo (~~~c) = ~~~lo c := BitVec.extractLsb'_not_of_lt (by decide)

theorem hi_not (c : Half) : hi (~~~c) = ~~~hi c := by
  apply BitVec.eq_of_getLsbD_eq
  intro j hj
  simp [hi, hj, show 8 + j < 16 by omega]

/-- A value of 16 bits is its two bytes, each in its place. -/
theorem half_eq_xor (c : Half) : c = (hi c).setWidth 16 <<< 8 ^^^ (lo c).setWidth 16 := by
  apply BitVec.eq_of_getLsbD_eq
  intro j hj
  by_cases hlow : j < 8
  · simp [lo, hi, hj, hlow]
  · have hplace : 8 + (j - 8) = j := by omega
    have hbyte : j - 8 < 8 := by omega
    simp [lo, hi, hj, hlow, hplace, hbyte]

/-- A byte and its inverse cancel to 1 bits. -/
theorem xor_setWidth_not (v : Byte) : v.setWidth 16 ^^^ (~~~v).setWidth 16 = (0x00FF : Half) := by
  have hones : v ^^^ ~~~v = 0xFF := by rw [← BitVec.not_xor_right, BitVec.xor_self]; rfl
  rw [← BitVec.setWidth_xor, hones]
  rfl

theorem crc16Rounds_ones : crc16Rounds 8 0x00FF = 0x4040 := by decide

/-- The check bytes of the register's own value bring it to the residue, whatever it held: the first cancels its low byte,
the second its high byte. -/
theorem crc16Standard_checkBytes (c : Half) : crc16Standard c [lo (~~~c), hi (~~~c)] = crc16Residue := by
  have hlow : c ^^^ (lo (~~~c)).setWidth 16 = (hi c).setWidth 16 <<< 8 ^^^ 0x00FF := by
    calc c ^^^ (lo (~~~c)).setWidth 16
      _ = (hi c).setWidth 16 <<< 8 ^^^ (lo c).setWidth 16 ^^^ (~~~lo c).setWidth 16 := by rw [lo_not, ← half_eq_xor]
      _ = (hi c).setWidth 16 <<< 8 ^^^ 0x00FF := by rw [BitVec.xor_assoc, xor_setWidth_not]
  have hfirst : crc16Rounds 8 (c ^^^ (lo (~~~c)).setWidth 16) = (hi c).setWidth 16 ^^^ 0x4040 := by
    rw [hlow, crc16Rounds_xor, crc16Rounds_high, crc16Rounds_ones]
  have hhigh : (hi c).setWidth 16 ^^^ 0x4040 ^^^ (hi (~~~c)).setWidth 16 = (0x40BF : Half) := by
    calc (hi c).setWidth 16 ^^^ 0x4040 ^^^ (hi (~~~c)).setWidth 16
      _ = (hi c).setWidth 16 ^^^ (~~~hi c).setWidth 16 ^^^ (0x4040 : Half) := by rw [hi_not]; ac_rfl
      _ = 0x40BF := by rw [xor_setWidth_not]; rfl
  rw [crc16Standard, crc16Standard, crc16Standard, hfirst, hhigh]
  decide

/-- Data with its check bytes has the residue 0xB001 under the same seed (rule R223). -/
theorem crc16Standard_checked (seed : Half) (d : List Byte) :
    crc16Standard seed (d ++ [lo (~~~crc16Standard seed d), hi (~~~crc16Standard seed d)]) = crc16Residue := by
  rw [crc16Standard_append, crc16Standard_checkBytes]

theorem crc16Fn_standard {c : Config} (hc : c.crc16 = .standard) : crc16Fn c = crc16Standard := by
  funext seed d
  rw [crc16Fn, hc]

/-- Settles O29: a packet is its length and payload with their check bytes. -/
theorem checkedBlocksPass : Obligations.CheckedBlocksPass := by
  intro d seed c hc
  refine ⟨crc8Standard_checked 0 d, crc16Standard_checked seed d, ?_⟩
  rw [packetBytes, crc16Fn_standard hc]
  exact crc16Standard_checked seed _

/-! ## The CRC commands -/

/-- PASS, bit 31 of a RESULT (rules R225, R226). -/
theorem bit_31 (b : Bool) : bit b 31 = if b then 0x80000000 else 0 := by cases b <;> rfl

theorem crc8Result_eq (residue : Byte) :
    crc8Result residue = residue.setWidth 32 ||| if residue = 0 then 0x80000000 else 0 := by
  simp [crc8Result, zext, bit_31]

theorem crc16Result_eq (residue : Half) :
    crc16Result residue = residue.setWidth 32 ||| if residue = 0xB001 then 0x80000000 else 0 := by
  simp [crc16Result, zext, bit_31, crc16Residue]

section
variable {r : Run} {s : State}

theorem withRead_some {off n : Nat} {d : List Byte} (hread : s.data.read off n = some d) (k : List Byte → Result) :
    withRead off n s k = k d := by
  rw [withRead, hread]

theorem crc8Start_outOfRange (hout : Config.bufSize < r.argOff + r.argLen) :
    crc8Start r s = .next (raise .rangeError 0 s) := if_pos hout

theorem crc16Start_outOfRange (hout : Config.bufSize < r.argOff + r.argLen) :
    crc16Start r s = .next (raise .rangeError 0 s) := if_pos hout

theorem crc8Start_ends {d : List Byte} (hfit : r.argOff + r.argLen ≤ Config.bufSize)
    (hread : s.data.read r.argOff r.argLen = some d) :
    crc8Start r s = .next (finish .ok (crc8Result (crc8Fn s.cfg 0 d)) s) := by
  rw [crc8Start, if_neg (Nat.not_lt.mpr hfit), withRead_some hread]

theorem crc16Start_ends {d : List Byte} (hfit : r.argOff + r.argLen ≤ Config.bufSize)
    (hread : s.data.read r.argOff r.argLen = some d) :
    crc16Start r s = .next (finish .ok (crc16Result (crc16Fn s.cfg r.argSeed d)) s) := by
  rw [crc16Start, if_neg (Nat.not_lt.mpr hfit), withRead_some hread]

end

/-- Settles O28: the three ways the only step of each command ends. -/
theorem crcCommandsLeaveTheResidue : Obligations.CrcCommandsLeaveTheResidue := by
  refine ⟨rfl, rfl, ?_⟩
  intro s r hstart len off
  have hcrc8 : exec .crc8 s = crc8Start r s := exec_start .crc8 hstart
  have hcrc16 : exec .crc16 s = crc16Start r s := exec_start .crc16 hstart
  refine ⟨fun hout => ⟨?_, ?_⟩, fun hfit hpoison => ⟨?_, ?_⟩, fun d hfit hread => ⟨?_, ?_⟩⟩
  · exact hcrc8.trans (crc8Start_outOfRange hout)
  · exact hcrc16.trans (crc16Start_outOfRange hout)
  · exact hcrc8.trans (crc8Start_poison hfit hpoison)
  · exact hcrc16.trans (crc16Start_poison hfit hpoison)
  · rw [← crc8Result_eq]
    exact hcrc8.trans (crc8Start_ends hfit hread)
  · rw [← crc16Result_eq]
    exact hcrc16.trans (crc16Start_ends hfit hread)

end Sys2Proof.Machine

/-! PROOFS. The scratchpad commands: their checks; the poll and `sendCopy`, each said once for every command that makes
it; then how each command ends. -/

namespace Sys2Proof.Machine

/-! ## The checks -/

section
variable {r : Run} {s : State} {b : Nat}

theorem ne_staged_iff {m : WriteMode} : m ≠ .staged ↔ m = .direct := by cases m <;> simp

theorem spEraseStart_unsupported (hb : b < s.cfg.banks.length)
    (hmode : (s.prof b).writeMode = .direct ∨ (s.prof b).eraseRequired = false) :
    spEraseStart b r s = .next (raise .unsupportedOperation 0 s) := by
  rw [spEraseStart, bankChecked_exists hb, if_pos (hmode.imp_left ne_staged_iff.mpr)]

theorem spEraseStart_outOfRange (hb : b < s.cfg.banks.length) (hmode : (s.prof b).writeMode = .staged)
    (herase : (s.prof b).eraseRequired = true) (hta : 0x10000 ≤ r.a0.toNat) :
    spEraseStart b r s = .next (raise .rangeError 0 s) := by
  rw [spEraseStart, bankChecked_exists hb, if_neg (by simp [hmode, herase]), if_pos ((argTAFits_eq_false_iff r).mpr hta)]

theorem spWriteStart_unsupported (hb : b < s.cfg.banks.length) (hmode : (s.prof b).writeMode = .direct) :
    spWriteStart b r s = .next (raise .unsupportedOperation 0 s) := by
  rw [spWriteStart, bankChecked_exists hb, if_pos (ne_staged_iff.mpr hmode)]

/-- The three range checks of SP_WRITE end alike (rule R244). -/
theorem spWriteStart_outOfRange (hb : b < s.cfg.banks.length) (hmode : (s.prof b).writeMode = .staged)
    (hout : 0x10000 ≤ r.a0.toNat ∨ r.argLen = 0 ∨ Config.bufSize < r.argOff + spWriteLen r) :
    spWriteStart b r s = .next (raise .rangeError 0 s) := by
  rw [spWriteStart, bankChecked_exists hb, if_neg (not_not.mpr hmode)]
  by_cases hta : r.argTAFits = false
  · rw [if_pos hta]
  rw [if_neg hta]
  by_cases hlen : r.argLen = 0
  · rw [if_pos hlen]
  have hfit : Config.bufSize < r.argOff + spWriteLen r :=
    (hout.resolve_left (mt (argTAFits_eq_false_iff r).mpr hta)).resolve_left hlen
  rw [if_neg hlen, if_pos hfit]

theorem spReadStart_unsupported (hb : b < s.cfg.banks.length) (hmode : (s.prof b).writeMode = .direct) :
    spReadStart b r s = .next (raise .unsupportedOperation 0 s) := by
  rw [spReadStart, bankChecked_exists hb, if_pos (ne_staged_iff.mpr hmode)]

theorem spReadStart_outOfRange (hb : b < s.cfg.banks.length) (hmode : (s.prof b).writeMode = .staged)
    (hout : Config.bufSize < r.argOff + 32) : spReadStart b r s = .next (raise .rangeError 0 s) := by
  rw [spReadStart, bankChecked_exists hb, if_neg (not_not.mpr hmode), if_pos hout]

theorem spCopyStart_unsupported (hb : b < s.cfg.banks.length)
    (hmode : (s.prof b).writeMode = .direct ∨ (s.prof b).macCopy = true) :
    spCopyStart b r s = .next (raise .unsupportedOperation 0 s) := by
  rw [spCopyStart, bankChecked_exists hb, if_pos (hmode.imp_left ne_staged_iff.mpr)]

theorem spCopyStart_noReadBack (hb : b < s.cfg.banks.length) (hmode : (s.prof b).writeMode = .staged)
    (hmac : (s.prof b).macCopy = false) (hvalid : s.spValid = false) :
    spCopyStart b r s = .next (raise .protocolError 0 s) := by
  rw [spCopyStart, bankChecked_exists hb, if_neg (by simp [hmode, hmac]), if_pos hvalid]

theorem spCopyMacStart_unsupported (hb : b < s.cfg.banks.length)
    (hmode : (s.prof b).writeMode = .direct ∨ (s.prof b).macCopy = false) :
    spCopyMacStart b r s = .next (raise .unsupportedOperation 0 s) := by
  rw [spCopyMacStart, bankChecked_exists hb, if_pos (hmode.imp_left ne_staged_iff.mpr)]

theorem spCopyMacStart_outOfRange (hb : b < s.cfg.banks.length) (hmode : (s.prof b).writeMode = .staged)
    (hmac : (s.prof b).macCopy = true) (hout : Config.bufSize < r.argOff + 20) :
    spCopyMacStart b r s = .next (raise .rangeError 0 s) := by
  rw [spCopyMacStart, bankChecked_exists hb, if_neg (by simp [hmode, hmac]), if_pos hout]

theorem spCopyMacStart_noReadBack (hb : b < s.cfg.banks.length) (hmode : (s.prof b).writeMode = .staged)
    (hmac : (s.prof b).macCopy = true) (hfit : r.argOff + 20 ≤ Config.bufSize) (hvalid : s.spValid = false) :
    spCopyMacStart b r s = .next (raise .protocolError 0 s) := by
  rw [spCopyMacStart, bankChecked_exists hb, if_neg (by simp [hmode, hmac]), if_neg (Nat.not_lt.mpr hfit), if_pos hvalid]

end

/-- Settles O50, check by check. -/
theorem scratchpadChecks : Obligations.ScratchpadChecks := by
  intro s r b hstart hb p len off refused
  have hrefused {i : Instr} {e : ErrCode} (hi : startOf i r s = .next (raise e 0 s)) : refused e i :=
    (exec_start i hstart).trans hi
  refine ⟨?_, ?_, ?_, ?_, ?_, ?_, ?_, ?_, ?_, ?_, ?_⟩
  · exact fun hmode => hrefused (spEraseStart_unsupported hb hmode)
  · exact fun hmode herase hta => hrefused (spEraseStart_outOfRange hb hmode herase hta)
  · exact fun hmode => hrefused (spWriteStart_unsupported hb hmode)
  · intro hmode hout
    refine hrefused (spWriteStart_outOfRange hb hmode ?_)
    rwa [spWriteLen_eq]
  · exact fun hmode => hrefused (spReadStart_unsupported hb hmode)
  · exact fun hmode hout => hrefused (spReadStart_outOfRange hb hmode hout)
  · exact fun hmode => hrefused (spCopyStart_unsupported hb hmode)
  · exact fun hmode hmac hvalid => hrefused (spCopyStart_noReadBack hb hmode hmac hvalid)
  · exact fun hmode => hrefused (spCopyMacStart_unsupported hb hmode)
  · exact fun hmode hmac hout => hrefused (spCopyMacStart_outOfRange hb hmode hmac hout)
  · exact fun hmode hmac hfit hvalid => hrefused (spCopyMacStart_noReadBack hb hmode hmac hfit hvalid)

/-! ## The poll -/

section
variable {i : Instr} {r : Run} {k : Label} {s u : State} {m : Nat} {p : Pos} {ended : Option Byte → State → State}

theorem pollLimit_ne_zero (hpos : 0 < s.pollLimit.toNat) : s.pollLimit ≠ 0 := fun hzero => by
  rw [hzero] at hpos
  cases hpos

/-- The ways a poll ends that command `i` begins `m` steps after `s`, in state `u` with POLL_LIMIT `limit`, and that ends
the command as `ended` says: with the first byte that is not FF, with `limit` bytes of FF, or at once (rule R240). -/
structure PollEnds (i : Instr) (m : Nat) (s u : State) (limit : Byte) (ended : Option Byte → State → State) :
    Prop where
  seen : ∀ n, n < limit.toNat → answers n u = ffs n → (busBytes (ffs n) u).nextByte ≠ 0xFF →
    controllerRun i (m + (n + 1)) s =
      .next (ended (some (busBytes (ffs n) u).nextByte) (busBytes (ffs (n + 1)) u))
  quiet : 0 < limit.toNat → answers limit.toNat u = ffs limit.toNat →
    controllerRun i (m + limit.toNat) s = .next (ended none (busBytes (ffs limit.toNat) u))
  zero : limit = 0 → controllerRun i m s = .next (ended none u)

theorem pollEnds_of_startPoll (h : controllerRun i m s = .next (startPoll r k (ended none) (stand r p u)))
    (hk : standsAt i (.poll 0 k) = true) (hgo : ∀ v t, goOf i r k (.polled v) t = ended v t)
    (hend : ∀ v q t, ended v (stand r q t) = ended v t) : PollEnds i m s u u.pollLimit ended := by
  have hbegin (hpos : 0 < u.pollLimit.toNat) :
      controllerRun i m s = .next (stand r (.poll u.pollLimit.toNat k) u) := by
    rw [h, startPoll_pos (s := stand r p u) (pollLimit_ne_zero hpos)]
    rfl
  refine ⟨fun n hn ha hv => ?_, fun hpos ha => ?_, fun hzero => ?_⟩
  · obtain ⟨q, hq⟩ := run_poll (r := r) hk n _ u hn ha hv
    rw [controllerRun_add i m _ s _ (hbegin (Nat.zero_lt_of_lt hn)), hq, hgo, hend]
  · have hrun := hbegin hpos
    obtain ⟨n, hn⟩ := Nat.exists_eq_succ_of_ne_zero (Nat.ne_of_gt hpos)
    rw [hn] at ha hrun ⊢
    obtain ⟨q, hq⟩ := run_poll_none (r := r) hk n u ha
    rw [controllerRun_add i m _ s _ hrun, hq, hgo, hend]
  · rw [h, startPoll_zero (s := stand r p u) hzero, hend]

theorem pollStart_zero (hzero : s.pollLimit = 0) : pollStart r s = .next (pollEnd none s) := if_pos hzero

theorem pollStart_pos (hpos : 0 < s.pollLimit.toNat) :
    pollStart r s = .next (advance r (pollGo r) (.poll s.pollLimit.toNat .poll) s) :=
  if_neg (pollLimit_ne_zero hpos)

end

/-- Settles O30: the poll is the first thing the command does. -/
theorem pollIsBounded : Obligations.PollIsBounded := by
  refine ⟨rfl, fun s r hstart => ⟨fun n hn ha hv => ?_, fun hpos ha => ?_, fun hzero => ?_⟩⟩
  · have hfirst := (exec_start .poll hstart).trans (pollStart_pos (Nat.zero_lt_of_lt hn))
    obtain ⟨p, hrun⟩ := run_poll_first hstart rfl hn ha hv hfirst
    exact hrun
  · have hfirst := (exec_start .poll hstart).trans (pollStart_pos hpos)
    obtain ⟨n, hn⟩ := Nat.exists_eq_succ_of_ne_zero (Nat.ne_of_gt hpos)
    rw [hn] at ha hfirst ⊢
    obtain ⟨p, hrun⟩ := run_poll_none_first hstart rfl ha hfirst
    exact hrun
  · exact (exec_start .poll hstart).trans (pollStart_zero hzero)

/-! ## The first select of a scratchpad command -/

section
variable {i : Instr} {r : Run} {s : State} {b : Nat} {k : Label}

theorem bank_exists_of_eq (hi : i.bank? = some b) (hb : b < s.cfg.banks.length) :
    ∀ c, i.bank? = some c → c < s.cfg.banks.length := by
  intro c hc
  cases hi.symm.trans hc
  exact hb

/-- A command before its first step that passes its checks selects. -/
theorem selecting_of_starts (hstart : starts s r) (h : selectsFirst i r s k) : selecting i r s k :=
  ⟨hstart.1, .inl ⟨hstart.2, h⟩⟩

end

/-! ## SP_ERASE -/

section
variable {r : Run} {s u : State} {b : Nat} {rx : List Byte}

/-- The end of SP_ERASE for what its poll returned (rule R242). -/
def erasePolled (status : Byte) (v : Option Byte) (s : State) : State :=
  match v with
  | none => finish .timeout (zext status) s
  | some _ => finish .ok (zext status) s

theorem spEraseGo_polled (b : Nat) (r : Run) (status : Byte) (v : Option Byte) (u : State) :
    spEraseGo b r (.erase (.poll status)) (.polled v) u = erasePolled status v u := rfl

theorem erasePolled_stand (status : Byte) (v : Option Byte) (p : Pos) (u : State) :
    erasePolled status v (stand r p u) = erasePolled status v u := by
  cases v <;> rfl

theorem spEraseGo_refused (hok : eraseOk (u.prof b) (rx.getD 3 0) = false) :
    spEraseGo b r (.erase .frame) (.received rx) u = raise .protocolError (zext (rx.getD 3 0)) (dropScratchpad u) := by
  simp only [spEraseGo, hok]
  rfl

theorem spEraseGo_accepted (hok : eraseOk (u.prof b) (rx.getD 3 0) = true) (hpoll : (u.prof b).pollAfterErase = false) :
    spEraseGo b r (.erase .frame) (.received rx) u = finish .ok (zext (rx.getD 3 0)) (dropScratchpad u) := by
  simp only [spEraseGo, hok, hpoll]
  rfl

theorem spEraseGo_polls (hok : eraseOk (u.prof b) (rx.getD 3 0) = true) (hpoll : (u.prof b).pollAfterErase = true) :
    spEraseGo b r (.erase .frame) (.received rx) u =
      startPoll r (.erase (.poll (rx.getD 3 0))) (erasePolled (rx.getD 3 0) none) (dropScratchpad u) := by
  simp only [spEraseGo, hok, hpoll]
  rfl

/-- The erase-scratchpad frame in ARG0's terms (rule R125). -/
theorem eraseFrame_argTA (q : Prof) (r : Run) :
    eraseFrame q r.argTA = [q.cmdEraseSP, r.a0.extractLsb' 0 8, r.a0.extractLsb' 8 8, 0xFF] := by
  simp [eraseFrame]

/-- SP_ERASE up to the end of its frame (rule R242). -/
theorem run_spErase_frame (hsel : selecting (.spErase b) r s (.erase .sel)) (hp : s.nextPresence = true) :
    ∃ p, controllerRun (.spErase b) (selectSteps s + 4) s =
      .next (spEraseGo b r (.erase .frame) (.received (answers 4 (selectedFor b s)))
        (stand r p (busBytes (eraseFrame (s.prof b) r.argTA) (selectedFor b s)))) := by
  obtain ⟨p, h⟩ := run_selecting hsel hp
  simp only [goOf, spEraseGo, afterSelect_selected, prof_stand, selectedFor_prof, stand_stand] at h
  exact run_then_xfer h rfl (List.cons_ne_nil _ _)

end

/-- The default test of the erase status (rule R61). -/
theorem eraseOk_topNibble {q : Prof} (h : q.eraseOk = .topNibble) (status : Byte) :
    eraseOk q status = decide (status.extractLsb' 4 4 = 0xA ∨ status.extractLsb' 4 4 = 0x5) := by
  rw [eraseOk, h, Bool.eq_iff_iff]
  simp

/-- Settles O31: the frame, the test of the status byte, and the poll where the profile asks for one. -/
theorem eraseConfirmsTheStatus : Obligations.EraseConfirmsTheStatus := by
  intro s r b hstart hb hp q hmode herase hta sel status sent n v
  have hsel : selecting (.spErase b) r s (.erase .sel) :=
    selecting_of_starts hstart ⟨bank_exists_of_eq rfl hb, hmode, herase, hta, rfl⟩
  obtain ⟨p, h⟩ := run_spErase_frame hsel hp
  rw [eraseFrame_argTA] at h
  have hprof :
      (stand r p (busBytes [q.cmdEraseSP, r.a0.extractLsb' 0 8, r.a0.extractLsb' 8 8, 0xFF] sel)).prof b = q := by
    rw [prof_stand, busBytes_prof, selectedFor_prof]
  have hlimit : sent.pollLimit = s.pollLimit := by simp [sent, sel]
  have hpolls (hok : eraseOk q status = true) (hpoll : q.pollAfterErase = true) :
      controllerRun (.spErase b) n s =
        .next (startPoll r (.erase (.poll status)) (erasePolled status none) (stand r p sent)) := by
    rw [h, spEraseGo_polls (by rw [hprof]; exact hok) (by rw [hprof]; exact hpoll)]
    rfl
  have hends (hok : eraseOk q status = true) (hpoll : q.pollAfterErase = true) :
      PollEnds (.spErase b) n s sent s.pollLimit (erasePolled status) := by
    rw [← hlimit]
    exact pollEnds_of_startPoll (hpolls hok hpoll) rfl (spEraseGo_polled b r status) (erasePolled_stand status)
  refine ⟨fun hdef => eraseOk_topNibble hdef status, fun hok => ?_, fun hok hpoll => ?_,
    fun hok hpoll => (hends hok hpoll).zero, fun m hok hpoll => (hends hok hpoll).seen m,
    fun hok hpoll => (hends hok hpoll).quiet⟩
  · rw [h, spEraseGo_refused (by rw [hprof]; exact hok)]
    rfl
  · rw [h, spEraseGo_accepted (by rw [hprof]; exact hok) (by rw [hprof]; exact hpoll)]
    rfl

/-! ## SP_WRITE -/

section
variable {r : Run} {s u : State} {b : Nat} {d rx : List Byte}

/-- A payload at `A0.TA` completes its window, in ARG0's terms (rule R243). -/
theorem completesWindow_argTA (r : Run) (n : Nat) :
    completesWindow r.argTA n = decide (r.a0.toNat % 32 + n = 32) := by
  rw [completesWindow, woff_argTA, Bool.eq_iff_iff]
  simp

/-- The write-scratchpad frame in ARG0's terms (rule R121). -/
theorem writeFrame_argTA (q : Prof) (r : Run) (d : List Byte) : writeFrame q r.argTA d =
    [q.cmdWriteSP, r.a0.extractLsb' 0 8, r.a0.extractLsb' 8 8] ++ d ++
      (if r.a0.toNat % 32 + d.length = 32 then [0xFF, 0xFF] else []) := by
  simp [writeFrame, completesWindow_argTA, ffs]

theorem spWriteGo_ok (h : ¬ r.a0.toNat % 32 + d.length = 32 ∨ crc16Fn u.cfg 0 rx = 0xB001) :
    spWriteGo b r (.write (.frame d)) (.received rx) u =
      finish .ok (count d.length) { u with spValid := false, spTA := r.argTA } := by
  refine if_neg ?_
  rw [completesWindow_argTA, Bool.and_eq_true, decide_eq_true_iff, Bool.not_eq_true', crcOk_eq_false_iff]
  exact fun hbad => h.elim (· hbad.1) hbad.2

theorem spWriteGo_badCrc (hfull : r.a0.toNat % 32 + d.length = 32) (hcrc : crc16Fn u.cfg 0 rx ≠ 0xB001) :
    spWriteGo b r (.write (.frame d)) (.received rx) u =
      raise .integrityError (count d.length) (forceVerify b { u with spValid := false, spTA := r.argTA }) := by
  refine if_pos ?_
  rw [completesWindow_argTA, Bool.and_eq_true, decide_eq_true_iff, Bool.not_eq_true', crcOk_eq_false_iff]
  exact ⟨hfull, hcrc⟩

/-- SP_WRITE up to the end of its frame (rule R244). -/
theorem run_spWrite_frame (hsel : selecting (.spWrite b) r s (.write (.sel d))) (hp : s.nextPresence = true) :
    let tx := writeFrame (s.prof b) r.argTA d
    ∃ p, controllerRun (.spWrite b) (selectSteps s + tx.length) s =
      .next (spWriteGo b r (.write (.frame d)) (.received (answers tx.length (selectedFor b s)))
        (stand r p (busBytes tx (selectedFor b s)))) := by
  obtain ⟨p, h⟩ := run_selecting hsel hp
  simp only [goOf, spWriteGo, afterSelect_selected, prof_stand, selectedFor_prof, stand_stand] at h
  exact run_then_xfer h rfl (List.cons_ne_nil _ _)

end

/-- Settles O32: the frame, then the CRC of a completed window. -/
theorem writeStagesOneWindow : Obligations.WriteStagesOneWindow := by
  intro s r b d hstart hb hp q len off n hmode hta hlen hfit hread full tx sel sent v
  have hsel : selecting (.spWrite b) r s (.write (.sel d)) :=
    selecting_of_starts hstart ⟨bank_exists_of_eq rfl hb, hmode, hta, hlen, hfit, d, hread, rfl⟩
  have hcount : d.length = n := (Memory.read_eq_some.mp hread).1
  have htx : writeFrame q r.argTA d = tx := by rw [writeFrame_argTA, hcount]
  obtain ⟨p, h⟩ := run_spWrite_frame hsel hp
  rw [htx] at h
  have hcfg : (stand r p (busBytes tx sel)).cfg = s.cfg := by simp [sel]
  refine ⟨fun hgood => ?_, fun hfull hcrc => ?_⟩
  · rw [h, spWriteGo_ok (by rw [hcount, hcfg]; exact hgood), hcount]
    rfl
  · rw [h, spWriteGo_badCrc (by rw [hcount]; exact hfull) (by rw [hcfg]; exact hcrc), hcount]
    rfl

/-! ## SP_READ -/

section
variable {r : Run} {s u : State} {b : Nat} {h t : List Byte}

theorem spReadEnd_ok (hcrc : crc16Fn u.cfg 0 (h ++ t) = 0xB001) :
    spReadEnd b r h t u = finish .ok (count (readLen (h.getD 1 0)))
      (memWrite r.argOff (t.take (readLen (h.getD 1 0)))
        { u with spTA := headerTA h, spES := h.getD 3 0, spValid := true }) := by
  have hok : crcOk u.cfg (h ++ t) = true := (crcOk_iff _ _).mpr hcrc
  simp [spReadEnd, hok, sub]

theorem spReadEnd_badCrc (hcrc : crc16Fn u.cfg 0 (h ++ t) ≠ 0xB001) :
    spReadEnd b r h t u = finish .ok 0xFFFFFFFF (forceVerify b (dropScratchpad u)) := by
  have hbad : crcOk u.cfg (h ++ t) = false := (crcOk_eq_false_iff _ _).mpr hcrc
  simp [spReadEnd, hbad]

theorem spReadEnd_stand (p : Pos) : spReadEnd b r h t (stand r p u) = spReadEnd b r h t u := by
  by_cases hcrc : crc16Fn u.cfg 0 (h ++ t) = 0xB001
  · rw [spReadEnd_ok hcrc, spReadEnd_ok (u := stand r p u) hcrc]
    rfl
  · rw [spReadEnd_badCrc hcrc, spReadEnd_badCrc (u := stand r p u) hcrc]
    rfl

/-- SP_READ up to the end of its second transfer (rule R246): the header, then the data and CRC bytes it asks for. -/
theorem run_spRead_frames (hsel : selecting (.spRead b) r s (.read .sel)) (hp : s.nextPresence = true) :
    let sel := selectedFor b s
    let h := answers 4 sel
    let n := readLen (h.getD 1 0) + 2
    let mid := busBytes (readHeaderFrame (s.prof b)) sel
    controllerRun (.spRead b) (selectSteps s + 4 + n) s =
      .next (spReadEnd b r h (answers n mid) (busBytes (ffs n) mid)) := by
  intro sel h n mid
  obtain ⟨p, hrun⟩ := run_selecting hsel hp
  simp only [goOf, spReadGo, afterSelect_selected, prof_stand, selectedFor_prof, stand_stand] at hrun
  obtain ⟨p, hrun⟩ := run_then_xfer hrun rfl (List.cons_ne_nil _ _)
  simp only [goOf, spReadGo, stand_stand] at hrun
  obtain ⟨p, hrun⟩ := run_then_xfer (tx := readDataFrame h) hrun rfl (List.cons_ne_nil _ _)
  have hlen : (readDataFrame h).length = n := List.length_replicate
  rw [hlen] at hrun
  exact hrun.trans (congrArg _ (spReadEnd_stand p))

end

/-- Settles O33: by the CRC of the header and data bytes together. -/
theorem readBackReturnsTheRestOfTheWindow : Obligations.ReadBackReturnsTheRestOfTheWindow := by
  intro s r b hstart hb hp q off hmode hfit sel h m mid t sent
  have hsel : selecting (.spRead b) r s (.read .sel) :=
    selecting_of_starts hstart ⟨bank_exists_of_eq rfl hb, hmode, hfit, rfl⟩
  have hrun : controllerRun (.spRead b) (selectSteps s + 4 + (m + 2)) s = .next (spReadEnd b r h t sent) :=
    run_spRead_frames hsel hp
  have hcfg : sent.cfg = s.cfg := by simp [sent, mid, sel]
  refine ⟨fun hcrc => ?_, fun hcrc => ?_⟩
  · rw [hrun, spReadEnd_ok (by rw [hcfg]; exact hcrc)]
    rfl
  · rw [hrun, spReadEnd_badCrc (by rw [hcfg]; exact hcrc)]
    rfl

/-! ## `sendCopy` and the poll after it -/

/-- `mk` are the places of a `sendCopy` for bank `b` in command `i`, and `done` is what follows the poll (rule R247). -/
structure SendsCopy (i : Instr) (r : Run) (b : Nat) (mk : CopyAt → Label) (done : Option Byte → State → State) :
    Prop where
  owned : ∀ c, owns i (mk c) = true
  prim : ∀ c, (mk c).prim = c.prim
  go : ∀ c ret t, goOf i r (mk c) ret t = copyGo r b mk done c ret t

theorem sendsCopy_spCopy (r : Run) (b : Nat) : SendsCopy (.spCopy b) r b (fun c => .copy (.send c)) pollEnd :=
  ⟨fun _ => rfl, fun _ => rfl, fun _ _ _ => rfl⟩

theorem sendsCopy_spCopyMac (r : Run) (b : Nat) :
    SendsCopy (.spCopyMac b) r b (fun c => .copyMac (.send c)) (macEnd b) :=
  ⟨fun _ => rfl, fun _ => rfl, fun _ _ _ => rfl⟩

/-- The copy of a staged chunk (rule R282, step 5). -/
theorem sendsCopy_chunk {i : Instr} {b : Nat} (hi : i = .mbWrite b ∨ i = .mbWritePacket b) (r : Run) (w : WriteRun) :
    SendsCopy i r b (fun c => .range w (.copy c)) (chunkPolled r b w) := by
  obtain rfl | rfl := hi <;> exact ⟨fun _ => rfl, fun _ => rfl, fun _ _ _ => rfl⟩

section
variable {i : Instr} {r : Run} {b m left : Nat} {mk : CopyAt → Label} {done : Option Byte → State → State}
  {s t u : State} {c : CopyAt} {p : Pos} {tx body : List Byte} {last : Byte}

theorem SendsCopy.standsAt_xfer (h : SendsCopy i r b mk done) (hc : c.prim = .xfer) (tx rx : List Byte) :
    standsAt i (.xfer tx rx (mk c)) = true := by
  simp [standsAt, h.owned, h.prim, hc]

theorem SendsCopy.standsAt_power (h : SendsCopy i r b mk done) : standsAt i (.power (mk .power)) = true := by
  simp [standsAt, h.owned, h.prim, CopyAt.prim]

theorem SendsCopy.standsAt_poll (h : SendsCopy i r b mk done) (left : Nat) :
    standsAt i (.poll left (mk .poll)) = true := by
  simp [standsAt, h.owned, h.prim, CopyAt.prim]

/-- Without strong pull-up the frame is sent whole, and the poll begins (rule R247). -/
theorem SendsCopy.run_plain (h : SendsCopy i r b mk done)
    (hrun : controllerRun i m s = .next (sendCopy r b mk tx (stand r p u)))
    (hplain : (u.prof b).strongPullupOnCopy = false) (htx : tx ≠ []) :
    ∃ q, controllerRun i (m + tx.length) s =
      .next (startPoll r (mk .poll) (done none) (stand r q (busBytes tx u))) := by
  rw [sendCopy_plain (s := stand r p u) hplain, stand_stand] at hrun
  obtain ⟨q, hq⟩ := run_then_xfer hrun (h.standsAt_xfer rfl [] []) htx
  exact ⟨q, by rw [hq, h.go]; rfl⟩

/-- With strong pull-up it is armed before the last byte of the frame, and the command stands at `PowerWait` after it
(rule R247). -/
theorem SendsCopy.run_strong (h : SendsCopy i r b mk done)
    (hrun : controllerRun i m s = .next (sendCopy r b mk (body ++ [last]) (stand r p u)))
    (hstrong : (u.prof b).strongPullupOnCopy = true) (hbody : body ≠ []) :
    controllerRun i (m + (body.length + 1)) s =
      .next (stand r (.power (mk .power)) (busByte last (armForCopy b (busBytes body u)))) := by
  rw [sendCopy_strong (s := stand r p u) hstrong, stand_stand, List.dropLast_concat, List.getLastD_concat] at hrun
  obtain ⟨q, hq⟩ := run_then_xfer hrun (h.standsAt_xfer rfl [] []) hbody
  rw [h.go, copyGo, armForCopy_stand, stand_stand] at hq
  obtain ⟨q', hq'⟩ := run_then_xfer hq (h.standsAt_xfer rfl [] []) (List.cons_ne_nil _ _)
  rw [h.go, copyGo, stand_stand] at hq'
  exact hq'

theorem SendsCopy.exec_held (h : SendsCopy i r b mk done) (hseq : t.seq = .run { r with pos := .power (mk .power) })
    (hon : t.pwrActive = true) : exec i t = .next t := by
  rw [exec_go hseq nofun h.standsAt_power]
  exact congrArg _ (if_pos hon)

/-- The pull-up is off: the poll begins (rules R199, R240). -/
theorem SendsCopy.exec_powered (h : SendsCopy i r b mk done)
    (hseq : t.seq = .run { r with pos := .power (mk .power) }) (hoff : t.pwrActive = false) :
    exec i t = .next (startPoll r (mk .poll) (done none) t) := by
  rw [exec_go hseq nofun h.standsAt_power]
  have hadvance (go : Label → Ret → State → State) (r : Run) :
      advance r go (.power (mk .power)) t = go (mk .power) .powered t := if_neg (ne_true_of_eq_false hoff)
  rw [hadvance, goOf_pos, h.go]
  rfl

/-- A step of the poll with the byte it gets (rule R240). -/
theorem SendsCopy.exec_polling (h : SendsCopy i r b mk done)
    (hseq : t.seq = .run { r with pos := .poll left (mk .poll) }) :
    (t.nextByte ≠ 0xFF → exec i t = .next (done (some t.nextByte) (busByte 0xFF t))) ∧
    (t.nextByte = 0xFF → left ≤ 1 → exec i t = .next (done none (busByte 0xFF t))) ∧
    (t.nextByte = 0xFF → 1 < left → exec i t = .next (stand r (.poll (left - 1) (mk .poll)) (busByte 0xFF t))) := by
  have hexec := exec_go hseq nofun (h.standsAt_poll left)
  refine ⟨fun hv => ?_, fun hv hleft => ?_, fun hv hleft => ?_⟩
  · rw [hexec, advance_poll_hit hv, goOf_pos, h.go]
    rfl
  · rw [hexec, advance_poll_last hv hleft, goOf_pos, h.go]
    rfl
  · rw [hexec, advance_poll_more hv hleft]
    rfl

end

/-! ## SP_COPY and SP_COPY_MAC -/

section
variable {i : Instr} {r : Run} {b m : Nat} {mk : CopyAt → Label} {done : Option Byte → State → State} {s : State}
  {p : Pos} {mac : List Byte}

/-- The copy-scratchpad frame of a read-back (rules R123, R124). -/
theorem copyFrame_eq (q : Prof) (ta : Half) (es : Byte) (mac : List Byte) :
    copyFrame q ta es mac = [q.cmdCopySP, ta.extractLsb' 0 8, ta.extractLsb' 8 8, es] ++ mac := rfl

/-- The read-back is valid after a select exactly when it is one of the device selected (rule R150). -/
theorem selectedFor_spValid_iff (b : Nat) (s : State) :
    (selectedFor b s).spValid = true ↔ s.spValid = true ∧ s.lastSel = some s.romid := by
  simp

/-- A read-back of another device is refused after the select (rule R248). -/
theorem copySelected_otherDevice (hother : s.lastSel ≠ some s.romid) :
    copySelected r b mk mac (stand r p (selectedFor b s)) = raise .protocolError 0 (selectedFor b s) :=
  if_neg (mt (selectedFor_spValid_iff b s).mp (hother ·.2))

/-- The read-back of the device selected is echoed and consumed (rule R248). -/
theorem copySelected_sameDevice (hvalid : s.spValid = true) (hsame : s.lastSel = some s.romid) :
    copySelected r b mk mac (stand r p (selectedFor b s)) =
      sendCopy r b mk (copyFrame (s.prof b) s.spTA s.spES mac) (stand r p (dropScratchpad (selectedFor b s))) := by
  have hkept : (stand r p (selectedFor b s)).spValid = true := (selectedFor_spValid_iff b s).mpr ⟨hvalid, hsame⟩
  rw [copySelected, if_pos hkept]
  simp

/-- The copy of the read-back of the device selected, without strong pull-up: the frame, and the ends of the poll
(rules R247, R248). -/
theorem SendsCopy.pollEnds_readBack (h : SendsCopy i r b mk done)
    (hrun : controllerRun i m s = .next (copySelected r b mk mac (stand r p (selectedFor b s))))
    (hvalid : s.spValid = true) (hsame : s.lastSel = some s.romid) (hplain : (s.prof b).strongPullupOnCopy = false)
    (hend : ∀ v q t, done v (stand r q t) = done v t) :
    PollEnds i (m + (4 + mac.length)) s
      (busBytes (copyFrame (s.prof b) s.spTA s.spES mac) (dropScratchpad (selectedFor b s))) s.pollLimit done := by
  rw [copySelected_sameDevice hvalid hsame] at hrun
  have hprof : (dropScratchpad (selectedFor b s)).prof b = s.prof b := selectedFor_prof b b s
  obtain ⟨q, hpoll⟩ := h.run_plain hrun (by rw [hprof]; exact hplain) (List.cons_ne_nil _ _)
  have hlen : (copyFrame (s.prof b) s.spTA s.spES mac).length = 4 + mac.length := List.length_append
  have hlimit : (busBytes (copyFrame (s.prof b) s.spTA s.spES mac) (dropScratchpad (selectedFor b s))).pollLimit =
      s.pollLimit := by simp
  rw [hlen] at hpoll
  rw [← hlimit]
  exact pollEnds_of_startPoll hpoll (h.standsAt_poll 0) (fun _ _ => h.go .poll _ _) hend

/-- SP_COPY up to the end of its select (rule R248). -/
theorem run_spCopy_select (hsel : selecting (.spCopy b) r s (.copy (.sel mac))) (hp : s.nextPresence = true) :
    ∃ p, controllerRun (.spCopy b) (selectSteps s) s =
      .next (copySelected r b (fun c => .copy (.send c)) [] (stand r p (selectedFor b s))) := by
  obtain ⟨p, h⟩ := run_selecting hsel hp
  exact ⟨p, by simp only [h, goOf, spCopyGo, afterSelect_selected]⟩

/-- SP_COPY_MAC up to the end of its select (rule R250). -/
theorem run_spCopyMac_select (hsel : selecting (.spCopyMac b) r s (.copyMac (.sel mac))) (hp : s.nextPresence = true) :
    ∃ p, controllerRun (.spCopyMac b) (selectSteps s) s =
      .next (copySelected r b (fun c => .copyMac (.send c)) mac (stand r p (selectedFor b s))) := by
  obtain ⟨p, h⟩ := run_selecting hsel hp
  exact ⟨p, by simp only [h, goOf, spCopyMacGo, afterSelect_selected]⟩

theorem pollEnd_stand (v : Option Byte) (p : Pos) (s : State) : pollEnd v (stand r p s) = pollEnd v s := by
  cases v <;> rfl

theorem macEnd_stand (v : Option Byte) (p : Pos) (s : State) : macEnd b v (stand r p s) = macEnd b v s := by
  cases v with
  | none => rfl
  | some v => simp [macEnd]

theorem macEnd_ok {v : Byte} (hv : v = 0xAA ∨ v = 0x55) (s : State) :
    macEnd b (some v) s = finish .ok (pollResult v) s := if_pos hv

theorem macEnd_refused {v : Byte} (haa : v ≠ 0xAA) (h55 : v ≠ 0x55) (s : State) :
    macEnd b (some v) s = raise .protocolError (zext v) (forceVerify b s) := if_neg (not_or.mpr ⟨haa, h55⟩)

end

/-- Settles O34: the select, then the frame and the poll. -/
theorem copyEchoesTheReadBack : Obligations.CopyEchoesTheReadBack := by
  intro s r b hstart hb hp q hmode hmac hvalid sel
  have hsel : selecting (.spCopy b) r s (.copy (.sel [])) :=
    selecting_of_starts hstart ⟨bank_exists_of_eq rfl hb, hmode, hmac, hvalid, rfl⟩
  obtain ⟨p, hrun⟩ := run_spCopy_select hsel hp
  refine ⟨fun hother => ?_, fun hsame hplain => ?_⟩
  · rw [hrun, copySelected_otherDevice hother]
  · obtain ⟨hseen, hquiet, hzero⟩ :=
      (sendsCopy_spCopy r b).pollEnds_readBack hrun hvalid hsame hplain pollEnd_stand
    exact ⟨hseen, hquiet, hzero⟩

/-- Settles O35: as SP_COPY, with the poll's byte classified. -/
theorem macCopyClassifiesTheStatus : Obligations.MacCopyClassifiesTheStatus := by
  intro s r b mac hstart hb hp q off hmode hmac hfit hvalid hread sel
  have hsel : selecting (.spCopyMac b) r s (.copyMac (.sel mac)) :=
    selecting_of_starts hstart ⟨bank_exists_of_eq rfl hb, hmode, hmac, hfit, hvalid, mac, hread, rfl⟩
  obtain ⟨p, hrun⟩ := run_spCopyMac_select hsel hp
  refine ⟨fun hother => ?_, fun hsame hplain => ?_⟩
  · rw [hrun, copySelected_otherDevice hother]
  · have hcount : mac.length = 20 := (Memory.read_eq_some.mp hread).1
    have hends := (sendsCopy_spCopyMac r b).pollEnds_readBack hrun hvalid hsame hplain macEnd_stand
    rw [hcount] at hends
    obtain ⟨hseen, hquiet, hzero⟩ := hends
    refine ⟨fun m hm ha => ⟨fun hv => ?_, fun haa h55 hff => ?_⟩, hquiet, hzero⟩
    · have hne {v : Byte} (hv : v = 0xAA ∨ v = 0x55) : v ≠ 0xFF := by rcases hv with rfl | rfl <;> decide
      exact (hseen m hm ha (hne hv)).trans (congrArg _ (macEnd_ok hv _))
    · exact (hseen m hm ha hff).trans (congrArg _ (macEnd_refused haa h55 _))

/-! ## The copy of a staged chunk -/

section
variable {i : Instr} {r : Run} {b : Nat} {s : State} {w : WriteRun} {es : Byte}

/-- The copy of a chunk from its select on: its own read-back, which is consumed (rule R282, step 5). -/
theorem run_chunkCopy_select (hi : i = .mbWrite b ∨ i = .mbWritePacket b)
    (hsel : selecting i r s (.range w (.copySel es))) (hp : s.nextPresence = true) :
    ∃ p, controllerRun i (selectSteps s) s =
      .next (sendCopy r b (fun c => .range w (.copy c)) (copyFrame (s.prof b) (w.ta (s.desc b)) es [])
        (stand r p (dropScratchpad (selectedFor b s)))) := by
  obtain ⟨p, h⟩ := run_selecting hsel hp
  have hgo : goOf i r = rangeGo b r := by obtain rfl | rfl := hi <;> rfl
  refine ⟨p, ?_⟩
  simp only [h, hgo, rangeGo, afterSelect_selected, prof_stand, desc_stand, selectedFor_prof, selectedFor_desc,
    dropScratchpad_stand]

/-- The end of a chunk: the end of the command, or the select of the next chunk (rule R288). -/
theorem nextChunk_eq (r : Run) (b : Nat) (w : WriteRun) (s : State) : nextChunk r b w s =
    if w.d.length ≤ w.done then finish .ok w.result s
    else stand r (.reset (.range w (chunkStart (s.prof b)))) s := by
  unfold nextChunk chunkStart
  cases (s.prof b).writeMode with
  | direct => rfl
  | staged => cases (s.prof b).eraseRequired <;> rfl

theorem commitPages_prof (b x n c : Nat) (s : State) : (commitPages b x n s).prof c = s.prof c := by
  unfold commitPages
  split <;> rfl

/-- A staged chunk has completed: its bytes are counted and its pages recorded (rule R288). -/
theorem chunkDone_staged (hstaged : (s.prof b).writeMode = .staged) (r : Run) (w : WriteRun) :
    let n := min (w.d.length - w.done) (room (w.ta (s.desc b)))
    chunkDone r b w s =
      if w.d.length ≤ w.done + n then finish .ok w.result (commitPages b (w.x + w.done) n s)
      else stand r (.reset (.range { w with done := w.done + n } (chunkStart (s.prof b))))
        (commitPages b (w.x + w.done) n s) := by
  rw [chunkDone, hstaged, nextChunk_eq, commitPages_prof]
  rfl

end

/-! ## The copy with strong pull-up -/

/-- Settles O36: every kind of copy makes the same `sendCopy`; its run up to `PowerWait`, then the step there and a step of
the poll. -/
theorem copyPowersTheDevice : Obligations.CopyPowersTheDevice := by
  intro i s r b k mac body last es ta mk ended hsel hp hstrong q readBack ok hkind hframe armed powered
  obtain ⟨done, hcopy, ⟨p, hrun⟩, hnone, hsome⟩ : ∃ done, SendsCopy i r b mk done ∧
      (∃ p, controllerRun i (selectSteps s) s =
        .next (sendCopy r b mk (copyFrame q ta es mac) (stand r p (dropScratchpad (selectedFor b s))))) ∧
      done none = ended none ∧ ∀ v t, t.cfg = s.cfg → done (some v) t = ended (some v) t := by
    obtain ⟨rfl, rfl, rfl, ⟨hvalid, hsame, rfl, rfl⟩, rfl, rfl⟩ | ⟨rfl, rfl, ⟨hvalid, hsame, rfl, rfl⟩, rfl, rfl⟩ |
      ⟨w, hi, hstaged, rfl, rfl, rfl, rfl, rfl⟩ := hkind
    · obtain ⟨p, hrun⟩ := run_spCopy_select hsel hp
      rw [copySelected_sameDevice hvalid hsame] at hrun
      exact ⟨pollEnd, sendsCopy_spCopy r b, ⟨p, hrun⟩, rfl, fun _ _ _ => rfl⟩
    · obtain ⟨p, hrun⟩ := run_spCopyMac_select hsel hp
      rw [copySelected_sameDevice hvalid hsame] at hrun
      exact ⟨macEnd b, sendsCopy_spCopyMac r b, ⟨p, hrun⟩, rfl, fun _ _ _ => rfl⟩
    · refine ⟨chunkPolled r b w, sendsCopy_chunk hi r w, run_chunkCopy_select hi hsel hp, rfl, fun v t hcfg => ?_⟩
      have hprof : t.prof b = q := by rw [State.prof, hcfg]; rfl
      have hdesc : t.desc b = s.desc b := by rw [State.desc, hcfg]; rfl
      refine (chunkDone_staged (by rw [hprof]; exact hstaged) r w).trans ?_
      rw [hprof, hdesc]
      rfl
  have hprof : (dropScratchpad (selectedFor b s)).prof b = q := selectedFor_prof b b s
  have hbody : body ≠ [] := by
    rintro rfl
    simp at hframe
  have harmed : armForCopy b (busBytes body (dropScratchpad (selectedFor b s))) = armed := by
    rw [armForCopy, busBytes_prof, hprof]
    rfl
  have hon : powered.pwrActive = true := by simp [powered, armed]
  refine ⟨hon, ?_, fun t hseq => ⟨hcopy.exec_held hseq, fun hoff hlimit => ?_, fun hoff hzero => ?_⟩,
    fun t left hseq hcfg => ?_⟩
  · rw [copyFrame_eq, ← hframe] at hrun
    have hpowered := hcopy.run_strong hrun (by rw [hprof]; exact hstrong) hbody
    rwa [harmed] at hpowered
  · rw [hcopy.exec_powered hseq hoff, startPoll_pos hlimit]
  · rw [hcopy.exec_powered hseq hoff, startPoll_zero hzero, hnone]
  · obtain ⟨hseen, hquiet, hmore⟩ := hcopy.exec_polling hseq
    refine ⟨fun hv => ?_, fun hv hleft => ?_, hmore⟩
    · rw [hseen hv, hsome _ _ (by simpa using hcfg)]
    · rw [hquiet hv hleft, hnone]

end Sys2Proof.Machine

/-! PROOFS. The memory-bank commands: their checks and the protection of pages; the reads; then a memory-bank write, each
step of a chunk said once from its select on, and the runs of whole writes made of these. -/

namespace Sys2Proof.Machine

/-! ## The checks -/

section
variable {r : Run} {s : State} {b : Nat} {rc xi : Bool}

theorem mbReadStart_outOfRange (hb : b < s.cfg.banks.length)
    (hout : (s.desc b).size < r.argA0 + r.argLen ∨ Config.bufSize < r.argOff + r.argLen) :
    mbReadStart b rc r s = .next (raise .rangeError 0 s) := by
  rw [mbReadStart, bankChecked_exists hb]
  by_cases hsize : (s.desc b).size < r.argA0 + r.argLen
  · rw [if_pos hsize]
  · rw [if_neg hsize, if_pos (hout.resolve_left hsize)]

theorem mbWriteStart_unsupported (hb : b < s.cfg.banks.length) (hmac : needsMac (s.prof b) = true) :
    mbWriteStart b r s = .next (raise .unsupportedOperation 0 s) := by
  rw [mbWriteStart, bankChecked_exists hb, if_pos hmac]

theorem mbWriteStart_outOfRange (hb : b < s.cfg.banks.length) (hmac : needsMac (s.prof b) = false)
    (hout : (s.desc b).size < r.argA0 + r.argLen ∨ Config.bufSize < r.argOff + r.argLen) :
    mbWriteStart b r s = .next (raise .rangeError 0 s) := by
  rw [mbWriteStart, bankChecked_exists hb, if_neg (ne_true_of_eq_false hmac)]
  by_cases hsize : (s.desc b).size < r.argA0 + r.argLen
  · rw [if_pos hsize]
  · rw [if_neg hsize, if_pos (hout.resolve_left hsize)]

theorem mbWriteStart_empty (hb : b < s.cfg.banks.length) (hmac : needsMac (s.prof b) = false)
    (hsize : r.argA0 + r.argLen ≤ (s.desc b).size) (hfit : r.argOff + r.argLen ≤ Config.bufSize)
    (hlen : r.argLen = 0) : mbWriteStart b r s = .next (finish .ok 0 s) := by
  rw [mbWriteStart, bankChecked_exists hb, if_neg (ne_true_of_eq_false hmac), if_neg (Nat.not_lt.mpr hsize),
    if_neg (Nat.not_lt.mpr hfit), if_pos hlen]

theorem mbWriteStart_protected (hb : b < s.cfg.banks.length) (hmac : needsMac (s.prof b) = false)
    (hsize : r.argA0 + r.argLen ≤ (s.desc b).size) (hfit : r.argOff + r.argLen ≤ Config.bufSize)
    (hlen : r.argLen ≠ 0) (hprot : isProtected b r.argA0 r.argLen s = true) :
    mbWriteStart b r s = .next (raise .protectionError 0 s) := by
  rw [mbWriteStart, bankChecked_exists hb, if_neg (ne_true_of_eq_false hmac), if_neg (Nat.not_lt.mpr hsize),
    if_neg (Nat.not_lt.mpr hfit), if_neg hlen, if_pos hprot]

theorem mbWritePacketStart_unsupported (hb : b < s.cfg.banks.length) (hmac : needsMac (s.prof b) = true) :
    mbWritePacketStart b r s = .next (raise .unsupportedOperation 0 s) := by
  rw [mbWritePacketStart, bankChecked_exists hb, if_pos hmac]

/-- The three range checks of MB_WRITE_PACKET end alike (rule R292). -/
theorem mbWritePacketStart_outOfRange (hb : b < s.cfg.banks.length) (hmac : needsMac (s.prof b) = false)
    (hout : (s.desc b).numberPages ≤ r.argA0 ∨ (s.desc b).maxPacketDataLength < r.argLen ∨
      Config.bufSize < r.argOff + r.argLen) : mbWritePacketStart b r s = .next (raise .rangeError 0 s) := by
  rw [mbWritePacketStart, bankChecked_exists hb, if_neg (ne_true_of_eq_false hmac)]
  by_cases hpage : (s.desc b).numberPages ≤ r.argA0
  · rw [if_pos hpage]
  rw [if_neg hpage]
  by_cases hlen : (s.desc b).maxPacketDataLength < r.argLen
  · rw [if_pos hlen]
  · rw [if_neg hlen, if_pos ((hout.resolve_left hpage).resolve_left hlen)]

theorem mbWritePacketStart_protected (hb : b < s.cfg.banks.length) (hmac : needsMac (s.prof b) = false)
    (hpage : r.argA0 < (s.desc b).numberPages) (hlen : r.argLen ≤ (s.desc b).maxPacketDataLength)
    (hfit : r.argOff + r.argLen ≤ Config.bufSize)
    (hprot : isProtected b (r.argA0 * (s.desc b).pageLength) (r.argLen + 3) s = true) :
    mbWritePacketStart b r s = .next (raise .protectionError 0 s) := by
  rw [mbWritePacketStart, bankChecked_exists hb, if_neg (ne_true_of_eq_false hmac), if_neg (Nat.not_le.mpr hpage),
    if_neg (Nat.not_lt.mpr hlen), if_neg (Nat.not_lt.mpr hfit), if_pos hprot]

/-- The two checks of what the bank supports end alike (rule R286). -/
theorem mbReadPageCrcStart_unsupported (hb : b < s.cfg.banks.length)
    (hno : (s.desc b).hasPageAutoCRC = false ∨ (xi = true ∧ (s.desc b).hasExtraInfo = false)) :
    mbReadPageCrcStart b rc xi r s = .next (raise .unsupportedOperation 0 s) := by
  rw [mbReadPageCrcStart, bankChecked_exists hb]
  by_cases hauto : (s.desc b).hasPageAutoCRC = false
  · rw [if_pos hauto]
  · rw [if_neg hauto, if_pos (hno.resolve_left hauto)]

/-- The extra info asked for is there. -/
theorem extraInfo_not_missing (hextra : xi = false ∨ (s.desc b).hasExtraInfo = true) :
    ¬ (xi = true ∧ (s.desc b).hasExtraInfo = false) := by
  rintro ⟨hxi, hnone⟩
  simp [hxi, hnone] at hextra

theorem mbReadPageCrcStart_outOfRange (hb : b < s.cfg.banks.length) (hauto : (s.desc b).hasPageAutoCRC = true)
    (hextra : xi = false ∨ (s.desc b).hasExtraInfo = true)
    (hout : (s.desc b).numberPages ≤ r.argA0 ∨
      Config.bufSize < r.argOff + (s.desc b).pageLength + storedExtra (s.desc b) xi) :
    mbReadPageCrcStart b rc xi r s = .next (raise .rangeError 0 s) := by
  rw [mbReadPageCrcStart, bankChecked_exists hb, if_neg (by simp [hauto]), if_neg (extraInfo_not_missing hextra)]
  by_cases hpage : (s.desc b).numberPages ≤ r.argA0
  · rw [if_pos hpage]
  · rw [if_neg hpage, if_pos (hout.resolve_left hpage)]

theorem mbReadPacketStart_outOfRange (hb : b < s.cfg.banks.length)
    (hout : (s.desc b).numberPages ≤ r.argA0 ∨ Config.bufSize < r.argOff + (s.desc b).maxPacketDataLength) :
    mbReadPacketStart b r s = .next (raise .rangeError 0 s) := by
  rw [mbReadPacketStart, bankChecked_exists hb]
  by_cases hpage : (s.desc b).numberPages ≤ r.argA0
  · rw [if_pos hpage]
  · rw [if_neg hpage, if_pos (hout.resolve_left hpage)]

/-- The extra info MB_READ_PAGE_CRC stores, as its range check writes it (rule R286). -/
theorem storedExtra_eq (d : Desc) (xi : Bool) :
    storedExtra d xi = if xi && d.hasExtraInfo then d.extraInfoLength else 0 := by
  cases xi <;> simp [storedExtra, extraLen]

theorem needsMac_iff {p : Prof} : needsMac p = true ↔ p.writeMode = .staged ∧ p.macCopy = true := by
  simp [needsMac]

end

/-- Settles O51, check by check. -/
theorem memoryBankChecks : Obligations.MemoryBankChecks := by
  intro s r b rc xi hstart hb p d len off xo refused
  have hrefused {i : Instr} {e : ErrCode} (hi : startOf i r s = .next (raise e 0 s)) : refused e i :=
    (exec_start i hstart).trans hi
  refine ⟨?_, fun hmode => ⟨?_, ?_⟩, fun hmode => ⟨?_, ?_, ?_⟩, ?_, ?_, ?_⟩
  · exact fun hout => hrefused (mbReadStart_outOfRange hb hout)
  · exact hrefused (mbWriteStart_unsupported hb (needsMac_iff.mpr hmode))
  · exact hrefused (mbWritePacketStart_unsupported hb (needsMac_iff.mpr hmode))
  · exact fun hout => hrefused (mbWriteStart_outOfRange hb (needsMac_eq_false hmode) hout)
  · exact fun hout => hrefused (mbWritePacketStart_outOfRange hb (needsMac_eq_false hmode) hout)
  · intro hlen hsize hoff
    have hempty : r.argLen = 0 := hlen
    refine (exec_start _ hstart).trans (mbWriteStart_empty hb (needsMac_eq_false hmode) ?_ ?_ hempty) <;> rwa [hempty]
  · exact fun hno => hrefused (mbReadPageCrcStart_unsupported hb hno)
  · intro hauto hextra hout
    refine hrefused (mbReadPageCrcStart_outOfRange hb hauto hextra ?_)
    rwa [storedExtra_eq]
  · exact fun hout => hrefused (mbReadPacketStart_outOfRange hb hout)

/-! ## Protection and the record of a chunk -/

/-- A range that touches a protected page is protected (rule R284). -/
theorem isProtected_of_page {s : State} {b x n page : Nat} (hn : 0 < n)
    (hprot : (s.bankState b).readOnly = true ∨ page ∈ (s.bankState b).pageLocked ∨
      ((s.desc b).writeOnce = true ∧ page ∈ (s.bankState b).pageCommitted))
    (hfrom : x / (s.desc b).pageLength ≤ page) (hto : page ≤ (x + n - 1) / (s.desc b).pageLength) :
    isProtected b x n s = true :=
  isProtected_iff.mpr ⟨page, (mem_pagesTouched _ x hn).mpr ⟨hfrom, hto⟩, hprot⟩

/-- Settles O52: the range of each command touches the page. -/
theorem protectedPagesAreNotWritten : Obligations.ProtectedPagesAreNotWritten := by
  intro s r b page hstart hb p d len off first hmode hfit hprot
  have hmac := needsMac_eq_false hmode
  refine ⟨fun hlen hsize hfrom hto => ?_, fun hpage hlen hfrom hto => ?_⟩
  · exact (exec_start (.mbWrite b) hstart).trans
      (mbWriteStart_protected hb hmac hsize hfit hlen.ne' (isProtected_of_page hlen hprot hfrom hto))
  · exact (exec_start (.mbWritePacket b) hstart).trans
      (mbWritePacketStart_protected hb hmac hpage hlen hfit
        (isProtected_of_page (Nat.succ_pos _) hprot hfrom hto))

/-- A completed chunk of a write-once bank adds the pages it touched to those recorded (rule R288). -/
theorem commitPages_writeOnce {s : State} {b : Nat} (honce : (s.desc b).writeOnce = true) (x n : Nat) :
    commitPages b x n s = setBank b (fun bs =>
      { bs with pageCommitted := (pagesTouched (s.desc b) x n).foldl (fun l p => insertPage p l) bs.pageCommitted }) s :=
  if_pos honce

/-- Settles O43: the record is a write of one field of one bank. -/
theorem onlyWriteOnceBanksRecordPages : Obligations.OnlyWriteOnceBanksRecordPages := by
  intro s b x n hn hb
  refine ⟨fun hnot => if_neg (ne_true_of_eq_false hnot), fun honce => ?_⟩
  rw [commitPages_writeOnce honce]
  refine ⟨rfl, by simp, fun c hc => bankState_setBank_other _ s hc, ?_, fun q => ?_⟩
  · rw [bankState_setBank _ s hb]
  · rw [bankState_setBank _ s hb, mem_foldl_insertPage, mem_pagesTouched _ x hn]

/-! ## Speed verification and write protection -/

section
variable {r : Run} {s : State} {b : Nat}

theorem selecting_mbCheckSpeed (hstart : starts s r) (hb : b < s.cfg.banks.length) :
    selecting (.mbCheckSpeed b) r s .check :=
  selecting_of_starts hstart ⟨bank_exists_of_eq rfl hb, rfl⟩

/-- MB_CHECK_SPEED is the select of its bank (rule R295). -/
theorem run_mbCheckSpeed (hstart : starts s r) (hb : b < s.cfg.banks.length) (hp : s.nextPresence = true) :
    controllerRun (.mbCheckSpeed b) (selectSteps s) s = .next (finish .ok 1 (selectedFor b s)) := by
  obtain ⟨p, hrun⟩ := run_selecting (selecting_mbCheckSpeed hstart hb) hp
  rw [hrun, goOf, mbCheckSpeedGo, afterSelect_selected, finish_stand]

end

/-- Settles O44: the BANK check of O48 and the missed select of O49, and otherwise the one effect of each command. -/
theorem bankStateCommands : Obligations.BankStateCommands := by
  refine ⟨fun b => ⟨rfl, rfl, rfl⟩, fun s r b hstart => ⟨fun i hi hmissing => ?_, fun hb => ⟨?_, ?_, ?_, ?_⟩⟩⟩
  · have hbank : i.bank? = some b := by
      simp only [List.mem_cons, List.not_mem_nil, or_false] at hi
      obtain rfl | rfl | rfl := hi <;> rfl
    exact bankIsCheckedFirst i s r b hstart hbank hmissing
  · exact run_mbCheckSpeed hstart hb
  · intro hp
    obtain ⟨-, hmissed⟩ :=
      noPresenceIsDeviceNotFound _ s r b _ (selecting_mbCheckSpeed hstart hb) rfl hp
    exact hmissed nofun
  · exact (exec_start (.mbForceVerify b) hstart).trans (bankChecked_exists hb _)
  · exact (exec_start (.mbWriteProtect b) hstart).trans (bankChecked_exists hb _)

/-! ## The frame after a select -/

/-- The descriptor of a bank is the configuration's, whatever else of the state has changed. -/
theorem desc_of_cfg {u s : State} (h : u.cfg = s.cfg) (b : Nat) : u.desc b = s.desc b := by
  rw [State.desc, h, State.desc]

theorem prof_of_cfg {u s : State} (h : u.cfg = s.cfg) (b : Nat) : u.prof b = s.prof b := by
  rw [State.prof, h, State.prof]

/-- Command `i` stands, `m` controller steps after `s₀`, at the end of a select sequence that it began in state `s` and that
found a device; it goes on at `k` (rule R150). -/
def Selected (i : Instr) (r : Run) (k : Label) (m : Nat) (s₀ s : State) : Prop :=
  ∃ p, controllerRun i m s₀ = .next (goOf i r k (.selected true) (stand r p (selectedState s)))

section
variable {i : Instr} {r : Run} {k k' : Label} {m : Nat} {s₀ s u : State} {tx : List Byte}

theorem selected_of_selecting (hsel : selecting i r s k) (hp : s.nextPresence = true) :
    Selected i r k (selectSteps s) s s := run_selecting hsel hp

theorem selected_of_run (hrun : controllerRun i m s₀ = .next (stand r (.reset k) s))
    (hk : standsAt i (.reset k) = true) (hp : s.nextPresence = true) :
    Selected i r k (m + selectSteps s) s₀ s := by
  obtain ⟨p, h⟩ := run_select (r := r) hk hp
  exact ⟨p, (controllerRun_add i m _ _ _ hrun).trans h⟩

/-- The transfer of a frame of at least one byte, from state `u` that the select has reached. -/
theorem Selected.run_frame (h : Selected i r k m s₀ s)
    (hgo : ∀ p, goOf i r k (.selected true) (stand r p (selectedState s)) = stand r (.xfer tx [] k') u)
    (hk' : standsAt i (.xfer [] [] k') = true) (htx : tx ≠ []) :
    ∃ p, controllerRun i (m + tx.length) s₀ =
      .next (goOf i r k' (.received (answers tx.length u)) (stand r p (busBytes tx u))) := by
  obtain ⟨p, h⟩ := h
  rw [hgo] at h
  exact run_then_xfer h hk' htx

end

/-! ## MB_READ -/

section
variable {r : Run} {s : State} {b : Nat} {rc : Bool}

theorem rcEff_eq_true (hrc : rc = true) (hverified : (s.bankState b).verified = true) : rcEff b rc s = true := by
  simp [rcEff, hrc, hverified]

theorem sub_zero_answers (n : Nat) (s : State) : sub (answers n s) 0 n = answers n s :=
  List.take_of_length_le (by simp)

theorem mbReadStart_empty (hb : b < s.cfg.banks.length) (hsize : r.argA0 + r.argLen ≤ (s.desc b).size)
    (hfit : r.argOff + r.argLen ≤ Config.bufSize) (hlen : r.argLen = 0) :
    mbReadStart b rc r s = .next (finish .ok 0 s) := by
  rw [mbReadStart, bankChecked_exists hb, if_neg (Nat.not_lt.mpr hsize), if_neg (Nat.not_lt.mpr hfit), if_pos hlen]

/-- With readContinue the first primitive is the first byte of the data (rule R156). -/
theorem mbReadStart_continues (hb : b < s.cfg.banks.length) (hsize : r.argA0 + r.argLen ≤ (s.desc b).size)
    (hfit : r.argOff + r.argLen ≤ Config.bufSize) (hlen : r.argLen ≠ 0) (hrc : rcEff b rc s = true) :
    mbReadStart b rc r s =
      .next (advance r (mbReadGo b r) (.xfer (ffs r.argLen) [] (.mbRead (.frame 0))) s) := by
  rw [mbReadStart, bankChecked_exists hb, if_neg (Nat.not_lt.mpr hsize), if_neg (Nat.not_lt.mpr hfit), if_neg hlen,
    if_pos hrc]

/-- MB_READ on from the last read: the data bytes alone. -/
theorem run_mbRead_continues (hstart : starts s r) (hb : b < s.cfg.banks.length)
    (hsize : r.argA0 + r.argLen ≤ (s.desc b).size) (hfit : r.argOff + r.argLen ≤ Config.bufSize)
    (hlen : r.argLen ≠ 0) (hrc : rcEff b rc s = true) :
    controllerRun (.mbRead b rc) r.argLen s = .next (finish .ok (count r.argLen)
      (memWrite r.argOff (answers r.argLen s) (busBytes (ffs r.argLen) s))) := by
  have hfirst := (exec_start (.mbRead b rc) hstart).trans (mbReadStart_continues hb hsize hfit hlen hrc)
  have hcount : (ffs r.argLen).length = r.argLen := List.length_replicate
  have htx : ffs r.argLen ≠ [] := List.ne_nil_of_length_pos (by omega)
  obtain ⟨p, hrun⟩ := run_xfer_first rfl (stand_start hstart.1 hstart.2) htx hfirst
  rw [hcount, goOf, mbReadGo, sub_zero_answers, memWrite_stand, finish_stand] at hrun
  exact hrun

theorem mbReadGo_selected (p : Pos) :
    mbReadGo b r (.mbRead .sel) (.selected true) (stand r p (selectedState s)) =
      stand r (.xfer (readMemoryFrame (s.prof b) (physical (s.desc b) r.argA0) r.argLen) [] (.mbRead (.frame 3)))
        (selectedFor b s) := by
  simp [mbReadGo]

/-- MB_READ with its select: the read-memory frame, and the answers from the fourth on. -/
theorem run_mbRead_selected (hsel : selecting (.mbRead b rc) r s (.mbRead .sel)) (hp : s.nextPresence = true) :
    let sel := selectedFor b s
    let tx := readMemoryFrame (s.prof b) (physical (s.desc b) r.argA0) r.argLen
    controllerRun (.mbRead b rc) (selectSteps s + tx.length) s = .next (finish .ok (count r.argLen)
      (memWrite r.argOff (sub (answers tx.length sel) 3 r.argLen) (busBytes tx sel))) := by
  intro sel tx
  obtain ⟨p, hrun⟩ := (selected_of_selecting hsel hp).run_frame mbReadGo_selected rfl (List.cons_ne_nil _ _)
  rw [goOf, mbReadGo, memWrite_stand, finish_stand] at hrun
  exact hrun

end

/-- Settles O37, by the three ways MB_READ goes on after its range checks. -/
theorem memoryReadStoresTheReceivedBytes : Obligations.MemoryReadStoresTheReceivedBytes := by
  intro s r b rc hstart hb q len off hsize hfit ta v
  refine ⟨fun hlen => ?_, fun hlen hrc hverified => ?_, fun hlen hno hp => ?_⟩
  · exact (exec_start (.mbRead b rc) hstart).trans (mbReadStart_empty hb hsize hfit hlen)
  · exact run_mbRead_continues hstart hb hsize hfit hlen.ne' (rcEff_eq_true hrc hverified)
  · have hsel : selecting (.mbRead b rc) r s (.mbRead .sel) :=
      selecting_of_starts hstart ⟨bank_exists_of_eq rfl hb, hsize, hfit, hlen, hno, rfl⟩
    exact run_mbRead_selected hsel hp

/-! ## MB_READ_PAGE_CRC -/

section
variable {r : Run} {s u : State} {b base : Nat} {rc xi : Bool} {rx : List Byte}

theorem pageCrcEnd_ok (hcrc : crc16Fn u.cfg 0 rx = 0xB001) :
    let n := (u.desc b).pageLength + storedExtra (u.desc b) xi
    pageCrcEnd b xi r base rx u = finish .ok (count n) (memWrite r.argOff (sub rx base n) u) := by
  have hok : crcOk u.cfg rx = true := (crcOk_iff _ _).mpr hcrc
  exact if_neg (by simp [hok])

theorem pageCrcEnd_badCrc (hcrc : crc16Fn u.cfg 0 rx ≠ 0xB001) :
    pageCrcEnd b xi r base rx u = raise .integrityError 0 (forceVerify b u) := by
  have hbad : crcOk u.cfg rx = false := (crcOk_eq_false_iff _ _).mpr hcrc
  exact if_pos (by simp [hbad])

theorem pageCrcEnd_stand (p : Pos) : pageCrcEnd b xi r base rx (stand r p u) = pageCrcEnd b xi r base rx u := by
  by_cases hcrc : crc16Fn u.cfg 0 rx = 0xB001
  · rw [pageCrcEnd_ok hcrc, pageCrcEnd_ok (u := stand r p u) hcrc]
    rfl
  · rw [pageCrcEnd_badCrc hcrc, pageCrcEnd_badCrc (u := stand r p u) hcrc]
    rfl

/-- With readContinue the first primitive is the first byte of the page (rule R156). -/
theorem mbReadPageCrcStart_continues (hb : b < s.cfg.banks.length) (hauto : (s.desc b).hasPageAutoCRC = true)
    (hextra : xi = false ∨ (s.desc b).hasExtraInfo = true) (hpage : r.argA0 < (s.desc b).numberPages)
    (hfit : r.argOff + (s.desc b).pageLength + storedExtra (s.desc b) xi ≤ Config.bufSize)
    (hrc : rcEff b rc s = true) : mbReadPageCrcStart b rc xi r s =
      .next (advance r (mbReadPageCrcGo b xi r)
        (.xfer (ffs ((s.desc b).pageLength + extraLen (s.desc b) + 2)) [] (.pageCrc (.frame 0))) s) := by
  rw [mbReadPageCrcStart, bankChecked_exists hb, if_neg (by simp [hauto]), if_neg (extraInfo_not_missing hextra),
    if_neg (Nat.not_le.mpr hpage), if_neg (Nat.not_lt.mpr hfit), if_pos hrc]

/-- MB_READ_PAGE_CRC on from the last read: the page, its extra info and its CRC alone. -/
theorem run_mbReadPageCrc_continues (hstart : starts s r) (hb : b < s.cfg.banks.length)
    (hauto : (s.desc b).hasPageAutoCRC = true) (hextra : xi = false ∨ (s.desc b).hasExtraInfo = true)
    (hpage : r.argA0 < (s.desc b).numberPages)
    (hfit : r.argOff + (s.desc b).pageLength + storedExtra (s.desc b) xi ≤ Config.bufSize)
    (hrc : rcEff b rc s = true) :
    let tx := ffs ((s.desc b).pageLength + extraLen (s.desc b) + 2)
    controllerRun (.mbReadPageCrc b rc xi) tx.length s =
      .next (pageCrcEnd b xi r 0 (answers tx.length s) (busBytes tx s)) := by
  intro tx
  have hfirst := (exec_start (.mbReadPageCrc b rc xi) hstart).trans
    (mbReadPageCrcStart_continues hb hauto hextra hpage hfit hrc)
  have htx : tx ≠ [] := List.cons_ne_nil _ _
  obtain ⟨p, hrun⟩ := run_xfer_first rfl (stand_start hstart.1 hstart.2) htx hfirst
  exact hrun.trans (congrArg _ (pageCrcEnd_stand p))

theorem mbReadPageCrcGo_selected (p : Pos) :
    mbReadPageCrcGo b xi r (.pageCrc .sel) (.selected true) (stand r p (selectedState s)) =
      stand r (.xfer (readPageFrame (s.prof b) (s.desc b) (pageTA (s.desc b) r.argA0)) [] (.pageCrc (.frame 3)))
        (selectedFor b s) := by
  simp [mbReadPageCrcGo]

/-- MB_READ_PAGE_CRC with its select: the read-page frame (rule R286). -/
theorem run_mbReadPageCrc_selected (hsel : selecting (.mbReadPageCrc b rc xi) r s (.pageCrc .sel))
    (hp : s.nextPresence = true) :
    let sel := selectedFor b s
    let tx := readPageFrame (s.prof b) (s.desc b) (pageTA (s.desc b) r.argA0)
    controllerRun (.mbReadPageCrc b rc xi) (selectSteps s + tx.length) s =
      .next (pageCrcEnd b xi r 3 (answers tx.length sel) (busBytes tx sel)) := by
  intro sel tx
  obtain ⟨p, hrun⟩ := (selected_of_selecting hsel hp).run_frame (mbReadPageCrcGo_selected (xi := xi)) rfl
    (List.cons_ne_nil _ _)
  exact hrun.trans (congrArg _ (pageCrcEnd_stand p))

end

/-- Settles O38: both frames have the same end, decided by the CRC of what was received. -/
theorem pageReadChecksTheCrc : Obligations.PageReadChecksTheCrc := by
  intro s r b rc xi hstart hb q d off x xo hauto hextra hpage hfit ta ended
  have hended {rx : List Byte} {base : Nat} {u : State} (hcfg : u.cfg = s.cfg) :
      pageCrcEnd b xi r base rx u = ended rx base u := by
    have hdesc : u.desc b = d := desc_of_cfg hcfg b
    by_cases hcrc : crc16Fn s.cfg 0 rx = 0xB001
    · rw [pageCrcEnd_ok (by rwa [hcfg]), hdesc]
      exact (if_pos hcrc).symm
    · rw [pageCrcEnd_badCrc (by rwa [hcfg])]
      exact (if_neg hcrc).symm
  refine ⟨fun hrc hverified => ?_, fun hno hp => ?_⟩
  · exact (run_mbReadPageCrc_continues hstart hb hauto hextra hpage hfit (rcEff_eq_true hrc hverified)).trans
      (congrArg _ (hended (by simp)))
  · have hsel : selecting (.mbReadPageCrc b rc xi) r s (.pageCrc .sel) := by
      refine selecting_of_starts hstart ⟨bank_exists_of_eq rfl hb, hauto, hextra, hpage, ?_, hno, rfl⟩
      rwa [← storedExtra_eq]
    exact (run_mbReadPageCrc_selected hsel hp).trans (congrArg _ (hended (by simp)))

/-! ## MB_READ_PACKET -/

section
variable {r : Run} {s u : State} {b : Nat} {rx : List Byte}

/-- What the received frame of MB_READ_PACKET must be (rule R290): its CRC passes on a bank with page CRC, its length byte
is at most the maximum, and the CRC of its packet passes under the page's seed. -/
def GoodPacket (b : Nat) (r : Run) (rx : List Byte) (u : State) : Prop :=
  let page := sub rx 3 (u.desc b).pageLength
  let k := (page.getD 0 0).toNat
  ((u.desc b).hasPageAutoCRC = true → crc16Fn u.cfg 0 rx = 0xB001) ∧ k ≤ (u.desc b).maxPacketDataLength ∧
    crc16Fn u.cfg (packetSeed u b r.argA0) (page.take (k + 3)) = 0xB001

theorem crc16Pass_iff (c : Config) (seed : Half) (block : List Byte) :
    crc16Pass c seed block = true ↔ crc16Fn c seed block = 0xB001 := by
  simp [crc16Pass, crc16Residue]

theorem packetEnd_good (h : GoodPacket b r rx u) :
    let page := sub rx 3 (u.desc b).pageLength
    let k := (page.getD 0 0).toNat
    packetEnd b r rx u = finish .ok (count k) (memWrite r.argOff (sub page 1 k) u) := by
  obtain ⟨hframe, hlen, hcrc⟩ := h
  dsimp only [packetEnd]
  rw [if_neg, if_neg (Nat.not_lt.mpr hlen), if_neg]
  · rw [Bool.not_eq_true', Bool.not_eq_false]
    exact (crc16Pass_iff _ _ _).mpr hcrc
  · rw [Bool.and_eq_true, Bool.not_eq_true', crcOk_eq_false_iff]
    exact fun hbad => hbad.2 (hframe hbad.1)

/-- Every check that fails ends the command alike. -/
theorem packetEnd_bad (h : ¬ GoodPacket b r rx u) :
    packetEnd b r rx u = raise .integrityError 0 (forceVerify b u) := by
  dsimp only [packetEnd]
  split
  · rfl
  next hframe =>
    split
    · rfl
    next hlen =>
      refine if_pos ?_
      rw [Bool.not_eq_true', ← Bool.not_eq_true]
      intro hpass
      refine h ⟨fun hauto => ?_, Nat.not_lt.mp hlen, (crc16Pass_iff _ _ _).mp hpass⟩
      simpa [hauto, crcOk_iff] using hframe

theorem packetEnd_stand (p : Pos) : packetEnd b r rx (stand r p u) = packetEnd b r rx u := by
  by_cases h : GoodPacket b r rx u
  · rw [packetEnd_good h, packetEnd_good (u := stand r p u) h]
    rfl
  · rw [packetEnd_bad h, packetEnd_bad (u := stand r p u) h]
    rfl

theorem packetFrame_ne_nil (q : Prof) (d : Desc) (page : Nat) : packetFrame q d page ≠ [] := by
  unfold packetFrame
  split <;> exact List.cons_ne_nil _ _

theorem mbReadPacketGo_selected (p : Pos) :
    mbReadPacketGo b r (.packet .sel) (.selected true) (stand r p (selectedState s)) =
      stand r (.xfer (packetFrame (s.prof b) (s.desc b) r.argA0) [] (.packet (.frame 3))) (selectedFor b s) := by
  simp [mbReadPacketGo]

/-- MB_READ_PACKET up to the end of its frame (rule R290). -/
theorem run_mbReadPacket (hsel : selecting (.mbReadPacket b) r s (.packet .sel)) (hp : s.nextPresence = true) :
    let sel := selectedFor b s
    let tx := packetFrame (s.prof b) (s.desc b) r.argA0
    controllerRun (.mbReadPacket b) (selectSteps s + tx.length) s =
      .next (packetEnd b r (answers tx.length sel) (busBytes tx sel)) := by
  intro sel tx
  obtain ⟨p, hrun⟩ := (selected_of_selecting hsel hp).run_frame mbReadPacketGo_selected rfl (packetFrame_ne_nil _ _ _)
  exact hrun.trans (congrArg _ (packetEnd_stand p))

end

/-- Settles O39: the frame, and the two ends `GoodPacket` tells apart. -/
theorem packetReadChecksThePacket : Obligations.PacketReadChecksThePacket := by
  intro s r b hstart hb hp q d off hpage hfit ta x tx sel rx g k good
  have hsel : selecting (.mbReadPacket b) r s (.packet .sel) :=
    selecting_of_starts hstart ⟨bank_exists_of_eq rfl hb, hpage, hfit, rfl⟩
  have hrun : controllerRun (.mbReadPacket b) (selectSteps s + tx.length) s =
      .next (packetEnd b r rx (busBytes tx sel)) := run_mbReadPacket hsel hp
  have hcfg : (busBytes tx sel).cfg = s.cfg := by simp [sel]
  have hdesc : (busBytes tx sel).desc b = d := desc_of_cfg hcfg b
  have hgood : GoodPacket b r rx (busBytes tx sel) ↔ good := by
    rw [GoodPacket, packetSeed, hdesc, hcfg]
    rfl
  refine ⟨fun h => ?_, fun h => ?_⟩
  · rw [hrun, packetEnd_good (hgood.mpr h), hdesc]
    rfl
  · rw [hrun, packetEnd_bad (mt hgood.mp h)]
    rfl

/-! ## The chunks of a memory-bank write -/

section
variable {r : Run} {b n : Nat} {w : WriteRun} {u : State} {d : Desc}

theorem WriteRun.chunk_length (w : WriteRun) (d : Desc) (m : WriteMode) : (w.chunk d m).length = w.len d m := by
  have hle : w.len d m ≤ w.d.length - w.done := by cases m <;> exact Nat.min_le_left _ _
  simp [WriteRun.chunk, sub, hle]

/-- A chunk at the start of a range that it holds whole is the range. -/
theorem WriteRun.chunk_whole (hdone : w.done = 0) {m : WriteMode} (hlen : w.len d m = w.d.length) :
    w.chunk d m = w.d := by
  simp [WriteRun.chunk, sub, hdone, hlen]

theorem chunkStart_direct {q : Prof} (h : q.writeMode = .direct) : chunkStart q = .directSel := by
  rw [chunkStart, h]

theorem chunkStart_staged {q : Prof} (h : q.writeMode = .staged) :
    chunkStart q = if q.eraseRequired then .eraseSel else .writeSel := by
  rw [chunkStart, h]

/-- The last chunk of a range ends the command with its result (rule R288). -/
theorem chunkDone_last (hn : w.len (u.desc b) (u.prof b).writeMode = n) (hlast : w.d.length ≤ w.done + n) :
    chunkDone r b w u = finish .ok w.result (commitPages b (w.x + w.done) n u) := by
  rw [chunkDone, hn, nextChunk_eq]
  exact if_pos hlast

/-- An earlier chunk is counted, and the next one begins with its select (rule R288). -/
theorem chunkDone_next (hn : w.len (u.desc b) (u.prof b).writeMode = n) (hmore : w.done + n < w.d.length) :
    chunkDone r b w u = stand r (.reset (.range { w with done := w.done + n } (chunkStart (u.prof b))))
      (commitPages b (w.x + w.done) n u) := by
  rw [chunkDone, hn, nextChunk_eq, commitPages_prof]
  exact if_neg (Nat.not_le.mpr hmore)

theorem nextChunk_stand (p : Pos) : nextChunk r b w (stand r p u) = nextChunk r b w u := by
  rw [nextChunk_eq, nextChunk_eq]
  split <;> rfl

theorem chunkDone_stand (p : Pos) : chunkDone r b w (stand r p u) = chunkDone r b w u := by
  rw [chunkDone, commitPages_stand, nextChunk_stand]
  rfl

theorem chunkPolled_stand (v : Option Byte) (p : Pos) (u : State) :
    chunkPolled r b w v (stand r p u) = chunkPolled r b w v u := by
  cases v with
  | none => rfl
  | some v => exact chunkDone_stand p

end

/-! ## The first chunk -/

section
variable {r : Run} {s : State} {b : Nat} {q : List Byte}

theorem selecting_mbWrite (hstart : starts s r) (hb : b < s.cfg.banks.length)
    (hmode : (s.prof b).writeMode = .direct ∨ (s.prof b).macCopy = false)
    (hsize : r.argA0 + r.argLen ≤ (s.desc b).size) (hfit : r.argOff + r.argLen ≤ Config.bufSize)
    (hread : s.data.read r.argOff r.argLen = some q) (hlen : 0 < q.length)
    (hprot : isProtected b r.argA0 q.length s = false) :
    selecting (.mbWrite b) r s
      (.range { x := r.argA0, d := q, done := 0, result := count r.argLen } (chunkStart (s.prof b))) := by
  have hcount : q.length = r.argLen := (Memory.read_eq_some.mp hread).1
  rw [hcount] at hlen hprot
  exact selecting_of_starts hstart
    ⟨bank_exists_of_eq rfl hb, hmode, hsize, hfit, hlen, hprot, q, hread, rfl⟩

theorem packetBytes_length (c : Config) (seed : Half) (q : List Byte) :
    (packetBytes c seed q).length = q.length + 3 := by
  simp [packetBytes]

theorem selecting_mbWritePacket (hstart : starts s r) (hb : b < s.cfg.banks.length)
    (hmode : (s.prof b).writeMode = .direct ∨ (s.prof b).macCopy = false)
    (hpage : r.argA0 < (s.desc b).numberPages) (hlen : r.argLen ≤ (s.desc b).maxPacketDataLength)
    (hfit : r.argOff + r.argLen ≤ Config.bufSize) (hread : s.data.read r.argOff r.argLen = some q) :
    let x := r.argA0 * (s.desc b).pageLength
    let d := packetBytes s.cfg (packetSeed s b r.argA0) q
    isProtected b x d.length s = false →
    selecting (.mbWritePacket b) r s
      (.range { x := x, d := d, done := 0, result := count r.argLen } (chunkStart (s.prof b))) := by
  intro x d hprot
  have hcount : q.length = r.argLen := (Memory.read_eq_some.mp hread).1
  rw [packetBytes_length, hcount] at hprot
  exact selecting_of_starts hstart
    ⟨bank_exists_of_eq rfl hb, hmode, hpage, hlen, hfit, hprot, q, hread, rfl⟩

end

/-! ## The steps of a staged chunk -/

section
variable {r : Run} {b : Nat} {w : WriteRun} {u : State} {rx h t c : List Byte} {ta : Half}

theorem rangeGo_eraseFrame_refused (hok : eraseOk (u.prof b) (rx.getD 3 0) = false) :
    rangeGo b r (.range w .eraseFrame) (.received rx) u = raise .protocolError (count w.done) (dropScratchpad u) := by
  simp only [rangeGo, hok]
  rfl

theorem rangeGo_eraseFrame_accepted (hok : eraseOk (u.prof b) (rx.getD 3 0) = true)
    (hpoll : (u.prof b).pollAfterErase = false) :
    rangeGo b r (.range w .eraseFrame) (.received rx) u =
      stand r (.reset (.range w .writeSel)) (dropScratchpad u) := by
  simp only [rangeGo, hok, hpoll]
  rfl

theorem rangeGo_eraseFrame_polls (hok : eraseOk (u.prof b) (rx.getD 3 0) = true)
    (hpoll : (u.prof b).pollAfterErase = true) :
    rangeGo b r (.range w .eraseFrame) (.received rx) u =
      startPoll r (.range w .erasePoll) (chunkTimeout w) (dropScratchpad u) := by
  simp only [rangeGo, hok, hpoll]
  rfl

/-- What follows the poll of an erase (rule R282). -/
def chunkErased (r : Run) (w : WriteRun) (v : Option Byte) (s : State) : State :=
  match v with
  | none => chunkTimeout w s
  | some _ => stand r (.reset (.range w .writeSel)) s

theorem rangeGo_erasePoll (v : Option Byte) (u : State) :
    rangeGo b r (.range w .erasePoll) (.polled v) u = chunkErased r w v u := rfl

theorem chunkErased_stand (v : Option Byte) (p : Pos) (u : State) :
    chunkErased r w v (stand r p u) = chunkErased r w v u := by
  cases v <;> rfl

/-- A payload completes its window (rule R243). -/
theorem completesWindow_iff (ta : Half) (n : Nat) : completesWindow ta n = true ↔ ta.toNat % 32 + n = 32 := by
  simp [completesWindow, woff]

/-- The write-scratchpad frame (rule R121). -/
theorem writeFrame_eq (q : Prof) (ta : Half) (d : List Byte) : writeFrame q ta d =
    [q.cmdWriteSP, ta.extractLsb' 0 8, ta.extractLsb' 8 8] ++ d ++
      (if ta.toNat % 32 + d.length = 32 then [0xFF, 0xFF] else []) := by
  simp only [writeFrame, completesWindow_iff]
  rfl

theorem rangeGo_writeFrame_ok (p : Pos) (hta : w.ta (u.desc b) = ta) (hc : w.chunk (u.desc b) .staged = c)
    (hgood : ¬ ta.toNat % 32 + c.length = 32 ∨ crc16Fn u.cfg 0 rx = 0xB001) :
    rangeGo b r (.range w .writeFrame) (.received rx) (stand r p u) =
      stand r (.reset (.range w .readSel)) { u with spValid := false, spTA := ta } := by
  subst hta hc
  refine if_neg ?_
  rw [Bool.and_eq_true, completesWindow_iff, Bool.not_eq_true', crcOk_eq_false_iff]
  exact fun hbad => hgood.elim (· hbad.1) hbad.2

theorem rangeGo_writeFrame_badCrc (p : Pos) (hta : w.ta (u.desc b) = ta) (hc : w.chunk (u.desc b) .staged = c)
    (hfull : ta.toNat % 32 + c.length = 32) (hcrc : crc16Fn u.cfg 0 rx ≠ 0xB001) :
    rangeGo b r (.range w .writeFrame) (.received rx) (stand r p u) =
      raise .integrityError (count w.done) (forceVerify b { u with spValid := false, spTA := ta }) := by
  subst hta hc
  refine if_pos ?_
  rw [Bool.and_eq_true, completesWindow_iff, Bool.not_eq_true', crcOk_eq_false_iff]
  exact ⟨hfull, hcrc⟩

/-- What the read-back of a chunk must be (rule R282, step 3). -/
theorem readBackOk_iff (c : Config) (ta : Half) (chunk h t : List Byte) : readBackOk c ta chunk h t = true ↔
    crc16Fn c 0 (h ++ t) = 0xB001 ∧ h.getD 2 0 ++ h.getD 1 0 = ta ∧ t.take chunk.length = chunk := by
  simp only [readBackOk, Bool.and_eq_true, beq_iff_eq, crcOk_iff, and_assoc]
  rfl

theorem rangeGo_readData_same (p : Pos) (hta : w.ta (u.desc b) = ta) (hc : w.chunk (u.desc b) .staged = c)
    (hsame : readBackOk u.cfg ta c h t = true) :
    rangeGo b r (.range w (.readData h)) (.received t) (stand r p u) = stand r (.reset (.range w (.copySel (h.getD 3 0))))
      { u with spTA := ta, spES := h.getD 3 0, spValid := true } := by
  subst hta hc
  exact if_pos hsame

theorem rangeGo_readData_differs (p : Pos) (hta : w.ta (u.desc b) = ta) (hc : w.chunk (u.desc b) .staged = c)
    (hdiff : ¬ readBackOk u.cfg ta c h t = true) :
    rangeGo b r (.range w (.readData h)) (.received t) (stand r p u) =
      raise .integrityError (count w.done) (forceVerify b u) := by
  subst hta hc
  exact if_neg hdiff

end

section
variable {i : Instr} {r : Run} {b m : Nat} {w : WriteRun} {es : Byte} {s₀ s : State}
  (hi : i = .mbWrite b ∨ i = .mbWritePacket b)
include hi

theorem goOf_range (r : Run) : goOf i r = rangeGo b r := by obtain rfl | rfl := hi <;> rfl

theorem owns_range (a : ChunkAt) : owns i (.range w a) = true := by obtain rfl | rfl := hi <;> rfl

theorem standsAt_reset_range {a : ChunkAt} (ha : (Label.range w a).prim = .select) :
    standsAt i (.reset (.range w a)) = true := by
  simp [standsAt, owns_range hi, ha]

theorem standsAt_xfer_range {a : ChunkAt} (ha : (Label.range w a).prim = .xfer) (tx rx : List Byte) :
    standsAt i (.xfer tx rx (.range w a)) = true := by
  simp [standsAt, owns_range hi, ha]

/-- The erase of a chunk up to the end of its frame. -/
theorem Selected.run_chunkErase (h : Selected i r (.range w .eraseSel) m s₀ s) :
    ∃ p, controllerRun i (m + 4) s₀ =
      .next (rangeGo b r (.range w .eraseFrame) (.received (answers 4 (selectedFor b s)))
        (stand r p (busBytes (eraseFrame (s.prof b) (w.ta (s.desc b))) (selectedFor b s)))) := by
  rw [← goOf_range hi]
  refine h.run_frame (k' := .range w .eraseFrame) (tx := eraseFrame (s.prof b) (w.ta (s.desc b))) (fun p => ?_)
    (standsAt_xfer_range hi rfl _ _) (List.cons_ne_nil _ _)
  simp [goOf_range hi, rangeGo]

/-- A status that is not accepted ends the command (rule R282, step 1). -/
theorem Selected.chunkErase_refused (h : Selected i r (.range w .eraseSel) m s₀ s)
    (hok : eraseOk (s.prof b) ((answers 4 (selectedFor b s)).getD 3 0) = false) :
    controllerRun i (m + 4) s₀ = .next (raise .protocolError (count w.done)
      (dropScratchpad (busBytes (eraseFrame (s.prof b) (w.ta (s.desc b))) (selectedFor b s)))) := by
  obtain ⟨p, hrun⟩ := h.run_chunkErase hi
  rw [hrun, rangeGo_eraseFrame_refused (by simpa using hok), dropScratchpad_stand, raise_stand]

/-- An accepted status goes on to the write where the profile asks for no poll (rule R282, step 1). -/
theorem Selected.chunkErase_accepted (h : Selected i r (.range w .eraseSel) m s₀ s)
    (hok : eraseOk (s.prof b) ((answers 4 (selectedFor b s)).getD 3 0) = true)
    (hpoll : (s.prof b).pollAfterErase = false) :
    controllerRun i (m + 4) s₀ = .next (stand r (.reset (.range w .writeSel))
      (dropScratchpad (busBytes (eraseFrame (s.prof b) (w.ta (s.desc b))) (selectedFor b s)))) := by
  obtain ⟨p, hrun⟩ := h.run_chunkErase hi
  rw [hrun, rangeGo_eraseFrame_accepted (by simpa using hok) (by simpa using hpoll), dropScratchpad_stand, stand_stand]

/-- The erase of a chunk where the profile asks for a poll, and the ends of that poll (rule R282, step 1). -/
theorem Selected.pollEnds_chunkErase (h : Selected i r (.range w .eraseSel) m s₀ s)
    (hok : eraseOk (s.prof b) ((answers 4 (selectedFor b s)).getD 3 0) = true)
    (hpoll : (s.prof b).pollAfterErase = true) :
    PollEnds i (m + 4) s₀ (dropScratchpad (busBytes (eraseFrame (s.prof b) (w.ta (s.desc b))) (selectedFor b s)))
      s.pollLimit (chunkErased r w) := by
  obtain ⟨p, hrun⟩ := h.run_chunkErase hi
  rw [rangeGo_eraseFrame_polls (by simpa using hok) (by simpa using hpoll), dropScratchpad_stand] at hrun
  have hlimit : (dropScratchpad (busBytes (eraseFrame (s.prof b) (w.ta (s.desc b))) (selectedFor b s))).pollLimit =
      s.pollLimit := by simp
  rw [← hlimit]
  refine pollEnds_of_startPoll hrun ?_ (fun v u => by rw [goOf_range hi, rangeGo_erasePoll]) chunkErased_stand
  simp [standsAt, owns_range hi, Label.prim]

/-- The write of a chunk up to the end of its frame. -/
theorem Selected.run_chunkWrite (h : Selected i r (.range w .writeSel) m s₀ s) :
    let tx := writeFrame (s.prof b) (w.ta (s.desc b)) (w.chunk (s.desc b) .staged)
    ∃ p, controllerRun i (m + tx.length) s₀ =
      .next (rangeGo b r (.range w .writeFrame) (.received (answers tx.length (selectedFor b s)))
        (stand r p (busBytes tx (selectedFor b s)))) := by
  intro tx
  rw [← goOf_range hi]
  refine h.run_frame (fun p => ?_) (standsAt_xfer_range hi rfl _ _) (List.cons_ne_nil _ _)
  simp [goOf_range hi, rangeGo, tx]

/-- The read-back of a chunk up to the end of its second transfer: the header, then the bytes it asks for. -/
theorem Selected.run_chunkRead (h : Selected i r (.range w .readSel) m s₀ s) :
    let header := answers 4 (selectedFor b s)
    let n := readLen (header.getD 1 0) + 2
    let mid := busBytes (readHeaderFrame (s.prof b)) (selectedFor b s)
    ∃ p, controllerRun i (m + 4 + n) s₀ =
      .next (rangeGo b r (.range w (.readData header)) (.received (answers n mid)) (stand r p (busBytes (ffs n) mid))) := by
  intro header n mid
  have hheader : controllerRun i (m + 4) s₀ =
      .next (stand r (.xfer (readDataFrame header) [] (.range w (.readData header))) mid) := by
    obtain ⟨p, hrun⟩ := h.run_frame (k' := .range w .readHeader) (tx := readHeaderFrame (s.prof b))
      (u := selectedFor b s) (fun p => by simp [goOf_range hi, rangeGo]) (standsAt_xfer_range hi rfl _ _)
      (List.cons_ne_nil _ _)
    rw [goOf_range hi] at hrun
    exact hrun
  have hlen : (readDataFrame header).length = n := List.length_replicate
  have hdata := run_then_xfer hheader (standsAt_xfer_range hi rfl _ _) (List.cons_ne_nil _ _)
  rwa [goOf_range hi, hlen] at hdata

/-- The copy of a chunk without strong pull-up up to its poll: its own read-back, which is consumed. -/
theorem Selected.run_chunkCopy (h : Selected i r (.range w (.copySel es)) m s₀ s)
    (hplain : (s.prof b).strongPullupOnCopy = false) :
    ∃ p, controllerRun i (m + 4) s₀ =
      .next (startPoll r (.range w (.copy .poll)) (chunkTimeout w) (stand r p
        (busBytes (copyFrame (s.prof b) (w.ta (s.desc b)) es []) (dropScratchpad (selectedFor b s))))) := by
  obtain ⟨p, h⟩ := h
  simp only [goOf_range hi, rangeGo, afterSelect_selected, prof_stand, desc_stand, selectedFor_prof, selectedFor_desc,
    dropScratchpad_stand] at h
  have hprof : (dropScratchpad (selectedFor b s)).prof b = s.prof b := selectedFor_prof b b s
  exact (sendsCopy_chunk hi r w).run_plain h (by rw [hprof]; exact hplain) (List.cons_ne_nil _ _)

/-- The copy of a chunk without strong pull-up, and the ends of its poll (rule R282, step 5). -/
theorem Selected.pollEnds_chunkCopy (h : Selected i r (.range w (.copySel es)) m s₀ s)
    (hplain : (s.prof b).strongPullupOnCopy = false) :
    PollEnds i (m + 4) s₀
      (busBytes (copyFrame (s.prof b) (w.ta (s.desc b)) es []) (dropScratchpad (selectedFor b s))) s.pollLimit
      (chunkPolled r b w) := by
  obtain ⟨p, hrun⟩ := h.run_chunkCopy hi hplain
  have hcopy := sendsCopy_chunk hi r w
  have hlimit : (busBytes (copyFrame (s.prof b) (w.ta (s.desc b)) es []) (dropScratchpad (selectedFor b s))).pollLimit =
      s.pollLimit := by simp
  rw [← hlimit]
  exact pollEnds_of_startPoll hrun (hcopy.standsAt_poll 0) (fun _ _ => hcopy.go .poll _ _) chunkPolled_stand

end

section
variable {i : Instr} {r : Run} {b m : Nat} {w : WriteRun} {s₀ s : State} {ta : Half} {c tx : List Byte}
  (hi : i = .mbWrite b ∨ i = .mbWritePacket b) (hta : w.ta (s.desc b) = ta) (hc : w.chunk (s.desc b) .staged = c)
include hi hta hc

/-- The write of a chunk goes on to the read-back (rule R282, steps 2 and 3). -/
theorem Selected.chunkWrite_ok (h : Selected i r (.range w .writeSel) m s₀ s)
    (htx : writeFrame (s.prof b) ta c = tx)
    (hgood : ¬ ta.toNat % 32 + c.length = 32 ∨ crc16Fn s.cfg 0 (answers tx.length (selectedFor b s)) = 0xB001) :
    controllerRun i (m + tx.length) s₀ = .next (stand r (.reset (.range w .readSel))
      { busBytes tx (selectedFor b s) with spValid := false, spTA := ta }) := by
  obtain ⟨p, hrun⟩ := h.run_chunkWrite hi
  rw [hta, hc, htx] at hrun
  rw [hrun, rangeGo_writeFrame_ok p (by simpa) (by simpa) (by simpa)]

/-- The write of a full window whose CRC fails ends the command (rule R282, step 2). -/
theorem Selected.chunkWrite_badCrc (h : Selected i r (.range w .writeSel) m s₀ s)
    (htx : writeFrame (s.prof b) ta c = tx) (hfull : ta.toNat % 32 + c.length = 32)
    (hcrc : crc16Fn s.cfg 0 (answers tx.length (selectedFor b s)) ≠ 0xB001) :
    controllerRun i (m + tx.length) s₀ = .next (raise .integrityError (count w.done)
      (setVerified b false { busBytes tx (selectedFor b s) with spValid := false, spTA := ta })) := by
  obtain ⟨p, hrun⟩ := h.run_chunkWrite hi
  rw [hta, hc, htx] at hrun
  rw [hrun, rangeGo_writeFrame_badCrc p (by simpa) (by simpa) hfull (by simpa)]
  rfl

/-- A read-back that agrees goes on to the copy, and is kept for it (rule R282, steps 3 and 4). -/
theorem Selected.chunkRead_same (h : Selected i r (.range w .readSel) m s₀ s) :
    let header := answers 4 (selectedFor b s)
    let n := readLen (header.getD 1 0) + 2
    let mid := busBytes (readHeaderFrame (s.prof b)) (selectedFor b s)
    readBackOk s.cfg ta c header (answers n mid) = true →
    controllerRun i (m + 4 + n) s₀ = .next (stand r (.reset (.range w (.copySel (header.getD 3 0))))
      { busBytes (ffs n) mid with spTA := ta, spES := header.getD 3 0, spValid := true }) := by
  intro header n mid hsame
  obtain ⟨p, hrun⟩ := h.run_chunkRead hi
  have hcfg : (busBytes (ffs n) mid).cfg = s.cfg := by simp [mid]
  have hdesc : (busBytes (ffs n) mid).desc b = s.desc b := desc_of_cfg hcfg b
  exact hrun.trans (congrArg _ (rangeGo_readData_same p (by rw [hdesc, hta]) (by rw [hdesc, hc]) (by rwa [hcfg])))

/-- A read-back that disagrees ends the command (rule R282, step 3). -/
theorem Selected.chunkRead_differs (h : Selected i r (.range w .readSel) m s₀ s) :
    let header := answers 4 (selectedFor b s)
    let n := readLen (header.getD 1 0) + 2
    let mid := busBytes (readHeaderFrame (s.prof b)) (selectedFor b s)
    ¬ readBackOk s.cfg ta c header (answers n mid) = true →
    controllerRun i (m + 4 + n) s₀ =
      .next (raise .integrityError (count w.done) (setVerified b false (busBytes (ffs n) mid))) := by
  intro header n mid hdiff
  obtain ⟨p, hrun⟩ := h.run_chunkRead hi
  have hcfg : (busBytes (ffs n) mid).cfg = s.cfg := by simp [mid]
  have hdesc : (busBytes (ffs n) mid).desc b = s.desc b := desc_of_cfg hcfg b
  exact hrun.trans (congrArg _ (rangeGo_readData_differs p (by rw [hdesc, hta]) (by rw [hdesc, hc]) (by rwa [hcfg])))

end

/-! ## Direct chunks -/

section
variable {i : Instr} {r : Run} {b m : Nat} {w : WriteRun} {s₀ s u : State} {tx rx : List Byte}

theorem directEnd_accepted (hok : directOk (u.prof b) tx rx = true) : directEnd r b w tx rx u = chunkDone r b w u :=
  if_pos hok

theorem directEnd_refused (hok : directOk (u.prof b) tx rx = false) :
    directEnd r b w tx rx u = raise .integrityError (count w.done) (forceVerify b u) :=
  if_neg (ne_true_of_eq_false hok)

theorem directEnd_stand (p : Pos) : directEnd r b w tx rx (stand r p u) = directEnd r b w tx rx u := by
  unfold directEnd
  rw [chunkDone_stand]
  rfl

/-- A direct chunk from its select on: the profile's frame, which may be empty, and its check (rule R283). -/
theorem Selected.run_chunkDirect (hi : i = .mbWrite b ∨ i = .mbWritePacket b)
    (h : Selected i r (.range w .directSel) m s₀ s) :
    let tx := directFrame (s.prof b) (w.ta (s.desc b)) (w.chunk (s.desc b) .direct)
    controllerRun i (m + tx.length) s₀ =
      .next (directEnd r b w tx (answers tx.length (selectedFor b s)) (busBytes tx (selectedFor b s))) := by
  intro tx
  obtain ⟨p, h⟩ := h
  simp only [goOf_range hi, rangeGo, afterSelect_selected, prof_stand, desc_stand, selectedFor_prof,
    selectedFor_desc] at h
  obtain ⟨p, hrun⟩ := run_sendFrame (f := directEnd r b w tx) h (standsAt_xfer_range hi rfl _ _) (fun _ => rfl)
    (fun rx u => by rw [goOf_range hi]; rfl)
  rw [hrun, directEnd_stand]

end

/-- Settles O41: a chunk of any direct write, and the write of one page as its first and last chunk. -/
theorem directWriteSendsTheProfilesFrame : Obligations.DirectWriteSendsTheProfilesFrame := by
  refine ⟨?_, ?_⟩
  · intro s r b x q d hstart hb hp pr desc len off hmode hfit hread hlen hpage hprot sel tx ended
    let w : WriteRun := { x := x, d := d, done := 0, result := count r.argLen }
    have hn : w.len desc .direct = d.length := Nat.min_eq_left (Nat.le_sub_of_add_le' hpage)
    have hwhole {i : Instr} (hi : i = .mbWrite b ∨ i = .mbWritePacket b)
        (hsel : selecting i r s (.range w (chunkStart pr))) :
        controllerRun i (selectSteps s + tx.length) s = .next ended := by
      rw [chunkStart_direct hmode] at hsel
      have hrun : controllerRun i (selectSteps s + tx.length) s =
          .next (directEnd r b w tx (answers tx.length sel) (busBytes tx sel)) := by
        have h := (selected_of_selecting hsel hp).run_chunkDirect hi
        rwa [WriteRun.chunk_whole rfl hn] at h
      have hprof : (busBytes tx sel).prof b = pr := by simp [sel, pr]
      have hdesc : (busBytes tx sel).desc b = desc := by simp [sel, desc]
      by_cases hok : directOk pr tx (answers tx.length sel) = true
      · have hlast : w.len ((busBytes tx sel).desc b) ((busBytes tx sel).prof b).writeMode = d.length := by
          rw [hprof, hdesc, hmode, hn]
        rw [hrun, directEnd_accepted (by rwa [hprof]), chunkDone_last hlast (Nat.le_add_left _ _)]
        exact congrArg _ (if_pos hok).symm
      · rw [hrun, directEnd_refused (by rw [hprof]; exact Bool.eq_false_of_not_eq_true hok)]
        exact congrArg _ (if_neg hok).symm
    refine ⟨?_, ?_⟩
    · rintro rfl rfl hsize
      exact hwhole (.inl rfl) (selecting_mbWrite hstart hb (.inl hmode) hsize hfit hread hlen hprot)
    · rintro rfl rfl hnum hmax
      exact hwhole (.inr rfl) (selecting_mbWritePacket hstart hb (.inl hmode) hnum hmax hfit hread hprot)
  · intro i s r b w hi hmode hsel hp desc y n sel tx sent accepted steps
    have hrun : controllerRun i steps s = .next (directEnd r b w tx (answers tx.length sel) sent) :=
      (selected_of_selecting hsel hp).run_chunkDirect hi
    have hprof : sent.prof b = s.prof b := by simp [sent, sel]
    have hdesc : sent.desc b = desc := by simp [sent, sel, desc]
    have hn : w.len (sent.desc b) (sent.prof b).writeMode = n := by rw [hprof, hdesc, hmode]; rfl
    refine ⟨fun hok hlast => ?_, fun hok hmore => ?_, fun hok => ?_⟩
    · rw [hrun, directEnd_accepted (by rw [hprof]; exact hok), chunkDone_last hn hlast]
    · rw [hrun, directEnd_accepted (by rw [hprof]; exact hok), chunkDone_next hn hmore, hprof,
        chunkStart_direct hmode]
    · rw [hrun, directEnd_refused (by rw [hprof]; exact hok)]
      rfl

/-- Settles O42: the copy up to its poll, and a step of that poll. -/
theorem chunksAreCountedOneByOne : Obligations.ChunksAreCountedOneByOne := by
  refine ⟨?_, ?_⟩
  · intro i s r b w es hi hsel hp hplain ta sent
    obtain ⟨p, hrun⟩ := (selected_of_selecting hsel hp).run_chunkCopy hi hplain
    have hrun : controllerRun i (selectSteps s + 4) s =
        .next (startPoll r (.range w (.copy .poll)) (chunkTimeout w) (stand r p sent)) := hrun
    have hlimit : (stand r p sent).pollLimit = s.pollLimit := by simp [sent]
    refine ⟨fun hpos => ?_, fun hzero => ?_⟩
    · rw [hrun, startPoll_pos (by rwa [hlimit]), hlimit]
      rfl
    · rw [hrun, startPoll_zero (by rwa [hlimit])]
      rfl
  · intro i s r b left w hi hrun hpos hmode y n polled after
    have hseq : s.seq = .run { r with pos := .poll left (.range w (.copy .poll)) } := by rw [hrun, ← hpos]
    have hprof : polled.prof b = s.prof b := busBytes_prof [0xFF] b s
    have hdesc : polled.desc b = s.desc b := busBytes_desc [0xFF] b s
    have hn : w.len (polled.desc b) (polled.prof b).writeMode = n := by rw [hprof, hdesc, hmode]; rfl
    obtain ⟨hseen, hquiet, hmore⟩ := (sendsCopy_chunk hi r w).exec_polling hseq
    refine ⟨fun hv hlast => ?_, fun hv hnext => ?_, hquiet, hmore⟩
    · exact (hseen hv).trans (congrArg _ (chunkDone_last hn hlast))
    · rw [hseen hv, chunkPolled, chunkDone_next hn hnext, hprof, chunkStart_staged hmode]

/-- Settles O40: the steps of a chunk, each from its select on; the write of one window is one step after the other. -/
theorem stagedWriteRunsTheProtocol : Obligations.StagedWriteRunsTheProtocol := by
  refine ⟨?_, ?_⟩
  · intro s r b x m q d hstart hb pr desc len off hmode hmac herase hplain hfit hread hlen hprot ta hroom full
      s1 tx1 s2 s3 h l s4 t s5 s6 s7 s8 hp hp2 hp5 hcrc1 hcrc2 hta hback hm ha hv steps ended
    let w : WriteRun := { x := x, d := d, done := 0, result := count r.argLen }
    have hn : w.len desc .staged = d.length := Nat.min_eq_left (Nat.le_sub_of_add_le' hroom)
    have hchunk : w.chunk desc .staged = d := WriteRun.chunk_whole rfl hn
    have hbegins : chunkStart pr = .writeSel := by simp [chunkStart_staged hmode, herase]
    have hcfg2 : s2.cfg = s.cfg := by simp [s2, s1]
    have hcfg5 : s5.cfg = s.cfg := by simp [s5, s4, s3, hcfg2]
    have hcfg8 : s8.cfg = s.cfg := by simp [s8, s7, s6, hcfg5]
    have hdesc {u : State} (hcfg : u.cfg = s.cfg) : u.desc b = desc := desc_of_cfg hcfg b
    have hprof {u : State} (hcfg : u.cfg = s.cfg) : u.prof b = pr := prof_of_cfg hcfg b
    have hlimit : s5.pollLimit = s.pollLimit := by simp [s5, s4, s3, s2, s1]
    have hwhole {i : Instr} (hi : i = .mbWrite b ∨ i = .mbWritePacket b)
        (hsel : selecting i r s (.range w (chunkStart pr))) : controllerRun i steps s = .next ended := by
      rw [hbegins] at hsel
      have hwrite : controllerRun i (selectSteps s + tx1.length) s =
          .next (stand r (.reset (.range w .readSel)) s2) :=
        (selected_of_selecting hsel hp).chunkWrite_ok hi rfl hchunk (writeFrame_eq pr ta d)
          (Decidable.not_or_of_imp hcrc1)
      have hsame := (selected_of_run hwrite (standsAt_reset_range hi rfl) hp2).chunkRead_same hi
        (ta := ta) (by rw [hdesc hcfg2]; rfl) (by rw [hdesc hcfg2, hchunk])
      rw [hprof hcfg2, hcfg2] at hsame
      have hreadBack : controllerRun i (selectSteps s + tx1.length + selectSteps s2 + 4 + (l + 2)) s =
          .next (stand r (.reset (.range w (.copySel (h.getD 3 0)))) s5) :=
        hsame ((readBackOk_iff _ _ _ _ _).mpr ⟨hcrc2, hta, hback⟩)
      have hpolls := (selected_of_run hreadBack (standsAt_reset_range hi rfl) hp5).pollEnds_chunkCopy hi
        (by rw [hprof hcfg5]; exact hplain)
      rw [hprof hcfg5, hdesc hcfg5, hlimit] at hpolls
      have hsteps : steps = selectSteps s + tx1.length + selectSteps s2 + 4 + (l + 2) + selectSteps s5 + 4 + (m + 1) := by
        simp only [steps, Nat.add_assoc]
      have hlast : w.len (s8.desc b) (s8.prof b).writeMode = d.length := by
        rw [hdesc hcfg8, hprof hcfg8, hmode, hn]
      rw [hsteps]
      exact (hpolls.seen m hm ha hv).trans (congrArg _ (chunkDone_last hlast (Nat.le_add_left _ _)))
    refine ⟨?_, ?_⟩
    · rintro rfl rfl hsize
      exact hwhole (.inl rfl) (selecting_mbWrite hstart hb (.inr hmac) hsize hfit hread hlen hprot)
    · rintro rfl rfl hnum hmax
      exact hwhole (.inr rfl) (selecting_mbWritePacket hstart hb (.inr hmac) hnum hmax hfit hread hprot)
  · intro i s r b w hi hp pr ta n c sel v goesOn
    refine ⟨?_, ?_, ?_⟩
    · intro hsel status sent steps
      have hsel := selected_of_selecting hsel hp
      refine ⟨fun hok => hsel.chunkErase_refused hi hok, fun hok hpoll => hsel.chunkErase_accepted hi hok hpoll,
        fun hok hpoll => ?_⟩
      obtain ⟨hseen, hquiet, hzero⟩ := hsel.pollEnds_chunkErase hi hok hpoll
      exact ⟨hzero, hseen, hquiet⟩
    · intro hsel full tx sent steps passes
      have hsel := selected_of_selecting hsel hp
      have hcount : c.length = n := WriteRun.chunk_length w (s.desc b) .staged
      have htx : writeFrame pr ta c = tx := by rw [writeFrame_eq, hcount]
      refine ⟨fun hgood => ?_, fun hfull hcrc => ?_⟩
      · exact hsel.chunkWrite_ok (c := c) hi rfl rfl htx (by rwa [hcount])
      · exact hsel.chunkWrite_badCrc (c := c) hi rfl rfl htx (by rwa [hcount]) hcrc
    · intro hsel h l mid t sent steps same
      have hsel := selected_of_selecting hsel hp
      have hcount : c.length = n := WriteRun.chunk_length w (s.desc b) .staged
      have hok : readBackOk s.cfg ta c h t = true ↔ same := by rw [readBackOk_iff, hcount]
      refine ⟨fun hsame => ?_, fun hdiff => ?_⟩
      · exact hsel.chunkRead_same hi rfl rfl (hok.mpr hsame)
      · exact hsel.chunkRead_differs hi rfl rfl (mt hok.mp hdiff)

end Sys2Proof.Machine

/-! PROOFS. The OTP commands: their checks; one frame of an OTP flow, said once for every command that makes one; then the
queries, the two locks and the redirection as chains of such frames. -/

namespace Sys2Proof.Machine

/-! ## The checks -/

section
variable {r : Run} {s : State} {b : Nat} {kinds : List OtpKind} {x : Result}

theorem otpChecked_unsupported (hb : b < s.cfg.banks.length) (hno : ∃ k ∈ kinds, k ∉ (s.prof b).otpSupported) :
    otpChecked b kinds r s x = .next (raise .unsupportedOperation 0 s) := by
  rw [otpChecked, bankChecked_exists hb, if_pos (by simpa [otpSupported] using hno)]

/-- With every kind supported, what is left of the checks is that of the page (rule R320). -/
theorem otpChecked_supported (hb : b < s.cfg.banks.length) (hall : ∀ k ∈ kinds, k ∈ (s.prof b).otpSupported) :
    otpChecked b kinds r s x = if (s.desc b).numberPages ≤ r.argA0 then .next (raise .rangeError 0 s) else x := by
  rw [otpChecked, bankChecked_exists hb, if_neg (by simpa [otpSupported] using hall)]

theorem otpChecked_outOfRange (hb : b < s.cfg.banks.length) (hall : ∀ k ∈ kinds, k ∈ (s.prof b).otpSupported)
    (hpage : (s.desc b).numberPages ≤ r.argA0) : otpChecked b kinds r s x = .next (raise .rangeError 0 s) := by
  rw [otpChecked_supported hb hall, if_pos hpage]

theorem otpChecked_passed (hb : b < s.cfg.banks.length) (hall : ∀ k ∈ kinds, k ∈ (s.prof b).otpSupported)
    (hpage : r.argA0 < (s.desc b).numberPages) : otpChecked b kinds r s x = x := by
  rw [otpChecked_supported hb hall, if_neg (Nat.not_le.mpr hpage)]

theorem otpLockStart_protected (hb : b < s.cfg.banks.length)
    (hall : ∀ k ∈ [OtpKind.lockWrite, .lockRead], k ∈ (s.prof b).otpSupported)
    (hpage : r.argA0 < (s.desc b).numberPages) (hro : (s.bankState b).readOnly = true) :
    otpLockStart b r s = .next (raise .protectionError 0 s) := by
  rw [otpLockStart, otpChecked_passed hb hall hpage, if_pos hro]

theorem otpLockRedirectStart_protected (hb : b < s.cfg.banks.length)
    (hall : ∀ k ∈ [OtpKind.redirectLockWrite, .redirectLockRead], k ∈ (s.prof b).otpSupported)
    (hpage : r.argA0 < (s.desc b).numberPages) (hro : (s.bankState b).readOnly = true) :
    otpLockRedirectStart b r s = .next (raise .protectionError 0 s) := by
  rw [otpLockRedirectStart, otpChecked_passed hb hall hpage, if_pos hro]

theorem otpRedirectStart_newOutOfRange (hb : b < s.cfg.banks.length)
    (hall : ∀ k ∈ [OtpKind.redirectWrite, .redirectRead], k ∈ (s.prof b).otpSupported)
    (hpage : r.argA0 < (s.desc b).numberPages) (hnew : (s.desc b).numberPages ≤ r.argA2) :
    otpRedirectStart b r s = .next (raise .rangeError 0 s) := by
  rw [otpRedirectStart, otpChecked_passed hb hall hpage, if_pos hnew]

theorem otpRedirectStart_protected (hb : b < s.cfg.banks.length)
    (hall : ∀ k ∈ [OtpKind.redirectWrite, .redirectRead], k ∈ (s.prof b).otpSupported)
    (hpage : r.argA0 < (s.desc b).numberPages) (hnew : r.argA2 < (s.desc b).numberPages)
    (hprot : (s.bankState b).readOnly = true ∨ r.argA0 ∈ (s.bankState b).redirectLocked) :
    otpRedirectStart b r s = .next (raise .protectionError 0 s) := by
  rw [otpRedirectStart, otpChecked_passed hb hall hpage, if_neg (Nat.not_le.mpr hnew), if_pos (by simpa using hprot)]

end

/-- Settles O53: the checks of rule R320 are `otpChecked`; what follows it is each command's own. -/
theorem otpChecks : Obligations.OtpChecks := by
  intro s r b hstart hb p d bs page refused
  have hrefused {i : Instr} {e : ErrCode} (hi : startOf i r s = .next (raise e 0 s)) : refused e i :=
    (exec_start i hstart).trans hi
  have hboth {k l : OtpKind} (hk : k ∈ p.otpSupported) (hl : l ∈ p.otpSupported) :
      ∀ m ∈ [k, l], m ∈ p.otpSupported := by
    simp [hk, hl]
  refine ⟨fun e he => ?_, fun hpage =>
    ⟨fun hw hr hro => ?_, fun hw hr hro => ?_, fun hw hr => ⟨fun hnew => ?_, fun hnew hprot => ?_⟩⟩⟩
  · have hchecks : ∃ x, startOf e.1 r s = otpChecked b e.2 r s x := by
      simp only [List.mem_cons, List.not_mem_nil, or_false] at he
      obtain rfl | rfl | rfl | rfl | rfl | rfl := he <;> exact ⟨_, rfl⟩
    obtain ⟨x, hx⟩ := hchecks
    exact ⟨fun hno => hrefused (hx.trans (otpChecked_unsupported hb hno)),
      fun hall hpage => hrefused (hx.trans (otpChecked_outOfRange hb hall hpage))⟩
  · exact hrefused (otpLockStart_protected hb (hboth hw hr) hpage hro)
  · exact hrefused (otpLockRedirectStart_protected hb (hboth hw hr) hpage hro)
  · exact hrefused (otpRedirectStart_newOutOfRange hb (hboth hw hr) hpage hnew)
  · exact hrefused (otpRedirectStart_protected hb (hboth hw hr) hpage hnew hprot)

/-! ## One frame of an OTP flow -/

/-- The bytes of an OTP frame in a bank's profile (rule R61). -/
def OtpStep.frame (o : OtpStep) (q : Prof) : List Byte := otpFrame q o.kind o.page o.arg

/-- The state after a select in `s` that finds a device and the frame after it (rule R321). -/
def OtpStep.sent (o : OtpStep) (q : Prof) (b : Nat) (s : State) : State := busBytes (o.frame q) (selectedFor b s)

/-- What the profile decodes of the answer to that frame (rules R321, R322). -/
def OtpStep.value (o : OtpStep) (q : Prof) (b : Nat) (s : State) : Option Half :=
  otpDecode q o.kind (answers (o.frame q).length (selectedFor b s))

@[simp] theorem OtpStep.sent_prof (o : OtpStep) (q : Prof) (b c : Nat) (s : State) : (o.sent q b s).prof c = s.prof c := by
  simp [OtpStep.sent]

/-- Command `i` is the OTP flow with the frames `step` that goes on with `after`, which does not read the position. -/
structure OtpFlow (i : Instr) (r : Run) (b : Nat) (step : OtpAt → OtpStep) (after : OtpAt → Half → State → State) :
    Prop where
  go : goOf i r = otpGo b step after r
  after_stand : ∀ a, owns i (.otpSel a) = true → ∀ v p s, after a v (stand r p s) = after a v s

theorem owns_otpFrame (i : Instr) (a : OtpAt) : owns i (.otpFrame a) = owns i (.otpSel a) := by cases i <;> rfl

section
variable {i : Instr} {r : Run} {b m : Nat} {step : OtpAt → OtpStep} {after : OtpAt → Half → State → State} {a : OtpAt}
  {s₀ s : State} {q : Prof}

/-- A frame after its select, whatever its answer decodes to. -/
theorem OtpFlow.run_frame (hflow : OtpFlow i r b step after) (hk : standsAt i (.reset (.otpSel a)) = true)
    (hsel : Selected i r (.otpSel a) m s₀ s) (hq : s.prof b = q) :
    ∃ p, controllerRun i (m + ((step a).frame q).length) s₀ = .next
      (otpDecoded b (step a).kind (answers ((step a).frame q).length (selectedFor b s))
        (stand r p ((step a).sent q b s)) (after a)) := by
  subst hq
  have hown : owns i (.otpFrame a) = true := by
    rw [owns_otpFrame]
    exact (Bool.and_eq_true_iff.mp hk).1
  exact run_otpFrame (fun _ _ _ => by rw [hflow.go]) hown hsel

theorem otpDecoded_none {kind : OtpKind} {rx : List Byte} {u : State} {k : Half → State → State}
    (hdec : otpDecode (u.prof b) kind rx = none) :
    otpDecoded b kind rx u k = raise .integrityError 0 (setVerified b false u) := by
  rw [otpDecoded, hdec, forceVerify]

theorem otpDecoded_some {kind : OtpKind} {rx : List Byte} {u : State} {k : Half → State → State} {v : Half}
    (hdec : otpDecode (u.prof b) kind rx = some v) : otpDecoded b kind rx u k = k v u := by
  rw [otpDecoded, hdec]

theorem OtpFlow.run_undecoded (hflow : OtpFlow i r b step after) (hk : standsAt i (.reset (.otpSel a)) = true)
    (hsel : Selected i r (.otpSel a) m s₀ s) (hq : s.prof b = q) (hv : (step a).value q b s = none) :
    controllerRun i (m + ((step a).frame q).length) s₀ =
      .next (raise .integrityError 0 (setVerified b false ((step a).sent q b s))) := by
  obtain ⟨p, hrun⟩ := hflow.run_frame hk hsel hq
  rw [hrun, otpDecoded_none (by rwa [prof_stand, OtpStep.sent_prof, hq]), setVerified_stand, raise_stand]

theorem OtpFlow.run_decoded (hflow : OtpFlow i r b step after) (hk : standsAt i (.reset (.otpSel a)) = true)
    (hsel : Selected i r (.otpSel a) m s₀ s) (hq : s.prof b = q) {v : Half} (hv : (step a).value q b s = some v) :
    controllerRun i (m + ((step a).frame q).length) s₀ = .next (after a v ((step a).sent q b s)) := by
  obtain ⟨p, hrun⟩ := hflow.run_frame hk hsel hq
  rw [hrun, otpDecoded_some (by rwa [prof_stand, OtpStep.sent_prof, hq]),
    hflow.after_stand a (Bool.and_eq_true_iff.mp hk).1]

end

/-! ## The queries -/

section
variable {i : Instr} {r : Run} {b : Nat} {step : OtpAt → OtpStep} {result : Half → Word} {s : State}

/-- A query is one frame, and ends with `result` of the value (rules R324, R326, R328). -/
theorem run_otpQuery (hgo : goOf i r = otpGo b step (fun _ v s => finish .ok (result v) s) r)
    (hsel : selecting i r s (.otpSel .first)) (hp : s.nextPresence = true) :
    let sent := (step .first).sent (s.prof b) b s
    controllerRun i (selectSteps s + ((step .first).frame (s.prof b)).length) s =
      .next (((step .first).value (s.prof b) b s).elim (raise .integrityError 0 (setVerified b false sent))
        fun v => finish .ok (result v) sent) := by
  have hflow : OtpFlow i r b step fun _ v s => finish .ok (result v) s := ⟨hgo, fun _ _ _ _ _ => rfl⟩
  have hfirst := selected_of_selecting hsel hp
  cases hv : (step .first).value (s.prof b) b s with
  | none => exact hflow.run_undecoded (selecting_standsAt hsel) hfirst rfl hv
  | some v => exact hflow.run_decoded (selecting_standsAt hsel) hfirst rfl hv

theorem flagResult_eq : flagResult = fun v => if v ≠ 0 then 1 else 0 := by
  funext v
  simp [flagResult, bit_zero]

end

/-- Settles O45: each query is one frame after the first select. -/
theorem otpQueriesReturnTheFlag : Obligations.OtpQueriesReturnTheFlag := by
  intro s r b hstart hb hp hpage pr sel frame steps sent value ended
  rw [← flagResult_eq]
  have hsel {i : Instr} (hi : selectsFirst i r s (.otpSel .first)) : selecting i r s (.otpSel .first) :=
    selecting_of_starts hstart hi
  have hended (k : OtpKind) (result : Half → Word) : ended k result = (value k).elim
      (raise .integrityError 0 (setVerified b false (sent k))) fun v => finish .ok (result v) (sent k) := by
    simp only [ended]
    cases value k <;> rfl
  simp only [hended]
  refine ⟨fun hr => ?_, fun hr => ?_, fun hr => ?_⟩
  · exact run_otpQuery (i := .otpIsLocked b) (step := lockStep r) rfl
      (hsel ⟨bank_exists_of_eq rfl hb, List.contains_iff_mem.mp hr, hpage, rfl⟩) hp
  · exact run_otpQuery (i := .otpGetRedirect b) (step := redirectStep r) rfl
      (hsel ⟨bank_exists_of_eq rfl hb, List.contains_iff_mem.mp hr, hpage, rfl⟩) hp
  · exact run_otpQuery (i := .otpIsRedirectLocked b) (step := lockRedirectStep r) rfl
      (hsel ⟨bank_exists_of_eq rfl hb, List.contains_iff_mem.mp hr, hpage, rfl⟩) hp

/-! ## The locks -/

/-- The frames of a lock command: the flag is read, written, and read back (rules R323, R327). -/
def flagFrames (kr kw : OtpKind) (page : Half) : OtpAt → OtpStep
  | .first => { kind := kr, page := page, arg := 0 }
  | .write => { kind := kw, page := page, arg := 1 }
  | .verify => { kind := kr, page := page, arg := 0 }

/-- What a lock command does after each frame, `record` being the record it sets (rules R323, R327). -/
def flagAfter (b : Nat) (r : Run) (record : State → State) : OtpAt → Half → State → State
  | .first, v, s => if v ≠ 0 then finish .ok 1 (record s) else stand r (.reset (.otpSel .write)) s
  | .write, _, s => stand r (.reset (.otpSel .verify)) s
  | .verify, v, s => if v = 0 then raise .verificationError 0 (setVerified b false s) else finish .ok 1 (record s)

theorem lockStep_eq (r : Run) : lockStep r = flagFrames .lockRead .lockWrite (pageHalf r.argA0) :=
  funext fun a => by cases a <;> rfl

theorem lockRedirectStep_eq (r : Run) :
    lockRedirectStep r = flagFrames .redirectLockRead .redirectLockWrite (pageHalf r.argA0) :=
  funext fun a => by cases a <;> rfl

theorem lockAfter_eq (b : Nat) (r : Run) : lockAfter b r = flagAfter b r (setPageLocked b r.argA0) :=
  funext fun a => by cases a <;> rfl

theorem lockRedirectAfter_eq (b : Nat) (r : Run) : lockRedirectAfter b r = flagAfter b r (setRedirectLocked b r.argA0) :=
  funext fun a => by cases a <;> rfl

theorem flagAfter_stand {b : Nat} {r : Run} {record : State → State}
    (hrecord : ∀ p s, record (stand r p s) = stand r p (record s)) (a : OtpAt) (v : Half) (p : Pos) (s : State) :
    flagAfter b r record a v (stand r p s) = flagAfter b r record a v s := by
  cases a <;> simp [flagAfter, hrecord]

theorem otpFlow_otpLock (r : Run) (b : Nat) : OtpFlow (.otpLock b) r b
    (flagFrames .lockRead .lockWrite (pageHalf r.argA0)) (flagAfter b r (setPageLocked b r.argA0)) where
  go := by rw [← lockStep_eq, ← lockAfter_eq]; rfl
  after_stand a _ := flagAfter_stand (fun _ _ => rfl) a

theorem otpFlow_otpLockRedirect (r : Run) (b : Nat) : OtpFlow (.otpLockRedirect b) r b
    (flagFrames .redirectLockRead .redirectLockWrite (pageHalf r.argA0)) (flagAfter b r (setRedirectLocked b r.argA0)) where
  go := by rw [← lockRedirectStep_eq, ← lockRedirectAfter_eq]; rfl
  after_stand a _ := flagAfter_stand (fun _ _ => rfl) a

/-- Settles O46: both commands are one flow of three frames, each from its own select. -/
theorem otpLocksAreReadBack : Obligations.OtpLocksAreReadBack := by
  intro s r b i kr kw record hstart hb pr page hcmd hr hw hpage hro hp rd wr s1 s2 s3 n1 n2 n3 v1 v2 v3
  rw [List.contains_iff_mem] at hr hw
  have hlock : OtpFlow i r b (flagFrames kr kw (pageHalf page)) (flagAfter b r record) ∧
      (∀ a, standsAt i (.reset (.otpSel a)) = true) ∧ selecting i r s (.otpSel .first) := by
    obtain ⟨rfl, rfl, rfl, rfl⟩ | ⟨rfl, rfl, rfl, rfl⟩ := hcmd
    · exact ⟨otpFlow_otpLock r b, fun _ => rfl,
        selecting_of_starts hstart ⟨bank_exists_of_eq rfl hb, hw, hr, hpage, hro, rfl⟩⟩
    · exact ⟨otpFlow_otpLockRedirect r b, fun _ => rfl,
        selecting_of_starts hstart ⟨bank_exists_of_eq rfl hb, hw, hr, hpage, hro, rfl⟩⟩
  obtain ⟨hflow, hstands, hsel⟩ := hlock
  have hpr1 : s1.prof b = pr := OtpStep.sent_prof (flagFrames kr kw (pageHalf page) .first) pr b b s
  have hpr2 : s2.prof b = pr := (OtpStep.sent_prof (flagFrames kr kw (pageHalf page) .write) pr b b s1).trans hpr1
  have hfirst : Selected i r (.otpSel .first) (selectSteps s) s s := selected_of_selecting hsel hp
  have hwrite (hv : v1 = some 0) (hp1 : s1.nextPresence = true) :
      Selected i r (.otpSel .write) (n1 + selectSteps s1) s s1 :=
    selected_of_run (hflow.run_decoded (hstands _) hfirst rfl hv) (hstands _) hp1
  have hverify (hv1 : v1 = some 0) (hp1 : s1.nextPresence = true) (hv2 : v2 ≠ none) (hp2 : s2.nextPresence = true) :
      Selected i r (.otpSel .verify) (n1 + selectSteps s1 + wr.length + selectSteps s2) s s2 := by
    obtain ⟨v, hv⟩ := Option.ne_none_iff_exists'.mp hv2
    exact selected_of_run (hflow.run_decoded (hstands _) (hwrite hv1 hp1) hpr1 hv) (hstands _) hp2
  have hn2 : n2 = n1 + selectSteps s1 + wr.length := (Nat.add_assoc _ _ _).symm
  have hn3 : n3 = n1 + selectSteps s1 + wr.length + selectSteps s2 + rd.length := by
    rw [← hn2]
    exact (Nat.add_assoc _ _ _).symm
  rw [hn2, hn3]
  refine ⟨fun hv => ?_, fun v hv hset => ?_, fun hv1 hp1 hv2 => ?_, fun hv1 hp1 hv2 hp2 =>
    ⟨fun hv => ?_, fun hv => ?_, fun v hv hset => ?_⟩⟩
  · exact hflow.run_undecoded (hstands _) hfirst rfl hv
  · exact (hflow.run_decoded (hstands _) hfirst rfl hv).trans (congrArg _ (if_pos hset))
  · exact hflow.run_undecoded (hstands _) (hwrite hv1 hp1) hpr1 hv2
  · exact hflow.run_undecoded (hstands _) (hverify hv1 hp1 hv2 hp2) hpr2 hv
  · exact hflow.run_decoded (hstands _) (hverify hv1 hp1 hv2 hp2) hpr2 hv
  · exact (hflow.run_decoded (hstands _) (hverify hv1 hp1 hv2 hp2) hpr2 hv).trans (congrArg _ (if_neg hset))

/-! ## The redirection -/

theorem otpFlow_otpRedirect (r : Run) (b : Nat) : OtpFlow (.otpRedirect b) r b (redirectStep r) (redirectAfter b r) where
  go := rfl
  after_stand a ha v p s := by
    cases a with
    | first => cases ha
    | write => rfl
    | verify => simp [redirectAfter]

/-- Settles O47: a write frame and a read frame, each from its own select. -/
theorem otpRedirectIsReadBack : Obligations.OtpRedirectIsReadBack := by
  intro s r b hstart hb pr page new hw hr hpage hnew hro hfree hp wr rd s1 s2 n1 n2 v1 v2
  have hflow := otpFlow_otpRedirect r b
  have hpr1 : s1.prof b = pr := OtpStep.sent_prof (redirectStep r .write) pr b b s
  have hwrite : Selected (.otpRedirect b) r (.otpSel .write) (selectSteps s) s s :=
    selected_of_selecting (selecting_of_starts hstart ⟨bank_exists_of_eq rfl hb, List.contains_iff_mem.mp hw,
      List.contains_iff_mem.mp hr, hpage, hnew, hro, hfree, rfl⟩) hp
  have hverify (hv1 : v1 ≠ none) (hp1 : s1.nextPresence = true) :
      Selected (.otpRedirect b) r (.otpSel .verify) (n1 + selectSteps s1) s s1 := by
    obtain ⟨v, hv⟩ := Option.ne_none_iff_exists'.mp hv1
    exact selected_of_run (hflow.run_decoded rfl hwrite rfl hv) rfl hp1
  have hn2 : n2 = n1 + selectSteps s1 + rd.length := (Nat.add_assoc _ _ _).symm
  rw [hn2]
  refine ⟨fun hv => ?_, fun hv1 hp1 => ⟨fun hv => ?_, fun hv => ?_, fun v hv hother => ?_⟩⟩
  · exact hflow.run_undecoded rfl hwrite rfl hv
  · exact hflow.run_undecoded rfl (hverify hv1 hp1) hpr1 hv
  · exact (hflow.run_decoded rfl (hverify hv1 hp1) hpr1 hv).trans (congrArg _ (if_neg (not_not.mpr rfl)))
  · exact (hflow.run_decoded rfl (hverify hv1 hp1) hpr1 hv).trans (congrArg _ (if_pos hother))

end Sys2Proof.Machine
